-- ==== Sys2Proof/Word.lean ====
section
/-! DEFINITION. The word types of the block: bytes (storage slots and peripheral registers, spec rules R4, R21, R26),
the three input words and the output word of rule R90, the baud operand and the divisor setting (rule R4), and the names
of the two channel instances (rule R6). -/

namespace Sys2Proof

/-- One byte: a storage slot (R21) or a peripheral register (`REGW` = 8, R4). -/
abbrev Byte := BitVec 8

/-- Format K, a command word `k[35:0]` (R91). -/
abbrev CommandWord := BitVec 36

/-- Format V, a receive event word `v[8:0]` (R94). -/
abbrev EventWord := BitVec 9

/-- Format U, a ring-buffer micro-operation word `u[10:0]` (R95). -/
abbrev RingWord := BitVec 11

/-- Format R, a response word `r[18:0]` (R96). -/
abbrev ResponseWord := BitVec 19

/-- The `baud` operand of BEGIN (`ARGW` = 32, unsigned, R4). -/
abbrev Baud := BitVec 32

/-- The clock-divisor setting (`SETW` = 16, R4). -/
abbrev Setting := BitVec 16

/-- The two channel instances, "channel 0 and channel 1" (R6, R216). -/
inductive Chan where
  | ch0
  | ch1
deriving DecidableEq, Repr

end Sys2Proof
end

