-- ==== Sys2Proof/Config.lean ====
section
/-! DEFINITION. The implementation parameters of one channel (spec rule R4) with the values State.reset takes for them,
and the free values of the model: values no rule fixes (`draw` of rule R8), as constants without a body. -/

namespace Sys2Proof

/-- The OPEN parameters of one channel instance (R4). The five handles are opaque and never compared, so they are the
five names of `Machine.Handle` and have no value here (log 16). -/
structure Params where
  /-- `C`, the capacity of the storage in bytes (R4, D2). -/
  cap : Nat
  /-- `F_CLK`, the peripheral's input clock in hertz, unsigned 32-bit (R4, D7). -/
  fclk : BitVec 32
  /-- `B_RXEN`, receive-enable in the control register. -/
  bRxen : Fin 8
  /-- `B_TXEN`, transmit-enable in the control register. -/
  bTxen : Fin 8
  /-- `B_RXCIE`, receive-interrupt-enable in the control register. -/
  bRxcie : Fin 8
  /-- `B_U2X`, double-speed mode in the status register. -/
  bU2x : Fin 8
  /-- `B_UDRE`, data register empty in the status register (C4). -/
  bUdre : Fin 8
deriving DecidableEq, Repr, Inhabited

/-- The parameters State.reset starts from: the spec's default `C` = 128, its example clock 16 000 000
(DESIGN CHOICE) and the AVR bit positions it quotes from general knowledge (PRESUMED). Log 1. -/
def Config.defaultParams : Params :=
  { cap := 128, fclk := 16000000#32, bRxen := 4, bTxen := 3, bRxcie := 7, bU2x := 1, bUdre := 5 }

/-- One draw for every register rule R42 leaves "unspecified" at reset; the slots of `ST` have `Config.slotDraw`. -/
structure ResetDraws where
  /-- `UBRRH` after reset. -/
  ubrrh : Byte
  /-- `UBRRL` after reset. -/
  ubrrl : Byte
  /-- `STATUS` after reset, all bits. -/
  status : Byte
  /-- `CONTROL` after reset; only its five opaque bits are taken. -/
  control : Byte
  /-- `RXDATA` after reset. -/
  rxdata : Byte
  /-- `TXDATA` after reset. -/
  txdata : Byte
  /-- `FCMD` after reset. -/
  fcmd : CommandWord
deriving DecidableEq, Repr, Inhabited

/-- FREE VALUE: what a RESET step leaves in the unspecified registers of a channel, at its n-th draw (R42, R231, D28).
Log 5. -/
opaque Config.resetDraws : Chan → Nat → ResetDraws

/-- FREE VALUE: the byte of slot `i` of a channel's storage `ST` after the reset that drew it, `Config.slotDraw c n i` for
channel `c` and draw `n` (R42, R231, D27: one draw per slot). Log 7. -/
opaque Config.slotDraw : Chan → Nat → Nat → Byte

/-- FREE VALUE: the double-speed flag of `BEGIN 0`, at the channel's n-th draw (R146, D18). Log 6. -/
opaque Config.zeroBaudFlag : Chan → Nat → Bool

/-- FREE VALUE: the 16-bit setting of `BEGIN 0`, at the channel's n-th draw (R146, D18). Log 6. -/
opaque Config.zeroBaudSetting : Chan → Nat → Setting

end Sys2Proof
end

