-- ==== Sys2Proof/Syntax.lean ====
section
/-! DEFINITION. The instruction set: one constructor per row of spec/opcode_table.json (eight host commands, one
peripheral event, five ring-buffer micro-operations). -/

namespace Sys2Proof

/-- The fourteen instructions. Operands have exactly the width the encoding gives them (R92, R94, R95). -/
inductive Instr where
  /-- BEGIN baud (R141). -/
  | beginCmd (baud : Baud)
  /-- END (R148). -/
  | endCmd
  /-- FLUSH (R149). -/
  | flush
  /-- AVAILABLE (R161). -/
  | available
  /-- CLEAR (R162). -/
  | clear
  /-- PEEK (R163). -/
  | peek
  /-- READ (R164). -/
  | read
  /-- WRITE byte (R180). -/
  | write (byte : Byte)
  /-- RXC byte (R190). -/
  | rxc (byte : Byte)
  /-- RB.PUSH data (R121). -/
  | rbPush (data : Byte)
  /-- RB.POP (R122). -/
  | rbPop
  /-- RB.PEEK (R123). -/
  | rbPeek
  /-- RB.COUNT (R124). -/
  | rbCount
  /-- RB.CLEAR (R125). -/
  | rbClear
deriving DecidableEq, Repr

/-- The port a word arrives on; "A decoder tells the format from the port the word arrives on, not from the word" (R90). -/
inductive Port where
  /-- Command port, format K. -/
  | command
  /-- Event port, format V. -/
  | event
  /-- Internal ring-buffer port, format U. -/
  | ring
deriving DecidableEq, Repr

/-- A word on its port (R90). -/
inductive PortWord where
  /-- A word of format K. -/
  | k (w : CommandWord)
  /-- A word of format V. -/
  | v (w : EventWord)
  /-- A word of format U. -/
  | u (w : RingWord)
deriving DecidableEq, Repr

end Sys2Proof
end

