-- ==== Sys2Proof/Machine/State.lean ====
section
/-! DEFINITION. The state of the hardware as plain data: the two channel instances (spec rules R20 to R43), the
environment's remaining stimuli, and the state right after reset (rule R42). -/

namespace Sys2Proof
namespace Machine

/-- The consumer commands, the values of `op` in `FG = SAMPLED(op, hs)` (R34). -/
inductive ConsumerOp where
  | available
  | clear
  | peek
  | read
deriving DecidableEq, Repr

/-- `FG`, the state of the foreground sequencer (R34). -/
inductive FG where
  /-- No command in progress. -/
  | idle
  /-- A consumer command has sampled `HEAD` into `hs` (R35). -/
  | sampled (op : ConsumerOp) (hs : Nat)
  /-- A WRITE of `b` is spinning on `STATUS[B_UDRE]`. -/
  | poll (b : Byte)
  /-- A fault was raised; no command is accepted until reset. -/
  | halted
deriving DecidableEq, Repr

/-- `RSP` by its fields, format R (R37, R96). -/
structure Response where
  /-- `r[18:17]`: 0 none, 1 PRECONDITION, 2 ILLEGAL_COMMAND. -/
  fault : BitVec 2
  /-- `r[16]`. -/
  hasValue : Bool
  /-- `r[15:0]`, two's complement. -/
  value : BitVec 16
deriving DecidableEq, Repr

/-- `{valid, byte[7:0]}`, the result of RB.POP and RB.PEEK (R95). -/
structure RingByte where
  /-- 0: "returns empty (no data)". -/
  valid : Bool
  /-- The byte, 0 when `valid = 0`. -/
  byte : Byte
deriving DecidableEq, Repr

/-- The result lines of the internal ring-buffer port (R95, column "result"). -/
inductive RingResult where
  /-- RB.PUSH and RB.CLEAR return nothing. -/
  | nothing
  /-- RB.POP and RB.PEEK. -/
  | byte (r : RingByte)
  /-- RB.COUNT, an integer `0..C-1`. -/
  | count (n : Nat)
deriving DecidableEq, Repr

/-- One turn of one agent (R9): which agent moves and what it brings. The steps' names are those of R103. -/
inductive Stimulus where
  /-- HOST presents a command word on channel `c`'s command port. -/
  | command (c : Chan) (k : CommandWord)
  /-- FGSEQ of channel `c` takes its COMMIT or POLL step. -/
  | advance (c : Chan)
  /-- PERIPH shows an event word on channel `c`'s event port. -/
  | event (c : Chan) (v : EventWord)
  /-- PERIPH takes the step TXRDY on channel `c`. -/
  | txrdy (c : Chan)
  /-- The environment takes the step RESET, both channels at once (R230). -/
  | reset
  /-- A bench drives channel `c`'s internal ring-buffer port alone (R95, R99). Not a move of the wired hardware. Log 10. -/
  | ringPort (c : Chan) (u : RingWord)
deriving DecidableEq, Repr

/-- Which draw the slots of a storage hold that no push has written since reset: channel and draw number, the arguments of
`Config.slotDraw`. The model's own. Log 7. -/
structure DrawKey where
  /-- The channel that drew. -/
  chan : Chan
  /-- The number of the draw on that channel. -/
  number : Nat
deriving DecidableEq, Repr

/-- One channel instance: the rows of R20, with the parameters of R4 beside them. -/
structure Channel where
  /-- The parameters, fixed for the life of the instance; no step writes them (R4, R41). Log 1. -/
  params : Params
  /-- `ST[0..C-1]` (R21): the slots written since reset, as (index, byte), indices strictly rising. Every other slot holds
  its byte of the draw `stDraw`. Log 7. -/
  st : List Host.Cell
  /-- The model's own: the draw the unwritten slots of `ST` hold (R42). Log 7. -/
  stDraw : DrawKey
  /-- `HEAD`, `0..C-1` (R22). -/
  head : Nat
  /-- `TAIL`, `0..C-1` (R23). -/
  tail : Nat
  /-- `UBRRH` (R27). -/
  ubrrh : Byte
  /-- `UBRRL` (R28). -/
  ubrrl : Byte
  /-- `STATUS` (R29). -/
  status : Byte
  /-- `CONTROL` (R30). -/
  control : Byte
  /-- `RXDATA` (R31). -/
  rxdata : Byte
  /-- `TXDATA` (R31). -/
  txdata : Byte
  /-- `FG`, with `HS` in it (R34, R35). -/
  fg : FG
  /-- `FAULT`, the sticky code (R36). -/
  fault : BitVec 2
  /-- `FCMD`, the command word that faulted (R36). -/
  fcmd : CommandWord
  /-- `RSP` (R37). -/
  rsp : Response
  /-- `TXLOG`, oldest byte first (R38). -/
  txlog : List Byte
  /-- The model's own: how many free values the channel has drawn. Log 8. -/
  draws : Nat
deriving DecidableEq, Repr

/-- The whole hardware (R216) with the environment's remaining stimuli. -/
structure State where
  /-- Channel 0. -/
  ch0 : Channel
  /-- Channel 1. -/
  ch1 : Channel
  /-- The model's own: the channel the present step belongs to. Log 9. -/
  sel : Chan
  /-- The model's own: the result of the last stand-alone micro-operation. Log 9. -/
  ringOut : RingResult
  /-- The model's own: the stimuli still to come, first one next. Log 2. -/
  inbox : List Stimulus
deriving DecidableEq, Repr

/-- Why the machine stops: there is no such reason, so the type has no constructor and nobody raises one. The two faults of
the spec, PRECONDITION and ILLEGAL_COMMAND, are next states (R204). -/
inductive Fault
deriving DecidableEq, Repr

/-- Why a step has no meaning. -/
inductive Refusal where
  /-- Raised by an arm of `exec` whose instruction has no meaning yet (none at present). Safe. -/
  | notModelled (mnemonic : String)
  /-- Raised by the step for a reserved word on the internal ring-buffer port: "a stand-alone model of the ring buffer
  refuses them (no step)" (R99, U3). Safe. -/
  | reservedMicroOp (u : RingWord)
  /-- Raised by the step when a channel's parameters break R5: "the model is not defined for them" (U19). Safe. Log 15. -/
  | parametersOutOfRange
deriving DecidableEq, Repr

/-- One channel after reset, as R42 has it. Of the registers R42 leaves unspecified, the peripheral's hold the AVR family's
reset values, `STATUS` 0x20 (`UDRE` = 1) and the others 0 (PRESUMED, unsafe), and `FCMD` holds 0 (DESIGN CHOICE, unsafe);
log 4. The slots of `ST` hold the draw `k` (log 7). -/
def Channel.initial (k : DrawKey) (p : Params) : Channel :=
  { params := p, st := [], stDraw := k, head := 0, tail := 0, ubrrh := 0#8, ubrrl := 0#8, status := 0x20#8, control := 0#8,
    rxdata := 0#8, txdata := 0#8, fg := .idle, fault := 0#2, fcmd := 0#36,
    rsp := { fault := 0#2, hasValue := false, value := 0#16 }, txlog := [], draws := 0 }

/-- The hardware right after reset (R42, R216: both channels together). -/
def State.reset : State :=
  { ch0 := Channel.initial { chan := .ch0, number := 0 } Config.defaultParams,
    ch1 := Channel.initial { chan := .ch1, number := 0 } Config.defaultParams, sel := .ch0,
    ringOut := .nothing, inbox := [] }

end Machine
end Sys2Proof
end

