-- ==== Sys2Proof/Machine/Flags.lean ====
section
/-! DEFINITION. The derived flags: EMPTY, FULL and COUNT of the ring buffer with the modulo arithmetic behind them (spec
rules R24, R126), and the channel's ACTIVE and the enabling of the receive event (rules R32, R191). None is stored. -/

namespace Sys2Proof
namespace Machine

/-- Bit `b` of a peripheral register. -/
def testBit (r : Byte) (b : Fin 8) : Bool := r.getLsbD b.val

/-- `(i + 1) mod C`, over the non-negative integers (R126 a). -/
def indexNext (cap i : Nat) : Nat := (i + 1) % cap

/-- `COUNT(h, t) = (C + h - t) mod C` (R24, R126 b); for `t < C` the difference never goes below zero. -/
def countOf (cap h t : Nat) : Nat := (cap + h - t) % cap

/-- `EMPTY(h, t)` (R24). -/
def emptyOf (h t : Nat) : Bool := decide (h = t)

/-- `FULL(h, t)` (R24). -/
def fullOf (cap h t : Nat) : Bool := decide (indexNext cap h = t)

/-- `IDXW = ceil(log2 C)` (R4, D3). -/
def indexWidth (cap : Nat) : Nat := Nat.clog 2 cap

/-- `COUNT(HEAD, TAIL)` of the current state (R24). -/
def Channel.count (ch : Channel) : Nat := countOf ch.params.cap ch.head ch.tail

/-- `EMPTY(HEAD, TAIL)` of the current state (R24). -/
def Channel.empty (ch : Channel) : Bool := emptyOf ch.head ch.tail

/-- `FULL(HEAD, TAIL)` of the current state (R24). -/
def Channel.full (ch : Channel) : Bool := fullOf ch.params.cap ch.head ch.tail

/-- `ACTIVE`: the three enable bits are 1 (R32, D23). -/
def Channel.active (ch : Channel) : Bool :=
  testBit ch.control ch.params.bRxen && testBit ch.control ch.params.bTxen && testBit ch.control ch.params.bRxcie

/-- The RXC event is enabled: `RXEN` and `RXCIE` are 1 (R191). -/
def Channel.rxEnabled (ch : Channel) : Bool :=
  testBit ch.control ch.params.bRxen && testBit ch.control ch.params.bRxcie

/-- `STATUS[B_UDRE]`, "data register empty" (R29). -/
def Channel.udre (ch : Channel) : Bool := testBit ch.status ch.params.bUdre

end Machine
end Sys2Proof
end

