-- ==== Sys2Proof/WellFormed.lean ====
section
/-! DEFINITION. Well-formedness: the constraints on the parameters (spec rule R5) and the port an instruction may stand
on (rules R90, R93 to R95). The operands of Instr have the encoding's width by type, so nothing else can be ill-formed. -/

namespace Sys2Proof

/-- `2 <= C <= 32768`; the three enable bits pairwise distinct; `B_U2X != B_UDRE` (R5). -/
def Params.wellFormed (p : Params) : Bool :=
  decide (2 ≤ p.cap) && decide (p.cap ≤ 32768) && decide (p.bRxen ≠ p.bTxen) && decide (p.bRxen ≠ p.bRxcie)
    && decide (p.bTxen ≠ p.bRxcie) && decide (p.bU2x ≠ p.bUdre)

/-- The port whose format has the instruction's row (R93, R94, R95). -/
def Instr.port : Instr → Port
  | .beginCmd _ => .command
  | .endCmd => .command
  | .flush => .command
  | .available => .command
  | .clear => .command
  | .peek => .command
  | .read => .command
  | .write _ => .command
  | .rxc _ => .event
  | .rbPush _ => .ring
  | .rbPop => .ring
  | .rbPeek => .ring
  | .rbCount => .ring
  | .rbClear => .ring

/-- The port a word stands on. -/
def PortWord.port : PortWord → Port
  | .k _ => .command
  | .v _ => .event
  | .u _ => .ring

/-- An instruction is well-formed at a port when the port's format has its row. -/
def Instr.wellFormedAt (p : Port) (i : Instr) : Bool := decide (i.port = p)

end Sys2Proof
end

