-- ==== Sys2Proof/Decode.lean ====
section
/-! DEFINITION. The decoder (spec rules R91 to R95, R98, R99, R101), total on every word of every port and rejecting by
name, the encoder written from the same rows, the rows of the opcode table (mask and match), and the reading of an
opcode-table word. -/

namespace Sys2Proof

/-- Why a word names no instruction. -/
inductive Rejection where
  /-- `op` in 8..15 (R98, R101 (1)). -/
  | reservedOp
  /-- A must-be-zero bit of a command's `arg` is set (R92, R98). -/
  | nonzeroArg
  /-- `v[8] = 0`: the idle word, no event (R94, R99). -/
  | idleEvent
  /-- `sel` in 5..7 (R99). -/
  | reservedSel
  /-- A `data` bit is set on a micro-operation other than RB.PUSH (R99). -/
  | nonzeroData
deriving DecidableEq, Repr

/-- What a decoder answers: the instruction, or the reason there is none. -/
inductive Decoded where
  /-- The word stands for this instruction. -/
  | instr (i : Instr)
  /-- The word stands for none. -/
  | rejected (why : Rejection)
deriving DecidableEq, Repr

/-- Field `op = k[35:32]` (R91). -/
def opField (k : CommandWord) : BitVec 4 := k.extractLsb' 32 4

/-- Field `arg = k[31:0]` (R91). -/
def argField (k : CommandWord) : BitVec 32 := k.extractLsb' 0 32

/-- A K0 command needs `arg = 0` (R92). -/
def decodeNoOperand (arg : BitVec 32) (i : Instr) : Decoded :=
  if arg = 0#32 then .instr i else .rejected .nonzeroArg

/-- Format K, tested in the order of R101. -/
def decodeCommand (k : CommandWord) : Decoded :=
  let op := opField k
  let arg := argField k
  if 8#4 ≤ op then .rejected .reservedOp
  else if op = 0#4 then .instr (.beginCmd arg)
  else if op = 7#4 then
    if arg.extractLsb' 8 24 = 0#24 then .instr (.write (arg.extractLsb' 0 8)) else .rejected .nonzeroArg
  else if op = 1#4 then decodeNoOperand arg .endCmd
  else if op = 2#4 then decodeNoOperand arg .flush
  else if op = 3#4 then decodeNoOperand arg .available
  else if op = 4#4 then decodeNoOperand arg .clear
  else if op = 5#4 then decodeNoOperand arg .peek
  else decodeNoOperand arg .read

/-- Format V (R94): `rxc = v[8]`, `byte = v[7:0]`. -/
def decodeEvent (v : EventWord) : Decoded :=
  if v.extractLsb' 8 1 = 1#1 then .instr (.rxc (v.extractLsb' 0 8)) else .rejected .idleEvent

/-- A micro-operation other than RB.PUSH needs `data = 0` (R95). -/
def decodeNoData (data : Byte) (i : Instr) : Decoded :=
  if data = 0#8 then .instr i else .rejected .nonzeroData

/-- Format U (R95, R99): `sel = u[10:8]`, `data = u[7:0]`. -/
def decodeRing (u : RingWord) : Decoded :=
  let sel : BitVec 3 := u.extractLsb' 8 3
  let data : Byte := u.extractLsb' 0 8
  if sel = 0#3 then .instr (.rbPush data)
  else if sel = 1#3 then decodeNoData data .rbPop
  else if sel = 2#3 then decodeNoData data .rbPeek
  else if sel = 3#3 then decodeNoData data .rbCount
  else if sel = 4#3 then decodeNoData data .rbClear
  else .rejected .reservedSel

/-- The decoder: the format is the port's (R90). -/
def decode : PortWord → Decoded
  | .k w => decodeCommand w
  | .v w => decodeEvent w
  | .u w => decodeRing w

/-- A command word from its two fields (R91). -/
def commandWord (op : BitVec 4) (arg : BitVec 32) : CommandWord := op ++ arg

/-- The word of an instruction on its own port (R93, R94, R95). -/
def encode : Instr → PortWord
  | .beginCmd baud => .k (commandWord 0#4 baud)
  | .endCmd => .k (commandWord 1#4 0#32)
  | .flush => .k (commandWord 2#4 0#32)
  | .available => .k (commandWord 3#4 0#32)
  | .clear => .k (commandWord 4#4 0#32)
  | .peek => .k (commandWord 5#4 0#32)
  | .read => .k (commandWord 6#4 0#32)
  | .write b => .k (commandWord 7#4 (0#24 ++ b))
  | .rxc b => .v (1#1 ++ b)
  | .rbPush b => .u (0#3 ++ b)
  | .rbPop => .u (1#3 ++ 0#8)
  | .rbPeek => .u (2#3 ++ 0#8)
  | .rbCount => .u (3#3 ++ 0#8)
  | .rbClear => .u (4#3 ++ 0#8)

/-- The bits of a word as a number, bit 0 least significant. -/
def PortWord.bits : PortWord → Nat
  | .k w => w.toNat
  | .v w => w.toNat
  | .u w => w.toNat

/-- One row of the opcode table: a word of the port selects it when `(w AND mask) = pattern` (R93 to R95). -/
structure Row where
  /-- The port of the row's format. -/
  port : Port
  /-- The bits the row fixes. -/
  mask : Nat
  /-- Their values. -/
  pattern : Nat
deriving DecidableEq, Repr

/-- The row of each instruction, copied from the maps of R93, R94 and R95. -/
def Instr.row : Instr → Row
  | .beginCmd _ => ⟨.command, 0xF00000000, 0x000000000⟩
  | .endCmd => ⟨.command, 0xFFFFFFFFF, 0x100000000⟩
  | .flush => ⟨.command, 0xFFFFFFFFF, 0x200000000⟩
  | .available => ⟨.command, 0xFFFFFFFFF, 0x300000000⟩
  | .clear => ⟨.command, 0xFFFFFFFFF, 0x400000000⟩
  | .peek => ⟨.command, 0xFFFFFFFFF, 0x500000000⟩
  | .read => ⟨.command, 0xFFFFFFFFF, 0x600000000⟩
  | .write _ => ⟨.command, 0xFFFFFFF00, 0x700000000⟩
  | .rxc _ => ⟨.event, 0x100, 0x100⟩
  | .rbPush _ => ⟨.ring, 0x700, 0x000⟩
  | .rbPop => ⟨.ring, 0x7FF, 0x100⟩
  | .rbPeek => ⟨.ring, 0x7FF, 0x200⟩
  | .rbCount => ⟨.ring, 0x7FF, 0x300⟩
  | .rbClear => ⟨.ring, 0x7FF, 0x400⟩

/-- A word selects a row (R93). -/
def Row.selectedBy (r : Row) (w : PortWord) : Bool :=
  decide (w.port = r.port) && decide (w.bits &&& r.mask = r.pattern)

/-- The port word an opcode-table word of `nbits` bits stands for. The table gives a row its width (36, 9 or 11 bits, in
whole bytes 40, 16, 16) but not its port. Width 9 is the event port, width 11 the ring port, width 36 or 40 the command
port. In a 16-bit container the words 0x101..0x1FF are RXC words (as ring words they are reserved, R99) and every other
one is a ring word; 0x100 alone is legal on both ports and is read as RB.POP, whose row fixes every bit. Log 14. -/
def tableWord (nbits w : Nat) : Option PortWord :=
  if nbits = 9 then
    if w < 512 then some (.v (BitVec.ofNat 9 w)) else none
  else if nbits = 11 then
    if w < 2048 then some (.u (BitVec.ofNat 11 w)) else none
  else if nbits = 16 then
    if 0x100 < w ∧ w < 0x200 then some (.v (BitVec.ofNat 9 w))
    else if w < 2048 then some (.u (BitVec.ofNat 11 w)) else none
  else if nbits = 36 ∨ nbits = 40 then
    if w < 0x1000000000 then some (.k (BitVec.ofNat 36 w)) else none
  else none

/-- The instruction a decoder's answer names. -/
def Decoded.instr? : Decoded → Option Instr
  | .instr i => some i
  | .rejected _ => none

/-- The instruction the decoder reads from an opcode-table word. -/
def decodeTableWord (nbits w : Nat) : Option Instr :=
  match tableWord nbits w with
  | some pw => (decode pw).instr?
  | none => none

end Sys2Proof
end

