-- ==== Sys2Proof/Machine/Operands.lean ====
section
/-! DEFINITION. Operand and result assembly (spec rules R92, R96, R97, R165, R62), and which instruction a command in
progress belongs to (rule R34). -/

namespace Sys2Proof
namespace Machine

/-- `setting[15:8]`, for `UBRRH` (R62, R97). -/
def highByte (s : Setting) : Byte := s.extractLsb' 8 8

/-- `setting[7:0]`, for `UBRRL` (R62, R97). -/
def lowByte (s : Setting) : Byte := s.extractLsb' 0 8

/-- A returned byte is widened by zero extension, never by sign (R97, R165). -/
def widen (b : Byte) : BitVec 16 := b.setWidth 16

/-- The sentinel -1, "no data" (R165). -/
def noData : BitVec 16 := 0xFFFF#16

/-- `value` of PEEK and READ from the micro-operation's `{valid, byte}` (R165). -/
def byteValue (r : RingByte) : BitVec 16 := if r.valid then widen r.byte else noData

/-- `value` of AVAILABLE: the count unchanged (R97). -/
def countValue (n : Nat) : BitVec 16 := BitVec.ofNat 16 n

/-- The response word of format R (R96). -/
def Response.word (r : Response) : ResponseWord := r.fault ++ (BitVec.ofBool r.hasValue ++ r.value)

/-- The instruction a consumer command in progress belongs to (R34). -/
def ConsumerOp.instr : ConsumerOp → Instr
  | .available => .available
  | .clear => .clear
  | .peek => .peek
  | .read => .read

/-- Its command number (R93). -/
def ConsumerOp.number : ConsumerOp → BitVec 4
  | .available => 3#4
  | .clear => 4#4
  | .peek => 5#4
  | .read => 6#4

/-- Its command word; a K0 command has `arg = 0` (R92). -/
def ConsumerOp.word (op : ConsumerOp) : CommandWord := commandWord op.number 0#32

/-- AVAILABLE, PEEK and READ need ACTIVE, CLEAR does not (R160, R166). -/
def ConsumerOp.needsActive : ConsumerOp → Bool
  | .available => true
  | .clear => false
  | .peek => true
  | .read => true

/-- The command word of WRITE `b` (R92, R93). -/
def writeWord (b : Byte) : CommandWord := commandWord 7#4 (0#24 ++ b)

end Machine
end Sys2Proof
end

