-- ==== Sys2Proof/Machine/Ops.lean ====
section
/-! DEFINITION. The named operations: the storage, the five peripheral registers, the ring-buffer operations, responses,
raising a fault (spec rule R204) and coming out of reset (rules R42, R231), and how an operation on one channel acts on
the whole state. -/

namespace Sys2Proof
namespace Machine

/-! ### The storage `ST` (R21, R61) -/

/-- The byte last written to slot `a` since reset; none where nothing has written it, and the reset's draw stands there
(log 7). -/
def Memory.read (st : List Host.Cell) (a : Nat) : Option Byte :=
  match st with
  | [] => none
  | (x, v) :: rest => if a = x then some v else Memory.read rest a

/-- `MemWrite(a, 1, v)` (R8); the list stays strictly rising. -/
def Memory.write (st : List Host.Cell) (a : Nat) (v : Byte) : List Host.Cell :=
  match st with
  | [] => [(a, v)]
  | (x, w) :: rest =>
    if a < x then (a, v) :: (x, w) :: rest
    else if a = x then (a, v) :: rest
    else (x, w) :: Memory.write rest a v

/-- The canonical form: strictly rising indices, all of them below the capacity (R60: legal addresses `0..C-1`). An unlisted
slot reads as a free value, which no entry can be compared with, so an entry says that its slot was written (log 7). -/
abbrev Memory.wf (cap : Nat) (st : List Host.Cell) : Prop :=
  (st.map Prod.fst).Pairwise (· < ·) ∧ ∀ a ∈ st.map Prod.fst, a < cap

/-- `MemRead(a, 1)` (R8), the byte of slot `a`: what was last written there, and before any write the byte the reset drew
(R21, R42, D27). -/
def Channel.slot (ch : Channel) (a : Nat) : Byte :=
  match Memory.read ch.st a with
  | some v => v
  | none => Config.slotDraw ch.stDraw.chan ch.stDraw.number a

/-! ### The peripheral registers (R26 to R31, R66) -/

/-- The five opaque handles of a channel, `H_UBRRH`, `H_UBRRL`, `H_STATUS`, `H_CONTROL`, `H_DATA` (R4, R67). Log 16. -/
inductive Handle where
  | ubrrh
  | ubrrl
  | status
  | control
  | data
deriving DecidableEq, Repr

/-- `r OR (1 << b)` (R8). -/
def withBitSet (r : Byte) (b : Fin 8) : Byte := r ||| (1#8 <<< b.val)

/-- `r` with bit `b` changed to 0 (R8). -/
def withBitClear (r : Byte) (b : Fin 8) : Byte := r &&& ~~~(1#8 <<< b.val)

/-- `RegRead(h)`; the data handle reads `RXDATA`, and no state of the block changes (R31, R66). -/
def regRead (h : Handle) (ch : Channel) : Byte :=
  match h with
  | .ubrrh => ch.ubrrh
  | .ubrrl => ch.ubrrl
  | .status => ch.status
  | .control => ch.control
  | .data => ch.rxdata

/-- `RegWrite(h, v)`; a write of the data handle sets `TXDATA` and clears `STATUS[B_UDRE]` in the same step (R31, R66). -/
def regWrite (h : Handle) (v : Byte) (ch : Channel) : Channel :=
  match h with
  | .ubrrh => { ch with ubrrh := v }
  | .ubrrl => { ch with ubrrl := v }
  | .status => { ch with status := v }
  | .control => { ch with control := v }
  | .data => { ch with txdata := v, status := withBitClear ch.status ch.params.bUdre }

/-- `SetBit(h, b)` (R8, D19). -/
def regSetBit (h : Handle) (b : Fin 8) (ch : Channel) : Channel := regWrite h (withBitSet (regRead h ch) b) ch

/-- `ClrBit(h, b)` (R8, D19). -/
def regClrBit (h : Handle) (b : Fin 8) (ch : Channel) : Channel := regWrite h (withBitClear (regRead h ch) b) ch

/-! ### The ring-buffer operations (R120 to R125) -/

/-- RB.PUSH (R121): the byte is stored before the index moves; on a full buffer nothing changes (R128). -/
def ringPush (b : Byte) (ch : Channel) : Channel :=
  if ch.full then ch
  else { ch with st := Memory.write ch.st ch.head b, head := indexNext ch.params.cap ch.head }

/-- RB.PEEK with the sampled head `hs` (R123). -/
def ringPeek (hs : Nat) (ch : Channel) : RingByte :=
  if emptyOf hs ch.tail then { valid := false, byte := 0#8 } else { valid := true, byte := ch.slot ch.tail }

/-- RB.POP with the sampled head `hs` (R122): what RB.PEEK returns, read before `TAIL` moves, and the channel after. -/
def ringPop (hs : Nat) (ch : Channel) : RingByte × Channel :=
  let r := ringPeek hs ch
  (r, if r.valid then { ch with tail := indexNext ch.params.cap ch.tail } else ch)

/-- RB.COUNT with the sampled head `hs` (R124). -/
def ringCount (hs : Nat) (ch : Channel) : Nat := countOf ch.params.cap hs ch.tail

/-- RB.CLEAR with the sampled head `hs` (R125). -/
def ringClear (hs : Nat) (ch : Channel) : Channel := { ch with tail := hs }

/-- The side input `hs` of a stand-alone consumer micro-operation: the sequencer's latch `HS` while it holds one (R95),
else one load of `HEAD` (R130). Log 10. -/
def latchedHead (ch : Channel) : Nat :=
  match ch.fg with
  | .sampled _ hs => hs
  | _ => ch.head

/-! ### Responses and output (R8, R37, R38) -/

/-- `respond(v)`. -/
def respondValue (v : BitVec 16) (ch : Channel) : Channel :=
  { ch with rsp := { fault := 0#2, hasValue := true, value := v } }

/-- `respond()`. -/
def respondNone (ch : Channel) : Channel :=
  { ch with rsp := { fault := 0#2, hasValue := false, value := 0#16 } }

/-- `emit tx(b)` (R38). -/
def emitTx (b : Byte) (ch : Channel) : Channel := { ch with txlog := ch.txlog ++ [b] }

/-- `FG <- state`. -/
def setFG (f : FG) (ch : Channel) : Channel := { ch with fg := f }

/-! ### Faults and reset (R200, R204, R205, R230, R231) -/

/-- Code of PRECONDITION (R200, R201). -/
def codePrecondition : BitVec 2 := 1#2

/-- Code of ILLEGAL_COMMAND (R200, R202). -/
def codeIllegalCommand : BitVec 2 := 2#2

/-- Fault entry, `raise <Fault>(k)` (R204): these four writes and nothing else. -/
def raiseFault (code : BitVec 2) (k : CommandWord) (ch : Channel) : Channel :=
  { ch with fault := code, fcmd := k, rsp := { fault := code, hasValue := false, value := 0#16 }, fg := .halted }

/-- The only way out of a fault (R205): the channel in the state of R42, the unspecified registers holding the draw `d` and
the slots of `ST` the draw `k`. The parameters stay, and so does the model's own draw counter. -/
def resetChannel (d : ResetDraws) (k : DrawKey) (ch : Channel) : Channel :=
  { params := ch.params, st := [], stDraw := k, head := 0, tail := 0, ubrrh := d.ubrrh, ubrrl := d.ubrrl, status := d.status,
    control :=
      withBitClear (withBitClear (withBitClear d.control ch.params.bRxen) ch.params.bTxen) ch.params.bRxcie,
    rxdata := d.rxdata, txdata := d.txdata, fg := .idle, fault := 0#2, fcmd := d.fcmd,
    rsp := { fault := 0#2, hasValue := false, value := 0#16 }, txlog := [], draws := ch.draws }

/-- The model's own counter of free values (log 8). -/
def countDraw (ch : Channel) : Channel := { ch with draws := ch.draws + 1 }

/-! ### From a channel to the whole state (R43, R216) -/

/-- The channel `c`. -/
def State.chan (s : State) (c : Chan) : Channel :=
  match c with
  | .ch0 => s.ch0
  | .ch1 => s.ch1

/-- Replace channel `c`; nothing of the other one changes (R43). -/
def State.setChan (s : State) (c : Chan) (ch : Channel) : State :=
  match c with
  | .ch0 => { s with ch0 := ch }
  | .ch1 => { s with ch1 := ch }

/-- The channel the present step belongs to. -/
def State.cur (s : State) : Channel := s.chan s.sel

/-- Replace the channel the present step belongs to. -/
def State.setCur (s : State) (ch : Channel) : State := s.setChan s.sel ch

/-- The present step belongs to channel `c`. -/
def State.select (s : State) (c : Chan) : State := { s with sel := c }

/-- The result lines of the internal ring-buffer port (R95, log 9). -/
def State.withRingOut (s : State) (r : RingResult) : State := { s with ringOut := r }

/-- A step that changes one channel and nothing else. -/
def stepChannel (f : Channel → Channel) (s : State) : Host.Outcome State Fault Refusal := .next (s.setCur (f s.cur))

/-- R10 (c), a step that does not exist: nothing changes (log 3). -/
def noStep (s : State) : Host.Outcome State Fault Refusal := .next s

/-! ### The shapes of the command steps (R140, R160) -/

/-- A command of one atomic ACCEPT step (R140): accepted only in IDLE (R91). -/
def acceptInOneStep (f : Channel → Channel) (s : State) : Host.Outcome State Fault Refusal :=
  match s.cur.fg with
  | .idle => stepChannel f s
  | .sampled _ _ => noStep s
  | .poll _ => noStep s
  | .halted => noStep s

/-- ACCEPT of a consumer command (R160): the precondition, then the single load of `HEAD` (SAMPLE, R120). -/
def acceptConsumer (op : ConsumerOp) (ch : Channel) : Channel :=
  if op.needsActive && !ch.active then raiseFault codePrecondition op.word ch
  else setFG (.sampled op ch.head) ch

/-- A consumer command's two steps (R160): ACCEPT in IDLE, COMMIT when FG holds this command. `commit` is the
micro-operation with the response. -/
def consumerCommand (op : ConsumerOp) (commit : Nat → Channel → Channel) (s : State) :
    Host.Outcome State Fault Refusal :=
  match s.cur.fg with
  | .idle => stepChannel (acceptConsumer op) s
  | .sampled op' hs =>
    if op' = op then stepChannel (fun ch => setFG .idle (commit hs ch)) s else noStep s
  | .poll _ => noStep s
  | .halted => noStep s

end Machine
end Sys2Proof
end

