-- ==== Sys2Proof/Machine/Configure.lean ====
section
/-! DEFINITION. The configuration commands BEGIN, END and FLUSH (spec rules R140 to R150) and the baud-rate divisor
calculator (rules R142 to R146). -/

namespace Sys2Proof
namespace Machine

/-- `SETMAX`, "the register's 12-bit range (4095)" (R4). -/
def setMax : Setting := 4095#16

/-- `FIXED_BAUD` (R4, R144). -/
def fixedBaud : Baud := 57600#32

/-- `trunc_16((((F_CLK / d) / baud) -_32 1) / 2)`, all of it unsigned 32-bit arithmetic (R142, R143; outside `WELL` it
rests on decision D17, log 13). -/
def divisor (d fclk : BitVec 32) (baud : Baud) : Setting := ((fclk / d / baud - 1#32) / 2#32).setWidth 16

/-- `DIV2X`, the double-speed formula (R142). -/
def div2x (fclk : BitVec 32) (baud : Baud) : Setting := divisor 4#32 fclk baud

/-- `DIV1X`, the normal-speed formula (R142). -/
def div1x (fclk : BitVec 32) (baud : Baud) : Setting := divisor 8#32 fclk baud

/-- BAUDSEL (R142): the double-speed flag and the setting; `draw` is what `baud = 0` yields (R146). -/
def baudSel (draw : Bool × Setting) (fclk : BitVec 32) (baud : Baud) : Bool × Setting :=
  if baud = 0#32 then draw
  else if baud = fixedBaud then (false, div1x fclk baud)
  else if setMax < div2x fclk baud then (false, div1x fclk baud)
  else (true, div2x fclk baud)

/-- The free values of `BEGIN 0` on channel `c` (R146, log 6). -/
def zeroBaudDraw (c : Chan) (ch : Channel) : Bool × Setting :=
  (Config.zeroBaudFlag c ch.draws, Config.zeroBaudSetting c ch.draws)

/-- BEGIN's register writes for a flag and a setting, in the order of R147. -/
def programChannel (u2x : Bool) (setting : Setting) (ch : Channel) : Channel :=
  let ch := regWrite .ubrrh (highByte setting) ch
  let ch := regWrite .ubrrl (lowByte setting) ch
  let ch := if u2x then regSetBit .status ch.params.bU2x ch else regClrBit .status ch.params.bU2x ch
  let ch := regSetBit .control ch.params.bRxen ch
  let ch := regSetBit .control ch.params.bTxen ch
  regSetBit .control ch.params.bRxcie ch

/-- ACCEPT of BEGIN (R141); `baud = 0` uses up one draw. -/
def acceptBegin (c : Chan) (baud : Baud) (ch : Channel) : Channel :=
  let sel := baudSel (zeroBaudDraw c ch) ch.params.fclk baud
  let ch := programChannel sel.1 sel.2 ch
  let ch := if baud = 0#32 then countDraw ch else ch
  setFG .idle (respondNone ch)

/-- BEGIN (R141). -/
def execBegin (baud : Baud) (s : State) : Host.Outcome State Fault Refusal :=
  acceptInOneStep (acceptBegin s.sel baud) s

/-- The three enable bits cleared, in the order of R148. -/
def disableChannel (ch : Channel) : Channel :=
  let ch := regClrBit .control ch.params.bRxen ch
  let ch := regClrBit .control ch.params.bTxen ch
  regClrBit .control ch.params.bRxcie ch

/-- ACCEPT of END (R148): FLUSH does nothing, the enables are cleared, then SAMPLE and RB.CLEAR with no window (C7). -/
def acceptEnd (ch : Channel) : Channel :=
  let ch := disableChannel ch
  let ch := ringClear ch.head ch
  setFG .idle (respondNone ch)

/-- END (R148). -/
def execEnd (s : State) : Host.Outcome State Fault Refusal := acceptInOneStep acceptEnd s

/-- ACCEPT of FLUSH (R149): "a no-op placeholder". -/
def acceptFlush (ch : Channel) : Channel := setFG .idle (respondNone ch)

/-- FLUSH (R149). -/
def execFlush (s : State) : Host.Outcome State Fault Refusal := acceptInOneStep acceptFlush s

end Machine
end Sys2Proof
end

