-- ==== Sys2Proof/Machine/Receive.lean ====
section
/-! DEFINITION. The consumer commands AVAILABLE, CLEAR, PEEK and READ (spec rules R160 to R166): each meaning is the
command's ACCEPT step when FG is IDLE and its COMMIT step when FG holds the command's sample (log 12). -/

namespace Sys2Proof
namespace Machine

/-- COMMIT of AVAILABLE (R161). -/
def commitAvailable (hs : Nat) (ch : Channel) : Channel := respondValue (countValue (ringCount hs ch)) ch

/-- AVAILABLE (R161). -/
def execAvailable (s : State) : Host.Outcome State Fault Refusal := consumerCommand .available commitAvailable s

/-- COMMIT of CLEAR (R162). -/
def commitClear (hs : Nat) (ch : Channel) : Channel := respondNone (ringClear hs ch)

/-- CLEAR (R162). -/
def execClear (s : State) : Host.Outcome State Fault Refusal := consumerCommand .clear commitClear s

/-- COMMIT of PEEK (R163). -/
def commitPeek (hs : Nat) (ch : Channel) : Channel := respondValue (byteValue (ringPeek hs ch)) ch

/-- PEEK (R163). -/
def execPeek (s : State) : Host.Outcome State Fault Refusal := consumerCommand .peek commitPeek s

/-- COMMIT of READ (R164). -/
def commitRead (hs : Nat) (ch : Channel) : Channel :=
  let p := ringPop hs ch
  respondValue (byteValue p.1) p.2

/-- READ (R164). -/
def execRead (s : State) : Host.Outcome State Fault Refusal := consumerCommand .read commitRead s

end Machine
end Sys2Proof
end

