-- ==== Sys2Proof/Machine/ReceiveEvent.lean ====
section
/-! DEFINITION. The receive event RXC (spec rules R190 to R194): delivery and handler in one atomic step. -/

namespace Sys2Proof
namespace Machine

/-- The peripheral puts the byte in `RXDATA`, the handler reads the data register and pushes what it read (R190). -/
def receiveByte (b : Byte) (ch : Channel) : Channel :=
  let ch := { ch with rxdata := b }
  ringPush (regRead .data ch) ch

/-- RXC (R190). While the event is not enabled the step does not exist and the byte never reaches the block (R191). -/
def execRxc (b : Byte) (s : State) : Host.Outcome State Fault Refusal :=
  if s.cur.rxEnabled then stepChannel (receiveByte b) s else noStep s

end Machine
end Sys2Proof
end

