-- ==== Sys2Proof/Machine/RingBuffer.lean ====
section
/-! DEFINITION. The five micro-operations on the internal ring-buffer port (spec rules R121 to R125), each one step on the
selected channel's ring buffer, the result on the port's result lines (rule R95). Log 10. -/

namespace Sys2Proof
namespace Machine

/-- RB.PUSH (R121). -/
def execRbPush (data : Byte) (s : State) : Host.Outcome State Fault Refusal :=
  .next ((s.setCur (ringPush data s.cur)).withRingOut .nothing)

/-- RB.POP (R122). -/
def execRbPop (s : State) : Host.Outcome State Fault Refusal :=
  let p := ringPop (latchedHead s.cur) s.cur
  .next ((s.setCur p.2).withRingOut (.byte p.1))

/-- RB.PEEK (R123). -/
def execRbPeek (s : State) : Host.Outcome State Fault Refusal :=
  .next (s.withRingOut (.byte (ringPeek (latchedHead s.cur) s.cur)))

/-- RB.COUNT (R124). -/
def execRbCount (s : State) : Host.Outcome State Fault Refusal :=
  .next (s.withRingOut (.count (ringCount (latchedHead s.cur) s.cur)))

/-- RB.CLEAR (R125). -/
def execRbClear (s : State) : Host.Outcome State Fault Refusal :=
  .next ((s.setCur (ringClear (latchedHead s.cur) s.cur)).withRingOut .nothing)

end Machine
end Sys2Proof
end

