-- ==== Sys2Proof/Machine/Transmit.lean ====
section
/-! DEFINITION. The transmit command WRITE (spec rules R180 to R186): its ACCEPT step when FG is IDLE, its POLL step when
FG holds the byte (log 12), and the environment step TXRDY (rule R183). -/

namespace Sys2Proof
namespace Machine

/-- ACCEPT of WRITE (R180). -/
def acceptWrite (b : Byte) (ch : Channel) : Channel :=
  if ch.active then setFG (.poll b) ch else raiseFault codePrecondition (writeWord b) ch

/-- One POLL step (R180, R181): the gate opens only on `STATUS[B_UDRE] = 1`, read in this very step (R182). -/
def pollStep (b : Byte) (ch : Channel) : Channel :=
  if testBit (regRead .status ch) ch.params.bUdre then
    setFG .idle (respondValue 1#16 (emitTx b (regWrite .data b ch)))
  else setFG (.poll b) ch

/-- WRITE (R180). -/
def execWrite (b : Byte) (s : State) : Host.Outcome State Fault Refusal :=
  match s.cur.fg with
  | .idle => stepChannel (acceptWrite b) s
  | .sampled _ _ => noStep s
  | .poll b' => if b' = b then stepChannel (pollStep b) s else noStep s
  | .halted => noStep s

/-- TXRDY (R183): `STATUS[B_UDRE] <- 1` and nothing else. -/
def txReady (ch : Channel) : Channel := { ch with status := withBitSet ch.status ch.params.bUdre }

end Machine
end Sys2Proof
end

