-- ==== Sys2Proof/Machine/Dispatch.lean ====
section
/-! DEFINITION. One arm per instruction: the next step of that instruction on the selected channel. -/

namespace Sys2Proof
namespace Machine

def exec (i : Instr) (s : State) : Host.Outcome State Fault Refusal :=
  match i with
  | .beginCmd baud => Sys2Proof.Machine.execBegin baud s
  | .endCmd => Sys2Proof.Machine.execEnd s
  | .flush => Sys2Proof.Machine.execFlush s
  | .available => Sys2Proof.Machine.execAvailable s
  | .clear => Sys2Proof.Machine.execClear s
  | .peek => Sys2Proof.Machine.execPeek s
  | .read => Sys2Proof.Machine.execRead s
  | .write b => Sys2Proof.Machine.execWrite b s
  | .rxc b => Sys2Proof.Machine.execRxc b s
  | .rbPush b => Sys2Proof.Machine.execRbPush b s
  | .rbPop => Sys2Proof.Machine.execRbPop s
  | .rbPeek => Sys2Proof.Machine.execRbPeek s
  | .rbCount => Sys2Proof.Machine.execRbCount s
  | .rbClear => Sys2Proof.Machine.execRbClear s

end Machine
end Sys2Proof
end

