-- ==== Sys2Proof/Machine/Serve.lean ====
section
/-! DEFINITION. What one stimulus does (spec rules R9, R10, R91, R103): which agent moves, whether its port takes the
word, and the instruction it runs. -/

namespace Sys2Proof
namespace Machine

/-- The command port takes a word only while `FG = IDLE` (R91). -/
def commandPortOpen (ch : Channel) : Bool := decide (ch.fg = .idle)

/-- HOST presents `k`: the ACCEPT step. Decoding comes first (R101); an illegal word raises ILLEGAL_COMMAND before any
precondition is looked at (R98, R208). -/
def serveCommand (c : Chan) (k : CommandWord) (s : State) : Host.Outcome State Fault Refusal :=
  let s := s.select c
  if commandPortOpen s.cur then
    match decode (.k k) with
    | .instr i => exec i s
    | .rejected _ => stepChannel (raiseFault codeIllegalCommand k) s
  else noStep s

/-- FGSEQ moves: COMMIT of the command in progress, or one POLL step (R34); in IDLE and HALTED it has no step. -/
def serveAdvance (c : Chan) (s : State) : Host.Outcome State Fault Refusal :=
  let s := s.select c
  match s.cur.fg with
  | .idle => noStep s
  | .sampled op _ => exec op.instr s
  | .poll b => exec (.write b) s
  | .halted => noStep s

/-- PERIPH shows `v` on the event port; the idle word causes nothing (R94, R99). -/
def serveEvent (c : Chan) (v : EventWord) (s : State) : Host.Outcome State Fault Refusal :=
  let s := s.select c
  match decode (.v v) with
  | .instr i => exec i s
  | .rejected _ => noStep s

/-- PERIPH takes TXRDY (R183). -/
def serveTxrdy (c : Chan) (s : State) : Host.Outcome State Fault Refusal := stepChannel txReady (s.select c)

/-- RESET of channel `c`: its unspecified registers at its next draw, the slots of `ST` at a draw no earlier one shares
(R42, log 5, log 7). -/
def resetOne (c : Chan) (ch : Channel) : Channel :=
  countDraw (resetChannel (Config.resetDraws c ch.draws) { chan := c, number := ch.draws + 1 } ch)

/-- RESET, in every state, both channels at once (R230, R231). The result lines of the bench fall back too (log 9). -/
def serveReset (s : State) : Host.Outcome State Fault Refusal :=
  .next { s with ch0 := resetOne .ch0 s.ch0, ch1 := resetOne .ch1 s.ch1, ringOut := .nothing }

/-- A bench drives the internal ring-buffer port (R95); a reserved word is refused (R99). -/
def serveRingPort (c : Chan) (u : RingWord) (s : State) : Host.Outcome State Fault Refusal :=
  let s := s.select c
  match decode (.u u) with
  | .instr i => exec i s
  | .rejected _ => .refused (.reservedMicroOp u)

/-- One stimulus. -/
def serve (x : Stimulus) (s : State) : Host.Outcome State Fault Refusal :=
  match x with
  | .command c k => serveCommand c k s
  | .advance c => serveAdvance c s
  | .event c v => serveEvent c v s
  | .txrdy c => serveTxrdy c s
  | .reset => serveReset s
  | .ringPort c u => serveRingPort c u s

/-- Take the next stimulus from the inbox and serve it; with none left nothing moves (log 2, log 3). -/
def takeTurn (s : State) : Host.Outcome State Fault Refusal :=
  match s.inbox with
  | [] => noStep s
  | x :: rest => serve x { s with inbox := rest }

/-- Parameters that break R5: "the model is not defined for them" (U19, log 15). -/
def parametersInRange (s : State) : Bool := s.ch0.params.wellFormed && s.ch1.params.wellFormed

/-- The stimulus that shows a port word to channel `c`. -/
def portStimulus (c : Chan) (w : PortWord) : Stimulus :=
  match w with
  | .k w => .command c w
  | .v w => .event c w
  | .u w => .ringPort c w

/-- The inbox with an opcode-table word shown next, on channel 0 (log 14). -/
def inboxWithTableWord (nbits w : Nat) (inbox : List Stimulus) : List Stimulus :=
  match tableWord nbits w with
  | some pw => portStimulus .ch0 pw :: inbox
  | none => inbox

end Machine
end Sys2Proof
end

