-- ==== Sys2Proof/Machine/Step.lean ====
section
/-! DEFINITION. One step of the hardware: the next stimulus is taken and served (spec rules R9, R10). -/

namespace Sys2Proof
namespace Machine

/-- One step (R9, R10). It answers a next state, which the spec's own faults are too (R204), or a refusal of U3 or U19. -/
def step (s : State) : Host.Outcome State Fault Refusal :=
  if parametersInRange s then takeTurn s else .refused .parametersOutOfRange

/-- `s` with the opcode-table word `w` presented as the next stimulus, on its own port of channel 0. This stands for the
environment's move: the block has no program memory and fetches nothing (R40). Log 14. -/
def State.withFetchWord (s : State) (nbits w : Nat) : State := { s with inbox := inboxWithTableWord nbits w s.inbox }

end Machine
end Sys2Proof
end

