-- ==== Sys2Proof/Safety.lean ====
section
/-! DEFINITION. What claims speak of: the unread bytes (spec rule R25), the invariants of rule R250, who a stimulus
addresses, executions (rules R9, R10), the named premises (rule R248) and the end of a run (rule R249). -/

namespace Sys2Proof
namespace Machine

/-! ### The unread bytes (R25, R127) -/

/-- The occupied slots' contents, oldest first: `ST[TAIL], ST[(TAIL + 1) mod C], ...`, `COUNT` of them (R25). -/
def Channel.unread (ch : Channel) : List Byte :=
  (List.range ch.count).map fun i => ch.slot ((ch.tail + i) % ch.params.cap)

/-- What one step does to the queue of unread bytes. -/
inductive QueueEffect where
  /-- Nothing. -/
  | keep
  /-- Append a byte, unless `C - 1` are unread (drop-newest, R128). -/
  | push (b : Byte)
  /-- Remove the oldest. -/
  | pop
  /-- Remove the `n` oldest. -/
  | drop (n : Nat)
  /-- Remove all. -/
  | empty
deriving DecidableEq, Repr

/-- The effect on a first-in first-out queue that holds at most `C - 1` bytes (R127, R129). -/
def QueueEffect.apply (cap : Nat) (q : List Byte) : QueueEffect → List Byte
  | .keep => q
  | .push b => if q.length < cap - 1 then q ++ [b] else q
  | .pop => q.tail
  | .drop n => q.drop n
  | .empty => []

/-- RB.POP with `hs`: the oldest byte, unless the sample found the buffer empty (R122). -/
def popEffect (hs : Nat) (ch : Channel) : QueueEffect := if hs = ch.tail then .keep else .pop

/-- RB.CLEAR with `hs`: the bytes that were there at the sample (R125, R240). -/
def clearEffect (hs : Nat) (ch : Channel) : QueueEffect := .drop (countOf ch.params.cap hs ch.tail)

/-- What an FGSEQ step of a channel does to its queue: only the COMMIT of READ and of CLEAR touch it. -/
def advanceEffect (ch : Channel) : QueueEffect :=
  match ch.fg with
  | .sampled .read hs => popEffect hs ch
  | .sampled .clear hs => clearEffect hs ch
  | _ => .keep

/-- What an accepted command word does to the queue: only END empties it in its own step (R148). -/
def commandEffect (k : CommandWord) (ch : Channel) : QueueEffect :=
  match ch.fg, decodeCommand k with
  | .idle, .instr .endCmd => .empty
  | _, _ => .keep

/-- What an event word does to the queue (R190, R191). -/
def eventEffect (v : EventWord) (ch : Channel) : QueueEffect :=
  match decodeEvent v with
  | .instr (.rxc b) => if ch.rxEnabled then .push b else .keep
  | _ => .keep

/-- What a word on the internal ring-buffer port does to the queue (R121 to R125). -/
def ringPortEffect (u : RingWord) (ch : Channel) : QueueEffect :=
  match decodeRing u with
  | .instr (.rbPush b) => .push b
  | .instr .rbPop => popEffect (latchedHead ch) ch
  | .instr .rbClear => clearEffect (latchedHead ch) ch
  | _ => .keep

/-- What a stimulus does to the queue of channel `c`. -/
def queueEffect (c : Chan) (x : Stimulus) (ch : Channel) : QueueEffect :=
  match x with
  | .command c' k => if c' = c then commandEffect k ch else .keep
  | .advance c' => if c' = c then advanceEffect ch else .keep
  | .event c' v => if c' = c then eventEffect v ch else .keep
  | .txrdy _ => .keep
  | .reset => .empty
  | .ringPort c' u => if c' = c then ringPortEffect u ch else .keep

/-! ### Invariants (R250) -/

/-- The ring-buffer invariant: R250 (a) and (b), the canonical storage (R60), and every occupied slot written since
reset (R25). Every step keeps it, those of the bench included. -/
structure Channel.RingOk (ch : Channel) : Prop where
  /-- The parameters obey R5. -/
  params : ch.params.wellFormed = true
  /-- `HEAD < C`. -/
  head : ch.head < ch.params.cap
  /-- `TAIL < C`. -/
  tail : ch.tail < ch.params.cap
  /-- The storage is canonical and inside `0..C-1`. -/
  storage : Memory.wf ch.params.cap ch.st
  /-- Every occupied slot was written. -/
  written : ∀ i < ch.count, (Memory.read ch.st ((ch.tail + i) % ch.params.cap)).isSome = true
  /-- While `FG = SAMPLED(op, hs)`: `hs < C` and `COUNT(hs, TAIL) <= COUNT(HEAD, TAIL)`. -/
  sample : ∀ op hs, ch.fg = .sampled op hs →
    hs < ch.params.cap ∧ countOf ch.params.cap hs ch.tail ≤ ch.count

/-- The invariant of the wired channel: R33 and R250 (c), (d), (e), and the fault record (R36, R96, R204). Every step of
the wired hardware keeps it. -/
structure Channel.WiredOk (ch : Channel) : Prop where
  /-- The three enable bits are equal. -/
  enables : testBit ch.control ch.params.bTxen = testBit ch.control ch.params.bRxen ∧
    testBit ch.control ch.params.bRxcie = testBit ch.control ch.params.bRxen
  /-- An inactive channel is empty. -/
  inactive : ch.active = false → ch.head = ch.tail
  /-- A WRITE in progress, or a consumer command other than CLEAR, runs on an active channel. -/
  polling : ∀ b, ch.fg = .poll b → ch.active = true
  /-- As `polling`, for a command that has sampled. -/
  sampling : ∀ op hs, ch.fg = .sampled op hs → op.needsActive = true → ch.active = true
  /-- HALTED means a fault is recorded, and only HALTED. -/
  halted : ch.fg = .halted ↔ ch.fault ≠ 0#2
  /-- Code 3 is never produced. -/
  code : ch.fault ≠ 3#2
  /-- `RSP` shows the recorded fault. -/
  response : ch.rsp.fault = ch.fault
  /-- `value` is 0 when `has_value` is 0. -/
  noValue : ch.rsp.hasValue = false → ch.rsp.value = 0#16

/-- Both channels' ring buffers are in order. -/
structure State.RingOk (s : State) : Prop where
  /-- Channel 0. -/
  ch0 : s.ch0.RingOk
  /-- Channel 1. -/
  ch1 : s.ch1.RingOk

/-- Both channels are in order as ring buffers and as wired channels. -/
structure State.Ok (s : State) : Prop where
  /-- The ring buffers. -/
  ring : s.RingOk
  /-- Channel 0. -/
  wired0 : s.ch0.WiredOk
  /-- Channel 1. -/
  wired1 : s.ch1.WiredOk

/-! ### Stimuli -/

/-- A move of the wired hardware: anything but the bench on the internal port (R70, R213). -/
def Stimulus.wired : Stimulus → Bool
  | .ringPort _ _ => false
  | .command _ _ => true
  | .advance _ => true
  | .event _ _ => true
  | .txrdy _ => true
  | .reset => true

/-- The stimulus reaches channel `c`; RESET reaches both (R230). -/
def Stimulus.reaches (c : Chan) : Stimulus → Bool
  | .command c' _ => decide (c' = c)
  | .advance c' => decide (c' = c)
  | .event c' _ => decide (c' = c)
  | .txrdy c' => decide (c' = c)
  | .reset => true
  | .ringPort c' _ => decide (c' = c)

/-- A word the internal ring-buffer port refuses (R99). -/
def Stimulus.reserved : Stimulus → Bool
  | .ringPort _ u => decide ((decodeRing u).instr? = none)
  | .command _ _ => false
  | .advance _ => false
  | .event _ _ => false
  | .txrdy _ => false
  | .reset => false

/-! ### Executions (R9, R10)

An execution is a sequence of states `e` and of turns `x`, one agent's turn from each state to the next. It is endless: a
finite run is its beginning, and a turn whose step does not exist (R10 c) changes no channel (log 3). -/

/-- `e` and `x` are an execution: step `n` is the turn `x n` taken in `e n`. -/
def Executes (e : Nat → State) (x : Nat → Stimulus) : Prop :=
  ∀ n, step { e n with inbox := [x n] } = .next (e (n + 1))

/-- The byte an event word shown to channel `c` carries. -/
def Stimulus.rxByte (c : Chan) : Stimulus → Option Byte
  | .event c' v =>
    if c' = c then
      match decodeEvent v with
      | .instr (.rxc b) => some b
      | _ => none
    else none
  | _ => none

/-- The byte of the RXC event of channel `c` that the turn `x` in `s` is; none when it is no RXC event, because it shows no
byte to the channel or because the event is not enabled (R191). -/
def rxEvent (c : Chan) (s : State) (x : Stimulus) : Option Byte := if (s.chan c).rxEnabled then x.rxByte c else none

/-- The bytes of the RXC events of channel `c` in the steps `i` to `j - 1`, in order. -/
def rxEvents (c : Chan) (e : Nat → State) (x : Nat → Stimulus) (i j : Nat) : List Byte :=
  (List.range' i (j - i)).filterMap fun n => rxEvent c (e n) (x n)

/-- The command word the turn `x` makes a command port accept in `s`, with its channel; a port accepts in IDLE only (R91). -/
def acceptedWord (s : State) (x : Stimulus) : Option (Chan × CommandWord) :=
  match x with
  | .command c k => if commandPortOpen (s.chan c) then some (c, k) else none
  | _ => none

/-- The command words accepted in the first `n` steps, in order. -/
def accepted (e : Nat → State) (x : Nat → Stimulus) (n : Nat) : List (Chan × CommandWord) :=
  (List.range n).filterMap fun i => acceptedWord (e i) (x i)

/-! ### Premises (R248) -/

/-- `NoFault`: `FAULT = 0` throughout, on both channels. -/
def NoFault (e : Nat → State) : Prop := ∀ n c, ((e n).chan c).fault = 0#2

/-- `CleanEntry`, of the state a run starts from: both channels are in the reset state of R42, whatever the draws. -/
def CleanEntry (s : State) : Prop :=
  (∃ d k ch, s.ch0 = resetChannel d k ch) ∧ ∃ d k ch, s.ch1 = resetChannel d k ch

/-- `TxDrains` on channel `c`: whenever `FG = POLL(b)`, the peripheral eventually takes TXRDY. -/
def TxDrains (c : Chan) (e : Nat → State) (x : Nat → Stimulus) : Prop :=
  ∀ n b, ((e n).chan c).fg = .poll b → ∃ m, n ≤ m ∧ x m = .txrdy c

/-- `RxTrace(bs)` on channel `c`: the RXC events of the steps `i` to `j - 1` deliver exactly `bs`, in order. -/
def RxTrace (c : Chan) (bs : List Byte) (e : Nat → State) (x : Nat → Stimulus) (i j : Nat) : Prop :=
  rxEvents c e x i j = bs

/-- `NoRxIn(window)` on channel `c`: no RXC event falls in the steps `i` to `j - 1`. -/
def NoRxIn (c : Chan) (e : Nat → State) (x : Nat → Stimulus) (i j : Nat) : Prop := rxEvents c e x i j = []

/-! ### The end of a run (R249) -/

/-- No command is in progress on the channel and no fault is recorded. -/
def Channel.atRest (ch : Channel) : Bool := decide (ch.fg = .idle) && decide (ch.fault = 0#2)

/-- HALTED: a run that ended so failed. -/
def Channel.endedFailed (ch : Channel) : Bool := decide (ch.fg = .halted)

/-- A command is in progress: not an end. -/
def Channel.inProgress (ch : Channel) : Bool :=
  match ch.fg with
  | .idle => false
  | .sampled _ _ => true
  | .poll _ => true
  | .halted => false

/-- The command channel `c` accepted at step `i` has completed within the first `n` steps: FG came back to IDLE, and no RESET
came before, which would have abandoned the command or cleared its fault (R231, log 19). -/
def CompletedBy (c : Chan) (e : Nat → State) (x : Nat → Stimulus) (i n : Nat) : Prop :=
  ∃ j, i ≤ j ∧ j < n ∧ (∀ k, i ≤ k → k ≤ j → x k ≠ .reset) ∧ ((e (j + 1)).chan c).fg = .idle

/-- After `n` steps the host's program is done: every command of it accepted, no other, and each completed. -/
structure Completed (program : List (Chan × CommandWord)) (e : Nat → State) (x : Nat → Stimulus) (n : Nat) : Prop where
  /-- The run starts with no command in progress and no fault (log 19). -/
  start : ∀ c, ((e 0).chan c).atRest = true
  /-- The accepted words are the program. -/
  accepted : accepted e x n = program
  /-- Each accepted command has completed. -/
  completed : ∀ i c k, i < n → acceptedWord (e i) (x i) = some (c, k) → CompletedBy c e x i n
  /-- `FG = IDLE` and `FAULT = 0`. -/
  rest : ∀ c, ((e n).chan c).atRest = true

/-- The run of the program ends successfully at step `n`, the moment its last command completes. -/
def EndsAt (program : List (Chan × CommandWord)) (e : Nat → State) (x : Nat → Stimulus) (n : Nat) : Prop :=
  Completed program e x n ∧ ∀ m < n, ¬Completed program e x m

/-- The run has ended and failed at step `n`: a channel is HALTED. -/
def FailedAt (e : Nat → State) (n : Nat) : Prop := ∃ c, ((e n).chan c).endedFailed = true

/-- From step `n` on channel `c` takes an endless run of POLL steps: a WRITE is never out of POLL, and the sequencer takes its
turn again and again. A hang, and no end (R184). -/
def HangsFrom (c : Chan) (e : Nat → State) (x : Nat → Stimulus) (n : Nat) : Prop :=
  (∃ b, ∀ m, n ≤ m → ((e m).chan c).fg = .poll b) ∧ ∀ m, n ≤ m → ∃ k, m ≤ k ∧ x k = .advance c

/-! ### Windows of stimuli -/

/-- A window in which the peripheral takes TXRDY on channel `c` and the channel's sequencer takes a turn after it. -/
def ServedIn (c : Chan) (xs : List Stimulus) : Prop :=
  ∃ before between after, xs = before ++ Stimulus.txrdy c :: (between ++ Stimulus.advance c :: after)

/-- The event word `{1, b}` that delivers `b` (R94, R103). -/
def rxWord (b : Byte) : EventWord := 1#1 ++ b

/-- The events that deliver `bs` to channel `c`. -/
def deliver (c : Chan) (bs : List Byte) : List Stimulus := bs.map fun b => Stimulus.event c (rxWord b)

/-- One consumer command with no event inside it: its word, then its COMMIT (R103, R160). -/
def wholeCommand (c : Chan) (op : ConsumerOp) : List Stimulus := [.command c op.word, .advance c]

/-! ### Sequences of pushes and pops on the internal port (R127) -/

/-- A stand-alone push or pop. -/
inductive RingOp where
  /-- RB.PUSH. -/
  | push (b : Byte)
  /-- RB.POP. -/
  | pop
deriving DecidableEq, Repr

/-- Its instruction. -/
def RingOp.instr : RingOp → Instr
  | .push b => .rbPush b
  | .pop => .rbPop

/-- The results of a sequence, one per operation, and the state it ends in; none where it stops. -/
def ringRun : List RingOp → State → Option (List RingResult × State)
  | [], s => some ([], s)
  | op :: ops, s =>
    match exec op.instr s with
    | .next t => (ringRun ops t).map fun p => (t.ringOut :: p.1, p.2)
    | .fault _ => none
    | .refused _ => none

/-- What a first-in first-out queue of at most `room` bytes that drops the newest answers, and what it still holds. -/
def fifoRun (room : Nat) : List RingOp → List Byte → List RingResult × List Byte
  | [], q => ([], q)
  | .push b :: ops, q =>
    let r := fifoRun room ops (if q.length < room then q ++ [b] else q)
    (.nothing :: r.1, r.2)
  | .pop :: ops, [] =>
    let r := fifoRun room ops []
    (.byte { valid := false, byte := 0#8 } :: r.1, r.2)
  | .pop :: ops, b :: q =>
    let r := fifoRun room ops q
    (.byte { valid := true, byte := b } :: r.1, r.2)

/-! ### Shapes shared by the claims about commands -/

/-- The response of `respond(v)`, `(0, 1, v)` (R37, R96). -/
def Response.returning (v : BitVec 16) : Response := { fault := 0#2, hasValue := true, value := v }

/-- The response of `respond()`, `(0, 0, 0)` (R37, R96). -/
def Response.void : Response := { fault := 0#2, hasValue := false, value := 0#16 }

/-- The response of a faulting step, `(code, 0, 0)` (R37, R96, R204). -/
def Response.faulted (code : BitVec 2) : Response := { fault := code, hasValue := false, value := 0#16 }

/-- The command word `k`, shown on an idle channel, raises ILLEGAL_COMMAND by the four writes of fault entry (R98, R202,
R204); nothing else of the channel changes, whatever its state. -/
def RaisesIllegalCommand (k : CommandWord) : Prop :=
  ∀ (s : State) (c : Chan) (rest : List Stimulus), parametersInRange s = true → s.inbox = .command c k :: rest →
    (s.chan c).fg = .idle → ∃ t, step s = .next t ∧ t.chan c = { s.chan c with
      fault := 2#2, fcmd := k, rsp := .faulted 2#2, fg := .halted }

/-- Form K0 (R92, R93): the word `{op, arg}` stands for `i` when `arg = 0`; otherwise it stands for nothing and raises
ILLEGAL_COMMAND. -/
def EncodesNoOperand (op : BitVec 4) (i : Instr) : Prop :=
  ∀ arg : BitVec 32, (decode (.k (op ++ arg)) = if arg = 0#32 then .instr i else .rejected .nonzeroArg) ∧
    (arg ≠ 0#32 → RaisesIllegalCommand (op ++ arg))

/-- ACCEPT without a precondition (R160): `i` samples HEAD and changes nothing else. -/
def Samples (op : ConsumerOp) (i : Instr) : Prop :=
  ∀ s : State, s.cur.fg = .idle → exec i s = .next (s.setCur { s.cur with fg := .sampled op s.cur.head })

/-- ACCEPT with the precondition ACTIVE (R160, R166): on an active channel `i` samples HEAD and changes nothing else; on an
inactive one it raises PRECONDITION with the command word `k` (R201, R204) and changes nothing else. -/
def SamplesWhenActive (op : ConsumerOp) (k : CommandWord) (i : Instr) : Prop :=
  ∀ s : State, s.cur.fg = .idle →
    (s.cur.active = true → exec i s = .next (s.setCur { s.cur with fg := .sampled op s.cur.head })) ∧
    (s.cur.active = false → exec i s = .next (s.setCur { s.cur with
      fault := 1#2, fcmd := k, rsp := .faulted 1#2, fg := .halted }))

end Machine
end Sys2Proof
end

