-- ==== Sys2Proof/Certificates/Slice0/Obligations.lean ====
section
/-! DEFINITION. The statements for the provers: what the instructions and the machine do, from the numbered rules of spec/.
A docstring names the rule; where a statement rests on a decision the spec marks as its own, or on a choice of the model,
it says so. -/

open Sys2Proof Sys2Proof.Machine

/-! ### Encodings -/

/-- Decoding the word of any instruction gives it back, with every operand at every value (formats of R91, R94, R95; the
layouts are the spec's own decisions D10 to D12). -/
def Obligations.DecodeInvertsEncode : Prop :=
  ∀ i : Instr, decode (encode i) = .instr i

/-- A legal word is the word of the instruction it decodes to: no bit of a legal word is ignored (R92, R98, R99). -/
def Obligations.EncodeInvertsDecode : Prop :=
  ∀ (w : PortWord) (i : Instr), decode w = .instr i → encode i = w

/-- R101, by the numbers `op = k[35:32]` and `arg = k[31:0]`, with its last sentence: decoding comes before any
precondition. The layout and the fault are the spec's own decisions D10, D14, D15, D29. -/
def Obligations.CommandDecodingFollowsR101 : Prop :=
  ∀ k : CommandWord,
    let op := k.toNat / 2 ^ 32
    let arg := k.toNat % 2 ^ 32
    (8 ≤ op → decode (.k k) = .rejected .reservedOp) ∧
    (op = 0 → decode (.k k) = .instr (.beginCmd (BitVec.ofNat 32 arg))) ∧
    (op = 7 → decode (.k k) =
      if arg < 256 then .instr (.write (BitVec.ofNat 8 arg)) else .rejected .nonzeroArg) ∧
    (∀ i, [Instr.endCmd, .flush, .available, .clear, .peek, .read][op - 1]? = some i → 1 ≤ op → decode (.k k) =
      if arg = 0 then .instr i else .rejected .nonzeroArg) ∧
    (∀ (s : State) (c : Chan) (rest : List Stimulus) (why : Rejection), parametersInRange s = true →
      s.inbox = .command c k :: rest → (s.chan c).fg = .idle → decode (.k k) = .rejected why →
      ∃ t, step s = .next t ∧ (t.chan c).fault = 2#2)

/-- A word selects a row of the opcode table by mask and match exactly when it decodes to an instruction of that row, so
the rows of one port are disjoint (R93 to R95; the layouts are the spec's own decisions). -/
def Obligations.RowSelectionIsDecoding : Prop :=
  ∀ (w : PortWord) (i : Instr), i.row.selectedBy w = true ↔ ∃ j, decode w = .instr j ∧ j.row = i.row

/-- Words written out in 95_test_vectors.md section 2.1 decode to what it says. -/
def Obligations.SpecWordsDecode : Prop :=
  decode (.k 0x000002580#36) = .instr (.beginCmd 9600#32) ∧ decode (.k 0x700000041#36) = .instr (.write 0x41#8) ∧
  decode (.k 0x600000000#36) = .instr .read ∧ decode (.k 0x700000141#36) = .rejected .nonzeroArg ∧
  decode (.v 0x141#9) = .instr (.rxc 0x41#8) ∧ decode (.v 0x041#9) = .rejected .idleEvent ∧
  decode (.u 0x041#11) = .instr (.rbPush 0x41#8) ∧ decode (.u 0x141#11) = .rejected .nonzeroData ∧
  decode (.u 0x500#11) = .rejected .reservedSel

/-- The 19-bit response word has its three fields where R96 puts them (layout: the spec's decision D13). -/
def Obligations.ResponseWordLayout : Prop :=
  ∀ r : Response, r.word.extractLsb' 17 2 = r.fault ∧ r.word.getLsbD 16 = r.hasValue ∧ r.word.extractLsb' 0 16 = r.value

/-! ### The step -/

/-- A step runs the decoded instruction: the next word in the inbox, shown on its port, is decoded and executed on its
channel; a command word needs the port open, FG = IDLE (R91). What step adds around exec: the stimulus is used up and the
channel is selected. A word that decodes to no instruction (a command word: IllegalWordRaisesIllegalCommand): the idle event
word leaves both channels as they were (R94, R99; that the run goes on is the model's choice, log 3), and a reserved word
on the internal ring-buffer port is refused by name (R99, U3). -/
def Obligations.StepRunsTheDecodedInstruction : Prop :=
  ∀ (s : State) (c : Chan) (rest : List Stimulus) (i : Instr), parametersInRange s = true →
    (∀ k, s.inbox = .command c k :: rest → (s.chan c).fg = .idle → decode (.k k) = .instr i →
      step s = exec i { s with sel := c, inbox := rest }) ∧
    (∀ v, s.inbox = .event c v :: rest → decode (.v v) = .instr i → step s = exec i { s with sel := c, inbox := rest }) ∧
    (∀ u, s.inbox = .ringPort c u :: rest → decode (.u u) = .instr i →
      step s = exec i { s with sel := c, inbox := rest }) ∧
    (∀ v why, s.inbox = .event c v :: rest → decode (.v v) = .rejected why →
      step s = .next { s with sel := c, inbox := rest }) ∧
    (∀ u why, s.inbox = .ringPort c u :: rest → decode (.u u) = .rejected why → step s = .refused (.reservedMicroOp u))

/-- FGSEQ's own step (R34): COMMIT of the command in progress, or POLL; in IDLE and HALTED it has none, and then nothing
changes (log 3, the model's choice). -/
def Obligations.SequencerContinuesItsCommand : Prop :=
  ∀ (s : State) (c : Chan) (rest : List Stimulus), parametersInRange s = true → s.inbox = .advance c :: rest →
    (∀ hs, (s.chan c).fg = .sampled .available hs → step s = exec .available { s with sel := c, inbox := rest }) ∧
    (∀ hs, (s.chan c).fg = .sampled .clear hs → step s = exec .clear { s with sel := c, inbox := rest }) ∧
    (∀ hs, (s.chan c).fg = .sampled .peek hs → step s = exec .peek { s with sel := c, inbox := rest }) ∧
    (∀ hs, (s.chan c).fg = .sampled .read hs → step s = exec .read { s with sel := c, inbox := rest }) ∧
    (∀ b, (s.chan c).fg = .poll b → step s = exec (.write b) { s with sel := c, inbox := rest }) ∧
    ((s.chan c).fg = .idle ∨ (s.chan c).fg = .halted → step s = .next { s with sel := c, inbox := rest })

/-- The command port takes a word only in IDLE (R91). In any other state the word is lost and both channels stay as they
are; that the run goes on is the model's choice (log 3). -/
def Obligations.CommandPortClosedWhileBusy : Prop :=
  ∀ (s : State) (c : Chan) (k : CommandWord) (rest : List Stimulus), parametersInRange s = true →
    s.inbox = .command c k :: rest → (s.chan c).fg ≠ .idle → step s = .next { s with sel := c, inbox := rest }

/-- An illegal word raises ILLEGAL_COMMAND whatever the channel state, by exactly the four writes of fault entry (R98,
R202, R204, R208; the spec's own decisions D14, D15, D29, D32). -/
def Obligations.IllegalWordRaisesIllegalCommand : Prop :=
  ∀ (s : State) (c : Chan) (k : CommandWord) (rest : List Stimulus) (why : Rejection), parametersInRange s = true →
    s.inbox = .command c k :: rest → (s.chan c).fg = .idle → decode (.k k) = .rejected why →
    ∃ t, step s = .next t ∧
      t.chan c = { s.chan c with fault := 2#2, fcmd := k, rsp := .faulted 2#2, fg := .halted } ∧
      ∀ c', c' ≠ c → t.chan c' = s.chan c'

/-- TXRDY sets STATUS[B_UDRE] and changes nothing else (R183; the bit's behaviour is the spec's decision D31). -/
def Obligations.TxrdySetsOnlyUdre : Prop :=
  ∀ (s : State) (c : Chan) (rest : List Stimulus), parametersInRange s = true → s.inbox = .txrdy c :: rest →
    ∃ t, step s = .next t ∧ (∀ c', c' ≠ c → t.chan c' = s.chan c') ∧
      t.chan c = { s.chan c with status := (t.chan c).status } ∧
      ∀ i, testBit (t.chan c).status i = (decide (i = (s.chan c).params.bUdre) || testBit (s.chan c).status i)

/-! ### Reset -/

/-- RESET, in every state, both channels at once: the values R42 gives, an abandoned command, and the parameters kept (R230,
R231; the reset input and the zero indices are the spec's decisions D25, D26). The registers R42 leaves unspecified are not
spoken of. -/
def Obligations.ResetStepLeavesTheResetState : Prop :=
  ∀ (s : State) (rest : List Stimulus), parametersInRange s = true → s.inbox = .reset :: rest →
    ∃ t, step s = .next t ∧ t.inbox = rest ∧ ∀ c, (t.chan c).params = (s.chan c).params ∧
      (t.chan c).head = 0 ∧ (t.chan c).tail = 0 ∧ (t.chan c).empty = true ∧ (t.chan c).full = false ∧ (t.chan c).count = 0 ∧
      testBit (t.chan c).control (s.chan c).params.bRxen = false ∧
      testBit (t.chan c).control (s.chan c).params.bTxen = false ∧
      testBit (t.chan c).control (s.chan c).params.bRxcie = false ∧ (t.chan c).active = false ∧
      (t.chan c).rxEnabled = false ∧ (t.chan c).fg = .idle ∧ (t.chan c).fault = 0#2 ∧
      (t.chan c).rsp = .void ∧ (t.chan c).txlog = []

/-- The state the model starts from obeys the invariants (its unspecified registers and its parameters are the model's
choice, log 1 and log 4). -/
def Obligations.ResetStateIsOrdered : Prop := State.reset.Ok

/-- Every reset state obeys the invariants, whatever the unspecified registers hold (R42: "a model must hold for every
value"). -/
def Obligations.EveryDrawOfResetIsOrdered : Prop :=
  ∀ s : State, CleanEntry s → parametersInRange s = true → s.Ok

/-! ### Invariants of every step -/

/-- Every step, the bench's included, keeps the ring-buffer invariant: indices below C, a canonical storage, every
occupied slot written, and a sample never ahead of HEAD (R250 a, b, R25). -/
def Obligations.EveryStepKeepsTheRingInvariant : Prop :=
  ∀ s t : State, s.RingOk → step s = .next t → t.RingOk

/-- Every step of the wired hardware keeps R250 (a) to (e) and R33: the enables agree, an inactive channel is empty, a
command that needs ACTIVE runs on an active channel, and the fault record is consistent. -/
def Obligations.EveryWiredStepKeepsTheChannelInvariant : Prop :=
  ∀ s t : State, s.Ok → (∀ x, s.inbox.head? = some x → x.wired = true) → step s = .next t → t.Ok

/-- On an ordered state no step stops, unless it is shown a reserved word on the internal port (R10; that a step R10 c says
does not exist still answers next is the model's choice, log 3); and whenever a consumer operation finds a byte, a push has
written the slot it reads (R25). -/
def Obligations.OrderedStateNeverStops : Prop :=
  ∀ s : State, s.RingOk → (∀ x, s.inbox.head? = some x → x.reserved = false) →
    (∃ t, step s = .next t) ∧
    ∀ c, latchedHead (s.chan c) ≠ (s.chan c).tail → (Memory.read (s.chan c).st (s.chan c).tail).isSome = true

/-- No step writes a parameter (R4: "fixed for the life of the instance"; R41). -/
def Obligations.NoStepChangesTheParameters : Prop :=
  ∀ (s t : State) (c : Chan), step s = .next t → (t.chan c).params = (s.chan c).params

/-! ### Ownership and whole-machine rules -/

/-- In the wired hardware HEAD changes only by an enabled RXC event, to `(HEAD + 1) mod C`, or by RESET (R22, R70). -/
def Obligations.OnlyTheHandlerWritesHead : Prop :=
  ∀ (s t : State) (x : Stimulus) (rest : List Stimulus) (c : Chan), s.inbox = x :: rest → x.wired = true →
    step s = .next t → (t.chan c).head ≠ (s.chan c).head →
    x = .reset ∨ ∃ v b, x = .event c v ∧ decode (.v v) = .instr (.rxc b) ∧ (s.chan c).rxEnabled = true ∧
      (t.chan c).head = ((s.chan c).head + 1) % (s.chan c).params.cap

/-- In the wired hardware TAIL changes only by the foreground: the COMMIT of READ, to `(TAIL + 1) mod C`, the COMMIT of
CLEAR, to the sampled head, END, to HEAD, or by RESET (R23, R70). -/
def Obligations.OnlyTheForegroundWritesTail : Prop :=
  ∀ (s t : State) (x : Stimulus) (rest : List Stimulus) (c : Chan), s.inbox = x :: rest → x.wired = true →
    step s = .next t → (t.chan c).tail ≠ (s.chan c).tail →
    x = .reset ∨
    (x = .advance c ∧ ∃ hs, (s.chan c).fg = .sampled .read hs ∧
      (t.chan c).tail = ((s.chan c).tail + 1) % (s.chan c).params.cap) ∨
    (x = .advance c ∧ ∃ hs, (s.chan c).fg = .sampled .clear hs ∧ (t.chan c).tail = hs) ∨
    (∃ k, x = .command c k ∧ decode (.k k) = .instr .endCmd ∧ (t.chan c).tail = (s.chan c).head)

/-- No step but RESET changes or writes any slot of ST other than ST[HEAD], and in the wired hardware that slot only by an RXC
event that stores its byte (R21, R70). -/
def Obligations.OnlyAPushWritesTheStorage : Prop :=
  ∀ (s t : State) (x : Stimulus) (rest : List Stimulus) (c : Chan) (a : Nat), s.inbox = x :: rest → x ≠ .reset →
    step s = .next t →
    ((t.chan c).slot a ≠ (s.chan c).slot a ∨ Memory.read (t.chan c).st a ≠ Memory.read (s.chan c).st a) →
    a = (s.chan c).head ∧ (s.chan c).full = false ∧
      (x.wired = true → ∃ v b, x = .event c v ∧ decode (.v v) = .instr (.rxc b) ∧ Memory.read (t.chan c).st a = some b ∧
        (t.chan c).slot a = b)

/-- R182, the write gate: TXDATA and TXLOG change, and STATUS[B_UDRE] is cleared, in no step but a POLL step that has just
read STATUS[B_UDRE] = 1 (RESET apart, which abandons everything); such a step writes exactly the WRITE's byte, once, and
completes the WRITE; and a WRITE leaves POLL in no other way. -/
def Obligations.WriteGate : Prop :=
  ∀ (s t : State) (x : Stimulus) (rest : List Stimulus) (c : Chan), s.inbox = x :: rest → x ≠ .reset →
    step s = .next t →
    ((t.chan c).txdata ≠ (s.chan c).txdata ∨ (t.chan c).txlog ≠ (s.chan c).txlog ∨
        ((s.chan c).udre = true ∧ (t.chan c).udre = false) ∨
        (∃ b, (s.chan c).fg = .poll b ∧ (t.chan c).fg ≠ .poll b) →
      x = .advance c ∧ (s.chan c).udre = true ∧ ∃ b, (s.chan c).fg = .poll b ∧ (t.chan c).txdata = b ∧
        (t.chan c).txlog = (s.chan c).txlog ++ [b] ∧ (t.chan c).udre = false ∧ (t.chan c).fg = .idle ∧
        (t.chan c).rsp = .returning 1#16)

/-- Every step but RESET leaves the opaque bits of CONTROL and STATUS as they were (R26, R29, R30; that the block writes
single bits is the spec's decision D19). -/
def Obligations.OpaqueBitsArePreserved : Prop :=
  ∀ (s t : State) (x : Stimulus) (rest : List Stimulus) (c : Chan) (i : Fin 8), s.inbox = x :: rest → x ≠ .reset →
    step s = .next t →
    (i ≠ (s.chan c).params.bRxen → i ≠ (s.chan c).params.bTxen → i ≠ (s.chan c).params.bRxcie →
      testBit (t.chan c).control i = testBit (s.chan c).control i) ∧
    (i ≠ (s.chan c).params.bU2x → i ≠ (s.chan c).params.bUdre →
      testBit (t.chan c).status i = testBit (s.chan c).status i)

/-- A fault is left by RESET only, and no second one is raised (R205, R36; the spec's decision D29). -/
def Obligations.OnlyResetLeavesAFault : Prop :=
  ∀ (s t : State) (x : Stimulus) (rest : List Stimulus) (c : Chan), s.inbox = x :: rest → step s = .next t →
    (s.chan c).fg = .halted →
    (x ≠ .reset → (t.chan c).fg = .halted ∧ (t.chan c).fault = (s.chan c).fault ∧ (t.chan c).fcmd = (s.chan c).fcmd ∧
      (t.chan c).rsp = (s.chan c).rsp) ∧
    (x = .reset → (t.chan c).fg = .idle ∧ (t.chan c).fault = 0#2)

/-- R43: a step of one channel writes nothing of the other, and what a step leaves in a channel depends on nothing of the
other: from two states that agree on channel `c` (and may differ in everything else) the same stimulus leaves channel `c`
the same. -/
def Obligations.ChannelsDoNotInteract : Prop :=
  ∀ (s t : State) (x : Stimulus) (rest : List Stimulus) (c : Chan), s.inbox = x :: rest → step s = .next t →
    (x.reaches c = false → t.chan c = s.chan c) ∧
    ∀ (s' t' : State) (rest' : List Stimulus), s'.chan c = s.chan c → s'.inbox = x :: rest' → step s' = .next t' →
      t'.chan c = t.chan c

/-- Steps of the two channels commute (R208 e, R216; the spec's decision D32). -/
def Obligations.StepsOfTheTwoChannelsCommute : Prop :=
  ∀ (s t : State) (x y : Stimulus) (rest : List Stimulus), x.reaches .ch1 = false → y.reaches .ch0 = false →
    Sys2Proof.core.run 2 { s with inbox := x :: y :: rest } = .next t →
    ∃ u, Sys2Proof.core.run 2 { s with inbox := y :: x :: rest } = .next u ∧ u.ch0 = t.ch0 ∧ u.ch1 = t.ch1 ∧ u.inbox = t.inbox

/-- R150, the table's transitions: only an accepted BEGIN makes a channel active, only an accepted END or RESET inactive,
and every other step leaves its state. -/
def Obligations.ChannelStateMachine : Prop :=
  ∀ (s t : State) (x : Stimulus) (rest : List Stimulus) (c : Chan), s.inbox = x :: rest → step s = .next t →
    (x = .reset → (t.chan c).active = false) ∧
    (∀ k baud, x = .command c k → (s.chan c).fg = .idle → decode (.k k) = .instr (.beginCmd baud) →
      (t.chan c).active = true) ∧
    (∀ k, x = .command c k → (s.chan c).fg = .idle → decode (.k k) = .instr .endCmd →
      (t.chan c).active = false ∧ (t.chan c).empty = true) ∧
    ((t.chan c).active ≠ (s.chan c).active → x = .reset ∨ ∃ k, x = .command c k ∧ (s.chan c).fg = .idle ∧
      (decode (.k k) = .instr .endCmd ∨ ∃ baud, decode (.k k) = .instr (.beginCmd baud)))

/-! ### The counters and the storage -/

/-- R126 (a), (b), (e) and the consequences of R24: the two `mod C` as case distinctions, the intermediate sum in
`1..2C-1`, EMPTY and FULL by COUNT, never both. -/
def Obligations.CounterArithmetic : Prop :=
  ∀ cap h t : Nat, 2 ≤ cap → h < cap → t < cap →
    indexNext cap h = (if h < cap - 1 then h + 1 else 0) ∧
    countOf cap h t = (if t ≤ h then h - t else cap + h - t) ∧ 1 ≤ cap + h - t ∧ cap + h - t ≤ 2 * cap - 1 ∧
    countOf cap h t ≤ cap - 1 ∧ (countOf cap h t = 0 ↔ h = t) ∧ (emptyOf h t = true ↔ countOf cap h t = 0) ∧
    (fullOf cap h t = true ↔ countOf cap h t = cap - 1) ∧ ¬(emptyOf h t = true ∧ fullOf cap h t = true) ∧
    (fullOf cap h t = false → countOf cap (indexNext cap h) t = countOf cap h t + 1) ∧
    (h ≠ t → countOf cap h (indexNext cap t) + 1 = countOf cap h t)

/-- A slot of ST reads as it was last written, a write leaves every other slot, written or not, and the storage stays
canonical (R8, R21). -/
def Obligations.StorageReadsWhatWasWritten : Prop :=
  ∀ (cap : Nat) (st : List Host.Cell) (a b : Nat) (v : Byte), Memory.read (Memory.write st a v) a = some v ∧
    (b ≠ a → Memory.read (Memory.write st a v) b = Memory.read st b) ∧
    (∀ ch : Channel, Channel.slot { ch with st := Memory.write st a v } b =
      if b = a then v else Channel.slot { ch with st := st } b) ∧
    (Memory.wf cap st → a < cap → Memory.wf cap (Memory.write st a v))

/-! ### The micro-operations -/

/-- RB.PUSH with room (R121): the byte is in ST[HEAD], HEAD moves on, COUNT rises by one, EMPTY is 0, FULL is 1 exactly when
`C - 1` bytes are unread; every other slot and every other field is as before. -/
def Obligations.PushStoresAtHead : Prop :=
  ∀ (b : Byte) (s : State), s.cur.full = false → ∃ st',
    exec (.rbPush b) s = .next ((s.setCur { s.cur with
      st := st', head := (s.cur.head + 1) % s.cur.params.cap }).withRingOut .nothing) ∧
    Memory.read st' s.cur.head = some b ∧ (∀ a, a ≠ s.cur.head → Memory.read st' a = Memory.read s.cur.st a) ∧
    (s.cur.RingOk → ∀ t, exec (.rbPush b) s = .next t → t.cur.count = s.cur.count + 1 ∧ t.cur.empty = false ∧
      (t.cur.full = true ↔ t.cur.count = t.cur.params.cap - 1) ∧ t.cur.unread = s.cur.unread ++ [b])

/-- R128: a push into a full buffer leaves ST, HEAD, TAIL and everything else as they were; the byte is lost. The same of an
RXC event, which leaves it in RXDATA alone. -/
def Obligations.PushIntoFullBufferIsLost : Prop :=
  ∀ (b : Byte) (s : State), s.cur.full = true →
    exec (.rbPush b) s = .next (s.withRingOut .nothing) ∧
    (s.cur.rxEnabled = true → exec (.rxc b) s = .next (s.setCur { s.cur with rxdata := b }))

/-- RB.POP (R122) with the sampled head: empty when it equals TAIL; else ST[TAIL], and TAIL moves on. Nothing else
changes. -/
def Obligations.PopTakesTheOldestByte : Prop :=
  ∀ (s : State) (hs : Nat), latchedHead s.cur = hs →
    (hs = s.cur.tail → exec .rbPop s = .next (s.withRingOut (.byte { valid := false, byte := 0#8 }))) ∧
    (hs ≠ s.cur.tail → exec .rbPop s = .next ((s.setCur { s.cur with
      tail := (s.cur.tail + 1) % s.cur.params.cap }).withRingOut
        (.byte { valid := true, byte := s.cur.slot s.cur.tail }))) ∧
    (s.cur.RingOk → hs ≠ s.cur.tail → ∃ t v, exec .rbPop s = .next t ∧ t.ringOut = .byte { valid := true, byte := v } ∧
      s.cur.unread = v :: t.cur.unread ∧ t.cur.count + 1 = s.cur.count ∧ t.cur.full = false ∧
      (t.cur.empty = true ↔ t.cur.tail = s.cur.head))

/-- RB.PEEK (R123): the same answer as RB.POP, and no state written. -/
def Obligations.PeekWritesNoState : Prop :=
  ∀ (s : State) (hs : Nat), latchedHead s.cur = hs →
    (hs = s.cur.tail → exec .rbPeek s = .next (s.withRingOut (.byte { valid := false, byte := 0#8 }))) ∧
    (hs ≠ s.cur.tail → exec .rbPeek s = .next (s.withRingOut (.byte { valid := true, byte := s.cur.slot s.cur.tail }))) ∧
    (s.cur.RingOk → ∃ t u, exec .rbPeek s = .next t ∧ exec .rbPop s = .next u ∧ t.ringOut = u.ringOut)

/-- RB.COUNT (R124): `(C + hs - TAIL) mod C`, and no state written; it is the number of unread bytes when no push fell in
the window. -/
def Obligations.CountIsTheNumberOfUnreadBytes : Prop :=
  ∀ (s : State) (hs : Nat), latchedHead s.cur = hs →
    exec .rbCount s = .next (s.withRingOut (.count ((s.cur.params.cap + hs - s.cur.tail) % s.cur.params.cap))) ∧
    (hs = s.cur.head → (s.cur.params.cap + hs - s.cur.tail) % s.cur.params.cap = s.cur.unread.length)

/-- RB.CLEAR (R125): TAIL takes the sampled head and nothing else changes; what stays unread is what was pushed after the
sample. -/
def Obligations.ClearMovesTailToTheSample : Prop :=
  ∀ (s : State) (hs : Nat), latchedHead s.cur = hs →
    exec .rbClear s = .next ((s.setCur { s.cur with tail := hs }).withRingOut .nothing) ∧
    (s.cur.RingOk → ∀ t, exec .rbClear s = .next t →
      t.cur.unread = s.cur.unread.drop (countOf s.cur.params.cap hs s.cur.tail) ∧
      t.cur.count = countOf s.cur.params.cap s.cur.head hs ∧
      (hs = s.cur.head → t.cur.count = 0 ∧ t.cur.empty = true ∧ t.cur.full = false))

/-- Every slot of ST holds a byte drawn at reset until a push writes it (R42, R231, the spec's decision D27; the form of the
free value is log 7): so after a RESET step, in the model's start state, and in whatever an operation returns from a slot
that nothing has written (by OrderedStateNeverStops no ordered state meets such a slot). The statement holds for every
value of the draw. -/
def Obligations.UnwrittenSlotReadsItsDraw : Prop :=
  (∀ (s : State) (rest : List Stimulus), parametersInRange s = true → s.inbox = .reset :: rest →
    ∃ t, step s = .next t ∧ ∀ c a, (t.chan c).slot a = Config.slotDraw c ((s.chan c).draws + 1) a) ∧
  (∀ c a, (State.reset.chan c).slot a = Config.slotDraw c 0 a) ∧
  ∀ (s : State) (hs : Nat) (v : Byte), hs ≠ s.cur.tail → Memory.read s.cur.st s.cur.tail = none →
    v = Config.slotDraw s.cur.stDraw.chan s.cur.stDraw.number s.cur.tail →
    (latchedHead s.cur = hs →
      exec .rbPop s = .next ((s.setCur { s.cur with
        tail := (s.cur.tail + 1) % s.cur.params.cap }).withRingOut (.byte { valid := true, byte := v })) ∧
      exec .rbPeek s = .next (s.withRingOut (.byte { valid := true, byte := v }))) ∧
    (s.cur.fg = .sampled .peek hs → exec .peek s = .next (s.setCur { s.cur with
      fg := .idle, rsp := .returning (v.setWidth 16) })) ∧
    (s.cur.fg = .sampled .read hs → exec .read s = .next (s.setCur { s.cur with
      tail := (s.cur.tail + 1) % s.cur.params.cap, fg := .idle, rsp := .returning (v.setWidth 16) }))

/-- R127: whatever the sequence of pushes and pops on a ring buffer in order, its results are those of a first-in first-out
queue of at most `C - 1` bytes that drops the newest, and so are the bytes left. (A sample still latched would be an older
HEAD, so the sequencer holds none.) -/
def Obligations.PopsReturnBytesInPushOrder : Prop :=
  ∀ (ops : List RingOp) (s : State) (q : List Byte), s.cur.RingOk → (∀ op hs, s.cur.fg ≠ .sampled op hs) →
    s.cur.unread = q →
    ∃ t, ringRun ops s = some ((fifoRun (s.cur.params.cap - 1) ops q).1, t) ∧
      t.cur.unread = (fifoRun (s.cur.params.cap - 1) ops q).2

/-- Each channel's ring buffer refines a queue: what one step does to the unread bytes is the queue effect of its stimulus
(an enabled RXC appends or drops the newest, the COMMIT of READ takes the oldest, that of CLEAR the sampled ones, END and
RESET all, every other step none). R25, R127, R128, R240. -/
def Obligations.RingBufferRefinesAQueue : Prop :=
  ∀ (s t : State) (x : Stimulus) (rest : List Stimulus) (c : Chan), s.RingOk → s.inbox = x :: rest → step s = .next t →
    (t.chan c).unread = (queueEffect c x (s.chan c)).apply (s.chan c).params.cap (s.chan c).unread

/-! ### The windows of the consumer commands (R131, R240) -/

/-- The CLEAR window: with `n` bytes unread at the sample, the bytes delivered inside it survive as far as they found room
beside the `n`, and nothing else is unread afterwards (R131 case CLEAR, R240; R131 is the spec's derivation). -/
def Obligations.ClearKeepsWhatTheWindowStored : Prop :=
  ∀ (s : State) (c : Chan) (bs : List Byte) (rest : List Stimulus), s.Ok → (s.chan c).fg = .idle →
    (s.chan c).active = true →
    s.inbox = .command c 0x400000000#36 :: (deliver c bs ++ .advance c :: rest) →
    ∃ t, Sys2Proof.core.run (bs.length + 2) s = .next t ∧ t.inbox = rest ∧ (t.chan c).fg = .idle ∧
      (t.chan c).rsp = .void ∧
      (t.chan c).unread = bs.take ((s.chan c).params.cap - 1 - (s.chan c).count)

/-- READ with events in its window is READ in one piece at one of its two ends: at the end when the sample found a byte, at
the beginning when it found none (R131 case POP, the spec's derivation). On an inactive channel the READ faults, and that the
HALTED sequencer's turn is used up is the model's choice (log 3). -/
def Obligations.ReadWindowMovesToOneEnd : Prop :=
  ∀ (s : State) (c : Chan) (bs : List Byte) (rest : List Stimulus), s.Ok → (s.chan c).fg = .idle →
    Sys2Proof.core.run (bs.length + 2)
        { s with inbox := .command c 0x600000000#36 :: (deliver c bs ++ .advance c :: rest) } =
      if (s.chan c).empty then
        Sys2Proof.core.run (bs.length + 2)
          { s with inbox := .command c 0x600000000#36 :: .advance c :: (deliver c bs ++ rest) }
      else
        Sys2Proof.core.run (bs.length + 2)
          { s with inbox := deliver c bs ++ .command c 0x600000000#36 :: .advance c :: rest }

/-- AVAILABLE and PEEK are snapshots: with events in the window they end exactly as if they had completed before them (R131
cases COUNT and PEEK, R241; the spec's derivation). On an inactive channel the command faults, and that the HALTED
sequencer's turn is used up is the model's choice (log 3). -/
def Obligations.SnapshotsIgnoreTheWindow : Prop :=
  ∀ (s : State) (c : Chan) (k : CommandWord) (bs : List Byte) (rest : List Stimulus), s.Ok → (s.chan c).fg = .idle →
    k = 0x300000000#36 ∨ k = 0x500000000#36 →
    Sys2Proof.core.run (bs.length + 2) { s with inbox := .command c k :: (deliver c bs ++ .advance c :: rest) } =
      Sys2Proof.core.run (bs.length + 2) { s with inbox := .command c k :: .advance c :: (deliver c bs ++ rest) }

/-- A PEEK that returned a byte is followed by a PEEK or READ that returns the same byte, whatever is received in between
(R241, R163 a, R123 a). -/
def Obligations.PeekForetellsTheNextRead : Prop :=
  ∀ (s : State) (c : Chan) (k : CommandWord) (bs : List Byte) (rest : List Stimulus), s.Ok → (s.chan c).fg = .idle →
    (s.chan c).active = true → (s.chan c).empty = false → k = 0x500000000#36 ∨ k = 0x600000000#36 →
    s.inbox = .command c 0x500000000#36 :: .advance c :: (deliver c bs ++ .command c k :: .advance c :: rest) →
    ∃ t u v, Sys2Proof.core.run 2 s = .next t ∧ Sys2Proof.core.run (bs.length + 4) s = .next u ∧
      (t.chan c).rsp = .returning (BitVec.setWidth 16 v) ∧
      (u.chan c).rsp = (t.chan c).rsp ∧ (s.chan c).unread.head? = some (v : Byte)

/-- The source's end-to-end property (its section 8, S8): on an active, empty, idle channel that receives `bs`, at most
`C - 1` bytes, AVAILABLE returns their number and the `k`-th READ the `k`-th byte, in order. -/
def Obligations.ReceivedBytesAreReadInOrder : Prop :=
  ∀ (s : State) (c : Chan) (bs : List Byte) (rest : List Stimulus), s.Ok → (s.chan c).fg = .idle →
    (s.chan c).active = true → (s.chan c).empty = true → bs.length ≤ (s.chan c).params.cap - 1 →
    (s.inbox = deliver c bs ++ (wholeCommand c .available ++ rest) →
      ∃ t, Sys2Proof.core.run (bs.length + 2) s = .next t ∧
        (t.chan c).rsp = .returning (BitVec.ofNat 16 bs.length)) ∧
    (∀ (k : Nat) (b : Byte), bs[k]? = some b →
      s.inbox = deliver c bs ++ ((List.replicate (k + 1) (wholeCommand c .read)).flatten ++ rest) →
      ∃ t, Sys2Proof.core.run (bs.length + 2 * (k + 1)) s = .next t ∧
        (t.chan c).rsp = .returning (BitVec.setWidth 16 b) ∧
        (t.chan c).count = bs.length - (k + 1))

/-! ### The consumer commands -/

/-- AVAILABLE (R161): encoding, ACCEPT, and the COMMIT, whose value is `(C + hs - TAIL) mod C`, at most `C - 1`; no state of
the ring buffer changes. -/
def Obligations.AvailableReturnsTheSampledCount : Prop :=
  EncodesNoOperand 3#4 .available ∧ SamplesWhenActive .available 0x300000000#36 .available ∧
  ∀ (s : State) (hs : Nat), s.cur.fg = .sampled .available hs →
    exec .available s = .next (s.setCur { s.cur with
      fg := .idle, rsp := .returning (BitVec.ofNat 16 ((s.cur.params.cap + hs - s.cur.tail) % s.cur.params.cap)) }) ∧
    (s.cur.RingOk → ∀ t, exec .available s = .next t →
      t.cur.rsp.value.toNat = (s.cur.params.cap + hs - s.cur.tail) % s.cur.params.cap ∧
      t.cur.rsp.value.toNat ≤ s.cur.params.cap - 1 ∧ t.cur.rsp.value.toNat ≤ s.cur.count)

/-- CLEAR (R162): encoding, ACCEPT in either channel state, and the COMMIT, which moves TAIL to the sample; COUNT becomes the
number of bytes stored since. -/
def Obligations.ClearDiscardsTheSampledBytes : Prop :=
  EncodesNoOperand 4#4 .clear ∧ Samples .clear .clear ∧
  ∀ (s : State) (hs : Nat), s.cur.fg = .sampled .clear hs →
    exec .clear s = .next (s.setCur { s.cur with
      tail := hs, fg := .idle, rsp := .void }) ∧
    (s.cur.RingOk → ∀ t, exec .clear s = .next t →
      t.cur.count + countOf s.cur.params.cap hs s.cur.tail = s.cur.count ∧
      (hs = s.cur.head → t.cur.count = 0 ∧ t.cur.empty = true ∧ t.cur.full = false))

/-- PEEK (R163, R165): encoding, ACCEPT, and the COMMIT: the oldest byte zero-extended, or -1 when the sample found none;
no state of the ring buffer changes. -/
def Obligations.PeekReturnsTheOldestByte : Prop :=
  EncodesNoOperand 5#4 .peek ∧ SamplesWhenActive .peek 0x500000000#36 .peek ∧
  ∀ (s : State) (hs : Nat), s.cur.fg = .sampled .peek hs →
    (hs = s.cur.tail → exec .peek s = .next (s.setCur { s.cur with
      fg := .idle, rsp := .returning 0xFFFF#16 })) ∧
    (hs ≠ s.cur.tail → exec .peek s = .next (s.setCur { s.cur with
      fg := .idle, rsp := .returning ((s.cur.slot s.cur.tail).setWidth 16) })) ∧
    (s.cur.RingOk → hs ≠ s.cur.tail → ∃ t v, exec .peek s = .next t ∧ s.cur.unread.head? = some v ∧
      t.cur.rsp.value.toNat = v.toNat ∧ t.cur.unread = s.cur.unread)

/-- READ (R164, R165): encoding, ACCEPT, and the COMMIT: as PEEK, and TAIL moves on; COUNT falls by one, FULL is 0, EMPTY is 1
exactly when the last byte went. -/
def Obligations.ReadTakesTheOldestByte : Prop :=
  EncodesNoOperand 6#4 .read ∧ SamplesWhenActive .read 0x600000000#36 .read ∧
  ∀ (s : State) (hs : Nat), s.cur.fg = .sampled .read hs →
    (hs = s.cur.tail → exec .read s = .next (s.setCur { s.cur with
      fg := .idle, rsp := .returning 0xFFFF#16 })) ∧
    (hs ≠ s.cur.tail → exec .read s = .next (s.setCur { s.cur with
      tail := (s.cur.tail + 1) % s.cur.params.cap, fg := .idle,
      rsp := .returning ((s.cur.slot s.cur.tail).setWidth 16) })) ∧
    (s.cur.RingOk → hs ≠ s.cur.tail → ∃ t v, exec .read s = .next t ∧ s.cur.unread = v :: t.cur.unread ∧
      t.cur.rsp.value.toNat = v.toNat ∧ t.cur.count + 1 = s.cur.count ∧ t.cur.full = false ∧
      (t.cur.empty = true ↔ s.cur.count = 1))

/-! ### The transmit command -/

/-- WRITE (R180): encoding of form KW with its illegal words, ACCEPT, the POLL step that finds the bit set, which hands over the byte, clears the
bit, appends to TXLOG and returns 1, and the POLL step that finds it clear, which changes nothing. -/
def Obligations.WriteTransmitsOneByte : Prop :=
  (∀ arg : BitVec 32, (decode (.k (7#4 ++ arg)) =
    if arg.toNat < 256 then .instr (.write (arg.setWidth 8)) else .rejected .nonzeroArg) ∧
    (256 ≤ arg.toNat → RaisesIllegalCommand (7#4 ++ arg))) ∧
  ∀ (b : Byte) (s : State),
    (s.cur.fg = .idle → s.cur.active = true → exec (.write b) s = .next (s.setCur { s.cur with fg := .poll b })) ∧
    (s.cur.fg = .idle → s.cur.active = false → exec (.write b) s = .next (s.setCur { s.cur with
      fault := 1#2, fcmd := 7#4 ++ (0#24 ++ b), rsp := .faulted 1#2, fg := .halted })) ∧
    (s.cur.fg = .poll b → testBit s.cur.status s.cur.params.bUdre = true → ∃ st', exec (.write b) s = .next (s.setCur { s.cur with
      txdata := b, status := st', txlog := s.cur.txlog ++ [b], fg := .idle,
      rsp := .returning 1#16 }) ∧
      ∀ i, testBit st' i = (!decide (i = s.cur.params.bUdre) && testBit s.cur.status i)) ∧
    (s.cur.fg = .poll b → testBit s.cur.status s.cur.params.bUdre = false → exec (.write b) s = .next s)

/-- The hang of R184: while a WRITE polls with the bit clear and the peripheral takes no TXRDY there, whatever else happens (any
number of POLL steps, receive events, commands presented, steps of the other channel), the WRITE does not complete: FG stays
POLL(b), no fault is recorded, nothing is transmitted. RESET alone ends it, so there is none in the window. That a command
presented meanwhile is used up, and the run goes on, is the model's choice (log 3). -/
def Obligations.WriteHangsWithoutTxrdy : Prop :=
  ∀ (s : State) (c : Chan) (b : Byte) (xs rest : List Stimulus), s.Ok → s.inbox = xs ++ rest →
    (s.chan c).fg = .poll b → (s.chan c).udre = false → (∀ x ∈ xs, x.wired = true ∧ x ≠ .reset ∧ x ≠ .txrdy c) →
    ∃ t, Sys2Proof.core.run xs.length s = .next t ∧ t.inbox = rest ∧ (t.chan c).fg = .poll b ∧ (t.chan c).fault = 0#2 ∧
      (t.chan c).udre = false ∧ (t.chan c).txlog = (s.chan c).txlog ∧ (t.chan c).txdata = (s.chan c).txdata ∧
      (t.chan c).rsp = (s.chan c).rsp

/-- A polling WRITE completes inside a window in which the peripheral takes TXRDY and the sequencer takes a turn after it: its
byte is the next one of TXLOG, whatever else happens there but RESET (R180, R183, R186; the bit's behaviour is the spec's
decision D31; that turns whose step does not exist leave the run going is the model's choice, log 3). -/
def Obligations.WriteCompletesWhenTheTransmitterDrains : Prop :=
  ∀ (s : State) (c : Chan) (b : Byte) (xs rest : List Stimulus), s.Ok → s.inbox = xs ++ rest →
    (s.chan c).fg = .poll b → ServedIn c xs → (∀ x ∈ xs, x.wired = true ∧ x ≠ .reset) →
    ∃ t, Sys2Proof.core.run xs.length s = .next t ∧ t.inbox = rest ∧
      ((s.chan c).txlog ++ [b]) <+: (t.chan c).txlog

/-- Under the premise TxDrains of R248 a WRITE program ends: on a wired execution without RESET that starts with every channel
at rest, channel `c` active, and a WRITE of `b` as the only command, if the sequencer keeps taking its turns and the
peripheral takes TXRDY whenever the WRITE polls, the run of the one-command program ends successfully (R249) at some step,
with the byte next in TXLOG and the result 1, and no fault is ever recorded (R180, R186, R248, R249; the premise, the end of
a run and the bit's behaviour are the spec's decisions D31, D35, D38; turns whose step does not exist: log 3; what counts as an
end: log 19). -/
def Obligations.WriteProgramEndsUnderTxDrains : Prop :=
  ∀ (e : Nat → State) (x : Nat → Stimulus) (c : Chan) (b : Byte), Executes e x → (e 0).Ok →
    (∀ c', ((e 0).chan c').atRest = true) → ((e 0).chan c).active = true → x 0 = .command c (7#4 ++ (0#24 ++ b)) →
    (∀ n, (x n).wired = true ∧ x n ≠ .reset ∧ (0 < n → ∀ c' k, x n ≠ .command c' k)) →
    (∀ n, ∃ m, n ≤ m ∧ x m = .advance c) → TxDrains c e x →
    NoFault e ∧ ∃ n, EndsAt [(c, 7#4 ++ (0#24 ++ b))] e x n ∧
      ((e n).chan c).txlog = ((e 0).chan c).txlog ++ [b] ∧ ((e n).chan c).rsp = .returning 1#16

/-! ### The receive event -/

/-- RXC while enabled (R190): RXDATA holds the byte; it is stored at HEAD and HEAD moves on, or, on a full buffer, it is lost;
no other field changes, whatever FG is. -/
def Obligations.RxcPushesTheReceivedByte : Prop :=
  ∀ (b : Byte) (s : State), decode (.v (1#1 ++ b)) = .instr (.rxc b) ∧
    (s.cur.rxEnabled = true → s.cur.full = true → exec (.rxc b) s = .next (s.setCur { s.cur with rxdata := b })) ∧
    (s.cur.rxEnabled = true → s.cur.full = false → ∃ st', exec (.rxc b) s = .next (s.setCur { s.cur with
        rxdata := b, st := st', head := (s.cur.head + 1) % s.cur.params.cap }) ∧
      Memory.read st' s.cur.head = some b ∧ (∀ a, a ≠ s.cur.head → Memory.read st' a = Memory.read s.cur.st a) ∧
      (s.cur.RingOk → ∀ t, exec (.rxc b) s = .next t → t.cur.count = s.cur.count + 1 ∧ t.cur.empty = false ∧
        (t.cur.full = true ↔ t.cur.count = t.cur.params.cap - 1)))

/-- RXC while not enabled (R191): the byte never reaches the block and nothing is latched; nothing of the state changes.
The enabling condition is the spec's decision D30; that the run goes on is the model's choice (log 3). -/
def Obligations.RxcIsLostWhileDisabled : Prop :=
  ∀ (b : Byte) (s : State), (testBit s.cur.control s.cur.params.bRxen = false ∨
    testBit s.cur.control s.cur.params.bRxcie = false) → exec (.rxc b) s = .next s

/-! ### Configuration -/

/-- BAUDSEL (R142) in integer arithmetic: `D(d) = ((((F_CLK / d) / baud - 1) mod 2^32) / 2) mod 2^16`. Where the quotient is
0 or the value does not fit 16 bits it rests on the spec's decision D17 (log 13). -/
def Obligations.DivisorCalculator : Prop :=
  ∀ (draw : Bool × Setting) (fclk : BitVec 32) (baud : Baud),
    let D := fun d : Nat => ((fclk.toNat / d / baud.toNat + (2 ^ 32 - 1)) % 2 ^ 32) / 2 % 2 ^ 16
    (baud = 0#32 → baudSel draw fclk baud = draw) ∧
    (baud ≠ 0#32 → baudSel draw fclk baud =
      if baud.toNat = 57600 ∨ 4095 < D 4 then (false, BitVec.ofNat 16 (D 8)) else (true, BitVec.ofNat 16 (D 4)))

/-- R144: 57600 always selects normal speed, for every clock; no other rate does so unless its double-speed setting exceeds
4095; and the rule's numbers at 16 MHz. -/
def Obligations.FixedRateForcesNormalSpeed : Prop :=
  ∀ (draw : Bool × Setting) (fclk : BitVec 32),
    (baudSel draw fclk 57600#32 = (false, div1x fclk 57600#32)) ∧
    (∀ baud, baud ≠ 57600#32 → baud ≠ 0#32 → div2x fclk baud ≤ 4095#16 → (baudSel draw fclk baud).1 = true) ∧
    baudSel draw 16000000#32 57600#32 = (false, 16#16) ∧ baudSel draw 16000000#32 57599#32 = (true, 34#16) ∧
    baudSel draw 16000000#32 57601#32 = (true, 34#16)

/-- R145: above 4095 the calculator retries once in normal speed and takes that setting unchecked; exactly 4095 is kept; and
the rule's numbers at 16 MHz. -/
def Obligations.LowRateRetriesOnce : Prop :=
  ∀ (draw : Bool × Setting) (fclk : BitVec 32),
    (∀ baud, baud ≠ 0#32 → 4095#16 < div2x fclk baud → baudSel draw fclk baud = (false, div1x fclk baud)) ∧
    (∀ baud, baud ≠ 0#32 → baud ≠ 57600#32 → div2x fclk baud = 4095#16 → baudSel draw fclk baud = (true, 4095#16)) ∧
    div2x 16000000#32 300#32 = 6666#16 ∧ baudSel draw 16000000#32 300#32 = (false, 3332#16) ∧
    div2x 16000000#32 110#32 = 18181#16 ∧ baudSel draw 16000000#32 110#32 = (false, 9090#16) ∧
    (9090#16).extractLsb' 8 8 = 0x23#8 ∧ (9090#16).extractLsb' 0 8 = 0x82#8 ∧
    baudSel draw 16000000#32 489#32 = (true, 4089#16) ∧
    div2x 16000000#32 488#32 = 4097#16 ∧ baudSel draw 16000000#32 488#32 = (false, 2048#16)

/-- BEGIN (R141): accepted in either channel state, it writes the setting's bytes, the double-speed bit and the three
enables, responds without a value, leaves every other bit and field, and the channel is active. The flag and setting are
BAUDSEL's for `baud` other than 0; for 0 they are some flag and some setting (a free value: R146, the spec's decision D18,
log 6), and the model's own draw counter moves. -/
def Obligations.BeginProgramsAndActivates : Prop :=
  ∀ (baud : Baud) (s : State), s.cur.fg = .idle → ∃ (u2x : Bool) (setting : Setting) (status' control' : Byte),
    (∀ draw, baud ≠ 0#32 → (u2x, setting) = baudSel draw s.cur.params.fclk baud) ∧
    exec (.beginCmd baud) s = .next (s.setCur { s.cur with
      ubrrh := setting.extractLsb' 8 8, ubrrl := setting.extractLsb' 0 8, status := status', control := control',
      rsp := .void,
      draws := if baud = 0#32 then s.cur.draws + 1 else s.cur.draws }) ∧
    (∀ i, testBit status' i = if i = s.cur.params.bU2x then u2x else testBit s.cur.status i) ∧
    (∀ i, testBit control' i = (decide (i = s.cur.params.bRxen ∨ i = s.cur.params.bTxen ∨ i = s.cur.params.bRxcie) ||
      testBit s.cur.control i)) ∧
    ∀ t, exec (.beginCmd baud) s = .next t → t.cur.active = true

/-- BEGIN twice with the same rate leaves the same state as once, for `baud` other than 0 (R141 b). -/
def Obligations.BeginIsIdempotent : Prop :=
  ∀ (baud : Baud) (s t : State), s.cur.fg = .idle → baud ≠ 0#32 → exec (.beginCmd baud) s = .next t →
    exec (.beginCmd baud) t = .next t

/-- END (R148): encoding, and in either channel state one step that clears the three enables, makes TAIL equal HEAD, responds
without a value and leaves every other bit and field; the channel is inactive and empty. -/
def Obligations.EndDeactivatesAndEmpties : Prop :=
  EncodesNoOperand 1#4 .endCmd ∧
  ∀ s : State, s.cur.fg = .idle → ∃ control',
    exec .endCmd s = .next (s.setCur { s.cur with
      control := control', tail := s.cur.head, rsp := .void }) ∧
    (∀ i, testBit control' i = (!decide (i = s.cur.params.bRxen ∨ i = s.cur.params.bTxen ∨ i = s.cur.params.bRxcie) &&
      testBit s.cur.control i)) ∧
    (s.cur.RingOk → ∀ t, exec .endCmd s = .next t → t.cur.active = false ∧ t.cur.count = 0 ∧ t.cur.empty = true ∧ t.cur.full = false)

/-- FLUSH (R149): encoding, and one step in either channel state that changes no state other than RSP. -/
def Obligations.FlushChangesOnlyTheResponse : Prop :=
  EncodesNoOperand 2#4 .flush ∧
  ∀ s : State, s.cur.fg = .idle →
    exec .flush s = .next (s.setCur { s.cur with rsp := .void })
end

