-- ==== Sys2Proof/Laws/Bits.lean ====
section
/-! SUPPORT. What SetBit and ClrBit do to each bit of a register (spec rule R8: one bit changes, no other), and the two
halves of the setting (rule R62). -/

namespace Sys2Proof
namespace Machine

@[simp] theorem testBit_withBitSet (r : Byte) (b i : Fin 8) :
    testBit (withBitSet r b) i = (decide (i = b) || testBit r i) := by
  obtain ⟨b, hb⟩ := b
  obtain ⟨i, hi⟩ := i
  simp only [testBit, withBitSet, BitVec.getLsbD_or, BitVec.getLsbD_shiftLeft, BitVec.getLsbD_one, Fin.mk.injEq]
  by_cases h : i = b
  · subst h; simp [hi]
  · have : ¬ (¬ i < b ∧ i - b = 0) := by omega
    simp only [h, decide_false, Bool.false_or]
    by_cases hlt : i < b
    · simp [hlt]
    · have : ¬ (i - b = 0) := by omega
      simp [this]

@[simp] theorem testBit_withBitClear (r : Byte) (b i : Fin 8) :
    testBit (withBitClear r b) i = (!decide (i = b) && testBit r i) := by
  obtain ⟨b, hb⟩ := b
  obtain ⟨i, hi⟩ := i
  simp only [testBit, withBitClear, BitVec.getLsbD_and, BitVec.getLsbD_not, BitVec.getLsbD_shiftLeft,
    BitVec.getLsbD_one, Fin.mk.injEq]
  by_cases h : i = b
  · subst h; simp [hi]
  · simp only [h, decide_false, Bool.not_false, Bool.true_and, hi, decide_true]
    by_cases hlt : i < b
    · simp [hlt]
    · have : ¬ (i - b = 0) := by omega
      simp [this]

/-- A register is its eight bits. -/
theorem eq_of_testBit_eq {r r' : Byte} (h : ∀ i, testBit r i = testBit r' i) : r = r' := by
  apply BitVec.eq_of_getLsbD_eq
  intro i hi
  exact h ⟨i, hi⟩

/-- The two bytes BEGIN writes are the setting's high and low half. -/
theorem highByte_append_lowByte (s : Setting) : highByte s ++ lowByte s = s := by
  apply BitVec.eq_of_getLsbD_eq
  intro i hi
  simp only [highByte, lowByte, BitVec.getLsbD_append, BitVec.getLsbD_extractLsb']
  by_cases h : i < 8
  · simp [h]
  · have h' : i - 8 < 8 := by omega
    have h'' : 8 + (i - 8) = i := by omega
    simp [h, h', h'']

end Machine
end Sys2Proof
end

