-- ==== Sys2Proof/Laws/State.lean ====
section
/-! SUPPORT. One lemma per field per update, so that no proof unfolds a record update: the channel operations field by field,
and the whole state's channel accessors (spec rule R43: replacing one channel leaves the other). -/

namespace Sys2Proof
namespace Machine

/-! ### setFG -/

@[simp] theorem setFG_params (f : FG) (ch : Channel) : (setFG f ch).params = ch.params := rfl
@[simp] theorem setFG_st (f : FG) (ch : Channel) : (setFG f ch).st = ch.st := rfl
@[simp] theorem setFG_stDraw (f : FG) (ch : Channel) : (setFG f ch).stDraw = ch.stDraw := rfl
@[simp] theorem setFG_head (f : FG) (ch : Channel) : (setFG f ch).head = ch.head := rfl
@[simp] theorem setFG_tail (f : FG) (ch : Channel) : (setFG f ch).tail = ch.tail := rfl
@[simp] theorem setFG_ubrrh (f : FG) (ch : Channel) : (setFG f ch).ubrrh = ch.ubrrh := rfl
@[simp] theorem setFG_ubrrl (f : FG) (ch : Channel) : (setFG f ch).ubrrl = ch.ubrrl := rfl
@[simp] theorem setFG_status (f : FG) (ch : Channel) : (setFG f ch).status = ch.status := rfl
@[simp] theorem setFG_control (f : FG) (ch : Channel) : (setFG f ch).control = ch.control := rfl
@[simp] theorem setFG_rxdata (f : FG) (ch : Channel) : (setFG f ch).rxdata = ch.rxdata := rfl
@[simp] theorem setFG_txdata (f : FG) (ch : Channel) : (setFG f ch).txdata = ch.txdata := rfl
@[simp] theorem setFG_fg (f : FG) (ch : Channel) : (setFG f ch).fg = f := rfl
@[simp] theorem setFG_fault (f : FG) (ch : Channel) : (setFG f ch).fault = ch.fault := rfl
@[simp] theorem setFG_fcmd (f : FG) (ch : Channel) : (setFG f ch).fcmd = ch.fcmd := rfl
@[simp] theorem setFG_rsp (f : FG) (ch : Channel) : (setFG f ch).rsp = ch.rsp := rfl
@[simp] theorem setFG_txlog (f : FG) (ch : Channel) : (setFG f ch).txlog = ch.txlog := rfl
@[simp] theorem setFG_draws (f : FG) (ch : Channel) : (setFG f ch).draws = ch.draws := rfl

/-! ### respondValue -/

@[simp] theorem respondValue_params (v : BitVec 16) (ch : Channel) : (respondValue v ch).params = ch.params := rfl
@[simp] theorem respondValue_st (v : BitVec 16) (ch : Channel) : (respondValue v ch).st = ch.st := rfl
@[simp] theorem respondValue_stDraw (v : BitVec 16) (ch : Channel) : (respondValue v ch).stDraw = ch.stDraw := rfl
@[simp] theorem respondValue_head (v : BitVec 16) (ch : Channel) : (respondValue v ch).head = ch.head := rfl
@[simp] theorem respondValue_tail (v : BitVec 16) (ch : Channel) : (respondValue v ch).tail = ch.tail := rfl
@[simp] theorem respondValue_ubrrh (v : BitVec 16) (ch : Channel) : (respondValue v ch).ubrrh = ch.ubrrh := rfl
@[simp] theorem respondValue_ubrrl (v : BitVec 16) (ch : Channel) : (respondValue v ch).ubrrl = ch.ubrrl := rfl
@[simp] theorem respondValue_status (v : BitVec 16) (ch : Channel) : (respondValue v ch).status = ch.status := rfl
@[simp] theorem respondValue_control (v : BitVec 16) (ch : Channel) : (respondValue v ch).control = ch.control := rfl
@[simp] theorem respondValue_rxdata (v : BitVec 16) (ch : Channel) : (respondValue v ch).rxdata = ch.rxdata := rfl
@[simp] theorem respondValue_txdata (v : BitVec 16) (ch : Channel) : (respondValue v ch).txdata = ch.txdata := rfl
@[simp] theorem respondValue_fg (v : BitVec 16) (ch : Channel) : (respondValue v ch).fg = ch.fg := rfl
@[simp] theorem respondValue_fault (v : BitVec 16) (ch : Channel) : (respondValue v ch).fault = ch.fault := rfl
@[simp] theorem respondValue_fcmd (v : BitVec 16) (ch : Channel) : (respondValue v ch).fcmd = ch.fcmd := rfl
@[simp] theorem respondValue_rsp (v : BitVec 16) (ch : Channel) : (respondValue v ch).rsp = { fault := 0#2, hasValue := true, value := v } := rfl
@[simp] theorem respondValue_txlog (v : BitVec 16) (ch : Channel) : (respondValue v ch).txlog = ch.txlog := rfl
@[simp] theorem respondValue_draws (v : BitVec 16) (ch : Channel) : (respondValue v ch).draws = ch.draws := rfl

/-! ### respondNone -/

@[simp] theorem respondNone_params (ch : Channel) : (respondNone ch).params = ch.params := rfl
@[simp] theorem respondNone_st (ch : Channel) : (respondNone ch).st = ch.st := rfl
@[simp] theorem respondNone_stDraw (ch : Channel) : (respondNone ch).stDraw = ch.stDraw := rfl
@[simp] theorem respondNone_head (ch : Channel) : (respondNone ch).head = ch.head := rfl
@[simp] theorem respondNone_tail (ch : Channel) : (respondNone ch).tail = ch.tail := rfl
@[simp] theorem respondNone_ubrrh (ch : Channel) : (respondNone ch).ubrrh = ch.ubrrh := rfl
@[simp] theorem respondNone_ubrrl (ch : Channel) : (respondNone ch).ubrrl = ch.ubrrl := rfl
@[simp] theorem respondNone_status (ch : Channel) : (respondNone ch).status = ch.status := rfl
@[simp] theorem respondNone_control (ch : Channel) : (respondNone ch).control = ch.control := rfl
@[simp] theorem respondNone_rxdata (ch : Channel) : (respondNone ch).rxdata = ch.rxdata := rfl
@[simp] theorem respondNone_txdata (ch : Channel) : (respondNone ch).txdata = ch.txdata := rfl
@[simp] theorem respondNone_fg (ch : Channel) : (respondNone ch).fg = ch.fg := rfl
@[simp] theorem respondNone_fault (ch : Channel) : (respondNone ch).fault = ch.fault := rfl
@[simp] theorem respondNone_fcmd (ch : Channel) : (respondNone ch).fcmd = ch.fcmd := rfl
@[simp] theorem respondNone_rsp (ch : Channel) : (respondNone ch).rsp = { fault := 0#2, hasValue := false, value := 0#16 } := rfl
@[simp] theorem respondNone_txlog (ch : Channel) : (respondNone ch).txlog = ch.txlog := rfl
@[simp] theorem respondNone_draws (ch : Channel) : (respondNone ch).draws = ch.draws := rfl

/-! ### emitTx -/

@[simp] theorem emitTx_params (b : Byte) (ch : Channel) : (emitTx b ch).params = ch.params := rfl
@[simp] theorem emitTx_st (b : Byte) (ch : Channel) : (emitTx b ch).st = ch.st := rfl
@[simp] theorem emitTx_stDraw (b : Byte) (ch : Channel) : (emitTx b ch).stDraw = ch.stDraw := rfl
@[simp] theorem emitTx_head (b : Byte) (ch : Channel) : (emitTx b ch).head = ch.head := rfl
@[simp] theorem emitTx_tail (b : Byte) (ch : Channel) : (emitTx b ch).tail = ch.tail := rfl
@[simp] theorem emitTx_ubrrh (b : Byte) (ch : Channel) : (emitTx b ch).ubrrh = ch.ubrrh := rfl
@[simp] theorem emitTx_ubrrl (b : Byte) (ch : Channel) : (emitTx b ch).ubrrl = ch.ubrrl := rfl
@[simp] theorem emitTx_status (b : Byte) (ch : Channel) : (emitTx b ch).status = ch.status := rfl
@[simp] theorem emitTx_control (b : Byte) (ch : Channel) : (emitTx b ch).control = ch.control := rfl
@[simp] theorem emitTx_rxdata (b : Byte) (ch : Channel) : (emitTx b ch).rxdata = ch.rxdata := rfl
@[simp] theorem emitTx_txdata (b : Byte) (ch : Channel) : (emitTx b ch).txdata = ch.txdata := rfl
@[simp] theorem emitTx_fg (b : Byte) (ch : Channel) : (emitTx b ch).fg = ch.fg := rfl
@[simp] theorem emitTx_fault (b : Byte) (ch : Channel) : (emitTx b ch).fault = ch.fault := rfl
@[simp] theorem emitTx_fcmd (b : Byte) (ch : Channel) : (emitTx b ch).fcmd = ch.fcmd := rfl
@[simp] theorem emitTx_rsp (b : Byte) (ch : Channel) : (emitTx b ch).rsp = ch.rsp := rfl
@[simp] theorem emitTx_txlog (b : Byte) (ch : Channel) : (emitTx b ch).txlog = ch.txlog ++ [b] := rfl
@[simp] theorem emitTx_draws (b : Byte) (ch : Channel) : (emitTx b ch).draws = ch.draws := rfl

/-! ### countDraw -/

@[simp] theorem countDraw_params (ch : Channel) : (countDraw ch).params = ch.params := rfl
@[simp] theorem countDraw_st (ch : Channel) : (countDraw ch).st = ch.st := rfl
@[simp] theorem countDraw_stDraw (ch : Channel) : (countDraw ch).stDraw = ch.stDraw := rfl
@[simp] theorem countDraw_head (ch : Channel) : (countDraw ch).head = ch.head := rfl
@[simp] theorem countDraw_tail (ch : Channel) : (countDraw ch).tail = ch.tail := rfl
@[simp] theorem countDraw_ubrrh (ch : Channel) : (countDraw ch).ubrrh = ch.ubrrh := rfl
@[simp] theorem countDraw_ubrrl (ch : Channel) : (countDraw ch).ubrrl = ch.ubrrl := rfl
@[simp] theorem countDraw_status (ch : Channel) : (countDraw ch).status = ch.status := rfl
@[simp] theorem countDraw_control (ch : Channel) : (countDraw ch).control = ch.control := rfl
@[simp] theorem countDraw_rxdata (ch : Channel) : (countDraw ch).rxdata = ch.rxdata := rfl
@[simp] theorem countDraw_txdata (ch : Channel) : (countDraw ch).txdata = ch.txdata := rfl
@[simp] theorem countDraw_fg (ch : Channel) : (countDraw ch).fg = ch.fg := rfl
@[simp] theorem countDraw_fault (ch : Channel) : (countDraw ch).fault = ch.fault := rfl
@[simp] theorem countDraw_fcmd (ch : Channel) : (countDraw ch).fcmd = ch.fcmd := rfl
@[simp] theorem countDraw_rsp (ch : Channel) : (countDraw ch).rsp = ch.rsp := rfl
@[simp] theorem countDraw_txlog (ch : Channel) : (countDraw ch).txlog = ch.txlog := rfl
@[simp] theorem countDraw_draws (ch : Channel) : (countDraw ch).draws = ch.draws + 1 := rfl

/-! ### ringClear -/

@[simp] theorem ringClear_params (hs : Nat) (ch : Channel) : (ringClear hs ch).params = ch.params := rfl
@[simp] theorem ringClear_st (hs : Nat) (ch : Channel) : (ringClear hs ch).st = ch.st := rfl
@[simp] theorem ringClear_stDraw (hs : Nat) (ch : Channel) : (ringClear hs ch).stDraw = ch.stDraw := rfl
@[simp] theorem ringClear_head (hs : Nat) (ch : Channel) : (ringClear hs ch).head = ch.head := rfl
@[simp] theorem ringClear_tail (hs : Nat) (ch : Channel) : (ringClear hs ch).tail = hs := rfl
@[simp] theorem ringClear_ubrrh (hs : Nat) (ch : Channel) : (ringClear hs ch).ubrrh = ch.ubrrh := rfl
@[simp] theorem ringClear_ubrrl (hs : Nat) (ch : Channel) : (ringClear hs ch).ubrrl = ch.ubrrl := rfl
@[simp] theorem ringClear_status (hs : Nat) (ch : Channel) : (ringClear hs ch).status = ch.status := rfl
@[simp] theorem ringClear_control (hs : Nat) (ch : Channel) : (ringClear hs ch).control = ch.control := rfl
@[simp] theorem ringClear_rxdata (hs : Nat) (ch : Channel) : (ringClear hs ch).rxdata = ch.rxdata := rfl
@[simp] theorem ringClear_txdata (hs : Nat) (ch : Channel) : (ringClear hs ch).txdata = ch.txdata := rfl
@[simp] theorem ringClear_fg (hs : Nat) (ch : Channel) : (ringClear hs ch).fg = ch.fg := rfl
@[simp] theorem ringClear_fault (hs : Nat) (ch : Channel) : (ringClear hs ch).fault = ch.fault := rfl
@[simp] theorem ringClear_fcmd (hs : Nat) (ch : Channel) : (ringClear hs ch).fcmd = ch.fcmd := rfl
@[simp] theorem ringClear_rsp (hs : Nat) (ch : Channel) : (ringClear hs ch).rsp = ch.rsp := rfl
@[simp] theorem ringClear_txlog (hs : Nat) (ch : Channel) : (ringClear hs ch).txlog = ch.txlog := rfl
@[simp] theorem ringClear_draws (hs : Nat) (ch : Channel) : (ringClear hs ch).draws = ch.draws := rfl

/-! ### raiseFault -/

@[simp] theorem raiseFault_params (code : BitVec 2) (k : CommandWord) (ch : Channel) : (raiseFault code k ch).params = ch.params := rfl
@[simp] theorem raiseFault_st (code : BitVec 2) (k : CommandWord) (ch : Channel) : (raiseFault code k ch).st = ch.st := rfl
@[simp] theorem raiseFault_stDraw (code : BitVec 2) (k : CommandWord) (ch : Channel) : (raiseFault code k ch).stDraw = ch.stDraw := rfl
@[simp] theorem raiseFault_head (code : BitVec 2) (k : CommandWord) (ch : Channel) : (raiseFault code k ch).head = ch.head := rfl
@[simp] theorem raiseFault_tail (code : BitVec 2) (k : CommandWord) (ch : Channel) : (raiseFault code k ch).tail = ch.tail := rfl
@[simp] theorem raiseFault_ubrrh (code : BitVec 2) (k : CommandWord) (ch : Channel) : (raiseFault code k ch).ubrrh = ch.ubrrh := rfl
@[simp] theorem raiseFault_ubrrl (code : BitVec 2) (k : CommandWord) (ch : Channel) : (raiseFault code k ch).ubrrl = ch.ubrrl := rfl
@[simp] theorem raiseFault_status (code : BitVec 2) (k : CommandWord) (ch : Channel) : (raiseFault code k ch).status = ch.status := rfl
@[simp] theorem raiseFault_control (code : BitVec 2) (k : CommandWord) (ch : Channel) : (raiseFault code k ch).control = ch.control := rfl
@[simp] theorem raiseFault_rxdata (code : BitVec 2) (k : CommandWord) (ch : Channel) : (raiseFault code k ch).rxdata = ch.rxdata := rfl
@[simp] theorem raiseFault_txdata (code : BitVec 2) (k : CommandWord) (ch : Channel) : (raiseFault code k ch).txdata = ch.txdata := rfl
@[simp] theorem raiseFault_fg (code : BitVec 2) (k : CommandWord) (ch : Channel) : (raiseFault code k ch).fg = .halted := rfl
@[simp] theorem raiseFault_fault (code : BitVec 2) (k : CommandWord) (ch : Channel) : (raiseFault code k ch).fault = code := rfl
@[simp] theorem raiseFault_fcmd (code : BitVec 2) (k : CommandWord) (ch : Channel) : (raiseFault code k ch).fcmd = k := rfl
@[simp] theorem raiseFault_rsp (code : BitVec 2) (k : CommandWord) (ch : Channel) : (raiseFault code k ch).rsp = { fault := code, hasValue := false, value := 0#16 } := rfl
@[simp] theorem raiseFault_txlog (code : BitVec 2) (k : CommandWord) (ch : Channel) : (raiseFault code k ch).txlog = ch.txlog := rfl
@[simp] theorem raiseFault_draws (code : BitVec 2) (k : CommandWord) (ch : Channel) : (raiseFault code k ch).draws = ch.draws := rfl

/-! ### txReady -/

@[simp] theorem txReady_params (ch : Channel) : (txReady ch).params = ch.params := rfl
@[simp] theorem txReady_st (ch : Channel) : (txReady ch).st = ch.st := rfl
@[simp] theorem txReady_stDraw (ch : Channel) : (txReady ch).stDraw = ch.stDraw := rfl
@[simp] theorem txReady_head (ch : Channel) : (txReady ch).head = ch.head := rfl
@[simp] theorem txReady_tail (ch : Channel) : (txReady ch).tail = ch.tail := rfl
@[simp] theorem txReady_ubrrh (ch : Channel) : (txReady ch).ubrrh = ch.ubrrh := rfl
@[simp] theorem txReady_ubrrl (ch : Channel) : (txReady ch).ubrrl = ch.ubrrl := rfl
@[simp] theorem txReady_status (ch : Channel) : (txReady ch).status = withBitSet ch.status ch.params.bUdre := rfl
@[simp] theorem txReady_control (ch : Channel) : (txReady ch).control = ch.control := rfl
@[simp] theorem txReady_rxdata (ch : Channel) : (txReady ch).rxdata = ch.rxdata := rfl
@[simp] theorem txReady_txdata (ch : Channel) : (txReady ch).txdata = ch.txdata := rfl
@[simp] theorem txReady_fg (ch : Channel) : (txReady ch).fg = ch.fg := rfl
@[simp] theorem txReady_fault (ch : Channel) : (txReady ch).fault = ch.fault := rfl
@[simp] theorem txReady_fcmd (ch : Channel) : (txReady ch).fcmd = ch.fcmd := rfl
@[simp] theorem txReady_rsp (ch : Channel) : (txReady ch).rsp = ch.rsp := rfl
@[simp] theorem txReady_txlog (ch : Channel) : (txReady ch).txlog = ch.txlog := rfl
@[simp] theorem txReady_draws (ch : Channel) : (txReady ch).draws = ch.draws := rfl

/-! ### regWrite -/

@[simp] theorem regWrite_ubrrh (v : Byte) (ch : Channel) : regWrite .ubrrh v ch = { ch with ubrrh := v } := rfl

@[simp] theorem regWrite_ubrrl (v : Byte) (ch : Channel) : regWrite .ubrrl v ch = { ch with ubrrl := v } := rfl

@[simp] theorem regWrite_status (v : Byte) (ch : Channel) : regWrite .status v ch = { ch with status := v } := rfl

@[simp] theorem regWrite_control (v : Byte) (ch : Channel) : regWrite .control v ch = { ch with control := v } := rfl

@[simp] theorem regWrite_data (v : Byte) (ch : Channel) : regWrite .data v ch = { ch with txdata := v, status := withBitClear ch.status ch.params.bUdre } := rfl

@[simp] theorem regRead_ubrrh (ch : Channel) : regRead .ubrrh ch = ch.ubrrh := rfl

@[simp] theorem regRead_ubrrl (ch : Channel) : regRead .ubrrl ch = ch.ubrrl := rfl

@[simp] theorem regRead_status (ch : Channel) : regRead .status ch = ch.status := rfl

@[simp] theorem regRead_control (ch : Channel) : regRead .control ch = ch.control := rfl

@[simp] theorem regRead_data (ch : Channel) : regRead .data ch = ch.rxdata := rfl

/-! ### The whole state -/

@[simp] theorem setChan_chan_same (s : State) (c : Chan) (ch : Channel) : (s.setChan c ch).chan c = ch := by
  cases c <;> rfl

theorem setChan_chan_other (s : State) {c c' : Chan} (ch : Channel) (h : c' ≠ c) :
    (s.setChan c ch).chan c' = s.chan c' := by
  cases c <;> cases c' <;> first | rfl | exact absurd rfl h

@[simp] theorem setChan_chan (s : State) (c c' : Chan) (ch : Channel) :
    (s.setChan c ch).chan c' = if c' = c then ch else s.chan c' := by
  cases c <;> cases c' <;> rfl

@[simp] theorem setChan_sel (s : State) (c : Chan) (ch : Channel) : (s.setChan c ch).sel = s.sel := by cases c <;> rfl
@[simp] theorem setChan_inbox (s : State) (c : Chan) (ch : Channel) : (s.setChan c ch).inbox = s.inbox := by
  cases c <;> rfl
@[simp] theorem setChan_ringOut (s : State) (c : Chan) (ch : Channel) : (s.setChan c ch).ringOut = s.ringOut := by
  cases c <;> rfl
@[simp] theorem setChan_self (s : State) (c : Chan) : s.setChan c (s.chan c) = s := by cases c <;> rfl

@[simp] theorem select_chan (s : State) (c c' : Chan) : (s.select c).chan c' = s.chan c' := by cases c' <;> rfl
@[simp] theorem select_sel (s : State) (c : Chan) : (s.select c).sel = c := rfl
@[simp] theorem select_inbox (s : State) (c : Chan) : (s.select c).inbox = s.inbox := rfl
@[simp] theorem select_ringOut (s : State) (c : Chan) : (s.select c).ringOut = s.ringOut := rfl
@[simp] theorem select_cur (s : State) (c : Chan) : (s.select c).cur = s.chan c := by cases c <;> rfl

@[simp] theorem setCur_cur (s : State) (ch : Channel) : (s.setCur ch).cur = ch := by
  simp only [State.cur, State.setCur, setChan_sel, setChan_chan_same]
@[simp] theorem setCur_chan (s : State) (c : Chan) (ch : Channel) :
    (s.setCur ch).chan c = if c = s.sel then ch else s.chan c := setChan_chan s s.sel c ch
@[simp] theorem setCur_sel (s : State) (ch : Channel) : (s.setCur ch).sel = s.sel := setChan_sel s _ ch
@[simp] theorem setCur_inbox (s : State) (ch : Channel) : (s.setCur ch).inbox = s.inbox := setChan_inbox s _ ch
@[simp] theorem setCur_ringOut (s : State) (ch : Channel) : (s.setCur ch).ringOut = s.ringOut := setChan_ringOut s _ ch
@[simp] theorem setCur_self (s : State) : s.setCur s.cur = s := setChan_self s s.sel

@[simp] theorem withRingOut_chan (s : State) (r : RingResult) (c : Chan) : (s.withRingOut r).chan c = s.chan c := by
  cases c <;> rfl
@[simp] theorem withRingOut_sel (s : State) (r : RingResult) : (s.withRingOut r).sel = s.sel := rfl
@[simp] theorem withRingOut_inbox (s : State) (r : RingResult) : (s.withRingOut r).inbox = s.inbox := rfl
@[simp] theorem withRingOut_ringOut (s : State) (r : RingResult) : (s.withRingOut r).ringOut = r := rfl
@[simp] theorem withRingOut_cur (s : State) (r : RingResult) : (s.withRingOut r).cur = s.cur := withRingOut_chan s r s.sel
@[simp] theorem withInbox_chan (s : State) (xs : List Stimulus) (c : Chan) :
    State.chan { s with inbox := xs } c = s.chan c := by cases c <;> rfl

end Machine
end Sys2Proof
end

