-- ==== Sys2Proof/Laws/Channel.lean ====
section
/-! SUPPORT. What one stimulus does to one channel, as a function of that channel alone (spec rules R6, R43, R216: the
hardware is two copies of the one-channel machine), and the lemma every claim about a step cites: when a step answers
next, each channel is what this function says. -/

namespace Sys2Proof
namespace Machine

/-- The ACCEPT step of a legal command on an idle channel. -/
def acceptOf (c : Chan) (i : Instr) (ch : Channel) : Channel :=
  match i with
  | .beginCmd baud => acceptBegin c baud ch
  | .endCmd => acceptEnd ch
  | .flush => acceptFlush ch
  | .available => acceptConsumer .available ch
  | .clear => acceptConsumer .clear ch
  | .peek => acceptConsumer .peek ch
  | .read => acceptConsumer .read ch
  | .write b => acceptWrite b ch
  | _ => ch

/-- The COMMIT of a consumer command, before `FG <- IDLE`. -/
def commitOf (op : ConsumerOp) (hs : Nat) (ch : Channel) : Channel :=
  match op with
  | .available => commitAvailable hs ch
  | .clear => commitClear hs ch
  | .peek => commitPeek hs ch
  | .read => commitRead hs ch

/-- A command word at the command port. -/
def commandMove (c : Chan) (k : CommandWord) (ch : Channel) : Channel :=
  if ch.fg = .idle then
    match decodeCommand k with
    | .instr i => acceptOf c i ch
    | .rejected _ => raiseFault codeIllegalCommand k ch
  else ch

/-- A move of the sequencer. -/
def advanceMove (ch : Channel) : Channel :=
  match ch.fg with
  | .idle => ch
  | .sampled op hs => setFG .idle (commitOf op hs ch)
  | .poll b => pollStep b ch
  | .halted => ch

/-- A word at the event port. -/
def eventMove (v : EventWord) (ch : Channel) : Channel :=
  match decodeEvent v with
  | .instr (.rxc b) => if ch.rxEnabled then receiveByte b ch else ch
  | _ => ch

/-- A word at the internal ring-buffer port; none where it is reserved. -/
def ringMove (u : RingWord) (ch : Channel) : Option Channel :=
  match decodeRing u with
  | .instr (.rbPush b) => some (ringPush b ch)
  | .instr .rbPop => some (ringPop (latchedHead ch) ch).2
  | .instr .rbPeek => some ch
  | .instr .rbCount => some ch
  | .instr .rbClear => some (ringClear (latchedHead ch) ch)
  | _ => none

/-- Channel `c` after one stimulus; none where the machine stops, at a reserved word of the internal port. -/
def channelMove (c : Chan) (x : Stimulus) (ch : Channel) : Option Channel :=
  match x with
  | .command c' k => if c' = c then some (commandMove c k ch) else some ch
  | .advance c' => if c' = c then some (advanceMove ch) else some ch
  | .event c' v => if c' = c then some (eventMove v ch) else some ch
  | .txrdy c' => if c' = c then some (txReady ch) else some ch
  | .reset => some (resetOne c ch)
  | .ringPort c' u => if c' = c then ringMove u ch else some ch

@[simp] theorem channelMove_command (c : Chan) (k : CommandWord) (ch : Channel) :
    channelMove c (.command c k) ch = some (commandMove c k ch) := if_pos rfl
@[simp] theorem channelMove_advance (c : Chan) (ch : Channel) : channelMove c (.advance c) ch = some (advanceMove ch) :=
  if_pos rfl
@[simp] theorem channelMove_event (c : Chan) (v : EventWord) (ch : Channel) :
    channelMove c (.event c v) ch = some (eventMove v ch) := if_pos rfl
@[simp] theorem channelMove_txrdy (c : Chan) (ch : Channel) : channelMove c (.txrdy c) ch = some (txReady ch) :=
  if_pos rfl
@[simp] theorem channelMove_ringPort (c : Chan) (u : RingWord) (ch : Channel) :
    channelMove c (.ringPort c u) ch = ringMove u ch := if_pos rfl

/-- A stimulus that does not reach a channel leaves it (R43). -/
theorem channelMove_other {c : Chan} {x : Stimulus} (h : x.reaches c = false) (ch : Channel) :
    channelMove c x ch = some ch := by
  cases x <;> simp_all [Stimulus.reaches, channelMove]

/-! ### Which words decode to what on which port -/

theorem decodeCommand_port {k : CommandWord} {i : Instr} (h : decodeCommand k = .instr i) : i.port = .command := by
  simp only [decodeCommand, decodeNoOperand] at h
  split_ifs at h <;> cases h <;> rfl

theorem decodeEvent_port {v : EventWord} {i : Instr} (h : decodeEvent v = .instr i) : ∃ b, i = .rxc b := by
  simp only [decodeEvent] at h
  split_ifs at h
  cases h; exact ⟨_, rfl⟩

theorem decodeRing_port {u : RingWord} {i : Instr} (h : decodeRing u = .instr i) : i.port = .ring := by
  simp only [decodeRing, decodeNoData] at h
  split_ifs at h <;> cases h <;> rfl

/-! ### One meaning at a time -/

@[simp] theorem acceptInOneStep_idle {f : Channel → Channel} {s : State} (h : s.cur.fg = .idle) :
    acceptInOneStep f s = .next (s.setCur (f s.cur)) := by
  simp only [acceptInOneStep, h, stepChannel]

theorem acceptInOneStep_busy {f : Channel → Channel} {s : State} (h : s.cur.fg ≠ .idle) :
    acceptInOneStep f s = .next s := by
  unfold acceptInOneStep
  split <;> first | rfl | contradiction

@[simp] theorem consumerCommand_idle {op : ConsumerOp} {commit : Nat → Channel → Channel} {s : State}
    (h : s.cur.fg = .idle) : consumerCommand op commit s = .next (s.setCur (acceptConsumer op s.cur)) := by
  simp only [consumerCommand, h, stepChannel]

theorem consumerCommand_sampled {op : ConsumerOp} {hs : Nat} {commit : Nat → Channel → Channel} {s : State}
    (h : s.cur.fg = .sampled op hs) :
    consumerCommand op commit s = .next (s.setCur (setFG .idle (commit hs s.cur))) := by
  unfold consumerCommand
  rw [h]
  exact if_pos rfl

theorem execWrite_idle {b : Byte} {s : State} (h : s.cur.fg = .idle) :
    execWrite b s = .next (s.setCur (acceptWrite b s.cur)) := by
  simp only [execWrite, h, stepChannel]

/-- ACCEPT: on an idle channel, a command of the command port does `acceptOf`. -/
theorem exec_command_idle {i : Instr} (hi : i.port = .command) {s : State} (h : s.cur.fg = .idle) :
    exec i s = .next (s.setCur (acceptOf s.sel i s.cur)) := by
  cases i <;> simp only [Instr.port, reduceCtorEq] at hi
  case beginCmd baud => exact acceptInOneStep_idle h
  case endCmd => exact acceptInOneStep_idle h
  case flush => exact acceptInOneStep_idle h
  case available => exact consumerCommand_idle (op := .available) (commit := commitAvailable) h
  case clear => exact consumerCommand_idle (op := .clear) (commit := commitClear) h
  case peek => exact consumerCommand_idle (op := .peek) (commit := commitPeek) h
  case read => exact consumerCommand_idle (op := .read) (commit := commitRead) h
  case write b => exact execWrite_idle h

/-- COMMIT: on a channel that holds the command's sample, the command does `commitOf` and returns to IDLE. -/
theorem exec_consumer_sampled {op : ConsumerOp} {hs : Nat} {s : State} (h : s.cur.fg = .sampled op hs) :
    exec op.instr s = .next (s.setCur (setFG .idle (commitOf op hs s.cur))) := by
  cases op
  · exact consumerCommand_sampled (commit := commitAvailable) h
  · exact consumerCommand_sampled (commit := commitClear) h
  · exact consumerCommand_sampled (commit := commitPeek) h
  · exact consumerCommand_sampled (commit := commitRead) h

/-- POLL. -/
theorem exec_write_poll {b : Byte} {s : State} (h : s.cur.fg = .poll b) :
    exec (.write b) s = .next (s.setCur (pollStep b s.cur)) := by
  simp [exec, execWrite, h, stepChannel]

theorem exec_rxc (b : Byte) (s : State) :
    exec (.rxc b) s = .next (if s.cur.rxEnabled then s.setCur (receiveByte b s.cur) else s) := by
  simp only [exec, execRxc, stepChannel, noStep]
  split_ifs <;> rfl

/-! ### `serve` is the product of the two one-channel moves -/

/-- The next state of a step that belongs to channel `c` and leaves it as `ch`. -/
theorem next_of_select {s : State} {c : Chan} {x : Stimulus} {ch : Channel} {t : State}
    (ht : ∀ c', t.chan c' = if c' = c then ch else s.chan c') (hin : t.inbox = s.inbox)
    (hreach : ∀ c', c' ≠ c → x.reaches c' = false) (hmove : channelMove c x (s.chan c) = some ch) :
    t.inbox = s.inbox ∧ ∀ c', channelMove c' x (s.chan c') = some (t.chan c') := by
  refine ⟨hin, fun c' => ?_⟩
  rw [ht c']
  by_cases hc : c' = c
  · subst hc; simpa using hmove
  · simp only [hc, if_false]; exact channelMove_other (hreach c' hc) _

/-- A step answers next exactly when both one-channel moves do, and then each channel is what its move says. -/
theorem serve_product (x : Stimulus) (s : State) :
    (∃ t, serve x s = .next t ∧ t.inbox = s.inbox ∧ ∀ c, channelMove c x (s.chan c) = some (t.chan c)) ∨
      ((∀ t, serve x s ≠ .next t) ∧ ∃ c, channelMove c x (s.chan c) = none) := by
  cases x with
  | command c k =>
    left
    have hreach : ∀ c', c' ≠ c → (Stimulus.command c k).reaches c' = false := by
      intro c' h; simp [Stimulus.reaches, Ne.symm h]
    simp only [serve, serveCommand, commandPortOpen, select_cur, decide_eq_true_eq, decode]
    by_cases hfg : (s.chan c).fg = .idle
    · rw [if_pos hfg]
      cases hk : decodeCommand k with
      | instr i =>
        refine ⟨_, exec_command_idle (decodeCommand_port hk) (by simpa using hfg), ?_⟩
        exact next_of_select (ch := acceptOf c i (s.chan c)) (by simp) (by simp) hreach (by simp [commandMove, hfg, hk])
      | rejected why =>
        refine ⟨_, rfl, ?_⟩
        exact next_of_select (ch := raiseFault codeIllegalCommand k (s.chan c)) (by simp) (by simp) hreach
          (by simp [commandMove, hfg, hk])
    · rw [if_neg hfg]
      refine ⟨_, rfl, ?_⟩
      exact next_of_select (c := c) (ch := s.chan c) (by simp +contextual) (by simp) hreach (by simp [commandMove, hfg])
  | advance c =>
    have hreach : ∀ c', c' ≠ c → (Stimulus.advance c).reaches c' = false := by
      intro c' h; simp [Stimulus.reaches, Ne.symm h]
    simp only [serve, serveAdvance, select_cur]
    cases hfg : (s.chan c).fg with
    | idle =>
      left; refine ⟨_, rfl, ?_⟩
      exact next_of_select (c := c) (ch := s.chan c) (by simp +contextual) (by simp) hreach (by simp [advanceMove, hfg])
    | halted =>
      left; refine ⟨_, rfl, ?_⟩
      exact next_of_select (c := c) (ch := s.chan c) (by simp +contextual) (by simp) hreach (by simp [advanceMove, hfg])
    | poll b =>
      left; refine ⟨_, exec_write_poll (by simpa using hfg), ?_⟩
      exact next_of_select (ch := pollStep b (s.chan c)) (by simp) (by simp) hreach (by simp [advanceMove, hfg])
    | sampled op hs =>
      left; refine ⟨_, exec_consumer_sampled (by simpa using hfg), ?_⟩
      exact next_of_select (ch := setFG .idle (commitOf op hs (s.chan c))) (by simp) (by simp) hreach
        (by simp [advanceMove, hfg])
  | event c v =>
    left
    have hreach : ∀ c', c' ≠ c → (Stimulus.event c v).reaches c' = false := by
      intro c' h; simp [Stimulus.reaches, Ne.symm h]
    simp only [serve, serveEvent, decode]
    cases hv : decodeEvent v with
    | instr i =>
      obtain ⟨b, rfl⟩ := decodeEvent_port hv
      refine ⟨_, exec_rxc b _, ?_⟩
      by_cases hrx : (s.chan c).rxEnabled
      · exact next_of_select (ch := receiveByte b (s.chan c)) (by simp [hrx]) (by simp [hrx]) hreach
          (by simp [eventMove, hv, hrx])
      · exact next_of_select (c := c) (ch := s.chan c) (by simp +contextual [hrx]) (by simp [hrx]) hreach
          (by simp [eventMove, hv, hrx])
    | rejected why =>
      refine ⟨_, rfl, ?_⟩
      exact next_of_select (c := c) (ch := s.chan c) (by simp +contextual) (by simp) hreach (by simp [eventMove, hv])
  | txrdy c =>
    left; refine ⟨_, rfl, ?_⟩
    exact next_of_select (c := c) (ch := txReady (s.chan c)) (by simp) (by simp)
      (by intro c' h; simp [Stimulus.reaches, Ne.symm h]) (by simp)
  | reset => left; exact ⟨_, rfl, rfl, fun c => by cases c <;> rfl⟩
  | ringPort c u =>
    have hreach : ∀ c', c' ≠ c → (Stimulus.ringPort c u).reaches c' = false := by
      intro c' h; simp [Stimulus.reaches, Ne.symm h]
    simp only [serve, serveRingPort, decode]
    cases hu : decodeRing u with
    | rejected why => right; exact ⟨by simp, c, by simp [ringMove, hu]⟩
    | instr i =>
      have hp := decodeRing_port hu
      cases i <;> simp only [Instr.port, reduceCtorEq] at hp
      case rbPush b =>
        left; refine ⟨_, rfl, ?_⟩
        exact next_of_select (ch := ringPush b (s.chan c)) (by simp) (by simp) hreach (by simp [ringMove, hu])
      case rbPop =>
        left; refine ⟨_, rfl, ?_⟩
        exact next_of_select (ch := (ringPop (latchedHead (s.chan c)) (s.chan c)).2) (by simp) (by simp) hreach
          (by simp [ringMove, hu])
      case rbPeek =>
        left; refine ⟨_, rfl, ?_⟩
        exact next_of_select (c := c) (ch := s.chan c) (by simp +contextual) (by simp) hreach (by simp [ringMove, hu])
      case rbCount =>
        left; refine ⟨_, rfl, ?_⟩
        exact next_of_select (c := c) (ch := s.chan c) (by simp +contextual) (by simp) hreach (by simp [ringMove, hu])
      case rbClear =>
        left; refine ⟨_, rfl, ?_⟩
        exact next_of_select (ch := ringClear (latchedHead (s.chan c)) (s.chan c)) (by simp) (by simp) hreach
          (by simp [ringMove, hu])

theorem serve_next {x : Stimulus} {s t : State} (h : serve x s = .next t) :
    t.inbox = s.inbox ∧ ∀ c, channelMove c x (s.chan c) = some (t.chan c) := by
  rcases serve_product x s with ⟨t', ht', hin, hmove⟩ | ⟨hno, -⟩
  · rw [h] at ht'; cases ht'; exact ⟨hin, hmove⟩
  · exact absurd h (hno t)

theorem serve_exists_next {x : Stimulus} {s : State} (h : ∀ c, channelMove c x (s.chan c) ≠ none) :
    ∃ t, serve x s = .next t := by
  rcases serve_product x s with ⟨t', ht', -⟩ | ⟨-, c, hc⟩
  · exact ⟨t', ht'⟩
  · exact absurd hc (h c)

/-- Every field a step could depend on but the environment's list: the parameters are in range, and the step took the
first stimulus or there was none. -/
theorem step_next {s t : State} (h : step s = .next t) : parametersInRange s = true ∧
    ((s.inbox = [] ∧ t = s) ∨ ∃ x rest, s.inbox = x :: rest ∧ t.inbox = rest ∧
      ∀ c, channelMove c x (s.chan c) = some (t.chan c)) := by
  unfold step takeTurn at h
  split_ifs at h with hp
  refine ⟨hp, ?_⟩
  cases hin : s.inbox with
  | nil => simp only [hin, noStep] at h; cases h; exact .inl ⟨rfl, rfl⟩
  | cons x rest =>
    simp only [hin] at h
    obtain ⟨h1, h2⟩ := serve_next h
    exact .inr ⟨x, rest, rfl, h1, fun c => by simpa using h2 c⟩

theorem step_exists_next {s : State} (hp : parametersInRange s = true)
    (h : ∀ x rest, s.inbox = x :: rest → ∀ c, channelMove c x (s.chan c) ≠ none) : ∃ t, step s = .next t := by
  unfold step takeTurn
  rw [if_pos hp]
  cases hin : s.inbox with
  | nil => exact ⟨s, rfl⟩
  | cons x rest => exact serve_exists_next (fun c => by simpa using h x rest hin c)

end Machine
end Sys2Proof
end

