-- ==== Sys2Proof/Laws/Encoding.lean ====
section
/-! SUPPORT. The fields of the words (spec rules R91 to R95): taking a word apart and putting it together, and what the
mask and pattern of a row (rules R93 to R95) say of the fields. -/

namespace Sys2Proof

/-! ### Fields -/

/-- Field `op` of a command word. -/
theorem opField_commandWord (op : BitVec 4) (arg : BitVec 32) : opField (commandWord op arg) = op := by
  simp only [opField, commandWord]
  apply BitVec.eq_of_getLsbD_eq
  intro i hi
  simp only [BitVec.getLsbD_extractLsb', BitVec.getLsbD_append]
  have h : ¬ (32 + i < 32) := by omega
  have h2 : 32 + i - 32 = i := by omega
  simp [hi, h2]

/-- Field `arg` of a command word. -/
theorem argField_commandWord (op : BitVec 4) (arg : BitVec 32) : argField (commandWord op arg) = arg := by
  simp only [argField, commandWord]
  apply BitVec.eq_of_getLsbD_eq
  intro i hi
  simp only [BitVec.getLsbD_extractLsb', BitVec.getLsbD_append]
  simp [hi]

/-- The low byte of a word. -/
theorem append_low_byte {n : Nat} (x : BitVec n) (b : Byte) : (x ++ b).extractLsb' 0 8 = b := by
  apply BitVec.eq_of_getLsbD_eq
  intro i hi
  simp [BitVec.getLsbD_append, hi]

/-- The field above the low byte. -/
theorem append_high_field {n : Nat} (x : BitVec n) (b : Byte) : (x ++ b).extractLsb' 8 n = x := by
  apply BitVec.eq_of_getLsbD_eq
  intro i hi
  have h : ¬ (8 + i < 8) := by omega
  have h2 : 8 + i - 8 = i := by omega
  simp [BitVec.getLsbD_append, hi, h2]

theorem padded_high (b : Byte) : (0#24 ++ b : BitVec 32).extractLsb' 8 24 = 0#24 := append_high_field (n := 24) 0#24 b

theorem padded_low (b : Byte) : (0#24 ++ b : BitVec 32).extractLsb' 0 8 = b := append_low_byte (n := 24) 0#24 b

/-- A command word is its two fields. -/
theorem commandWord_fields (k : CommandWord) : commandWord (opField k) (argField k) = k := by
  apply BitVec.eq_of_getLsbD_eq
  intro i hi
  simp only [commandWord, opField, argField, BitVec.getLsbD_append, BitVec.getLsbD_extractLsb']
  by_cases h : i < 32
  · simp [h]
  · have h' : i - 32 < 4 := by omega
    have h'' : 32 + (i - 32) = i := by omega
    simp [h, h', h'']

/-- A word is its low byte and the field above it. -/
theorem append_fields {n m : Nat} (hm : m = n + 8) (k : BitVec m) :
    k.extractLsb' 8 n ++ (k.extractLsb' 0 8) = k.cast hm := by
  subst hm
  apply BitVec.eq_of_getLsbD_eq
  intro i hi
  simp only [BitVec.getLsbD_append, BitVec.getLsbD_extractLsb', BitVec.getLsbD_cast]
  by_cases h : i < 8
  · simp [h]
  · have h' : i - 8 < n := by omega
    have h'' : 8 + (i - 8) = i := by omega
    simp [h, h', h'']

/-! ### Masks -/

theorem bits_and {n : Nat} (w : BitVec n) (m p : Nat) (hm : m < 2 ^ n) (hp : p < 2 ^ n) :
    w.toNat &&& m = p ↔ w &&& BitVec.ofNat n m = BitVec.ofNat n p := by
  rw [← BitVec.toNat_inj, BitVec.toNat_and, BitVec.toNat_ofNat, BitVec.toNat_ofNat, Nat.mod_eq_of_lt hm,
    Nat.mod_eq_of_lt hp]

/-- A full mask fixes the word. -/
theorem and_exact {n : Nat} (w : BitVec n) (p : Nat) (hp : p < 2 ^ n) :
    w.toNat &&& (2 ^ n - 1) = p ↔ w = BitVec.ofNat n p := by
  rw [Nat.and_two_pow_sub_one_eq_mod, Nat.mod_eq_of_lt w.isLt, ← BitVec.toNat_inj, BitVec.toNat_ofNat,
    Nat.mod_eq_of_lt hp]

/-- A mask over the high part fixes the high part. -/
theorem and_high {n m : Nat} (w : BitVec (n + m)) (x : BitVec n) :
    (w &&& (BitVec.allOnes n ++ 0#m) = x ++ 0#m) ↔ w.extractLsb' m n = x := by
  constructor
  · intro h
    have := congrArg (BitVec.extractLsb' m n) h
    apply BitVec.eq_of_getLsbD_eq
    intro i hi
    have h1 := congrArg (fun z => BitVec.getLsbD z (m + i)) h
    have h2 : ¬ m + i < m := by omega
    have h3 : m + i - m = i := by omega
    simpa [BitVec.getLsbD_append, h2, h3, hi, BitVec.getLsbD_extractLsb'] using h1
  · rintro rfl
    apply BitVec.eq_of_getLsbD_eq
    intro i hi
    simp only [BitVec.getLsbD_and, BitVec.getLsbD_append, BitVec.getLsbD_extractLsb']
    by_cases h : i < m
    · simp [h]
    · have h1 : i - m < n := by omega
      have h2 : m + (i - m) = i := by omega
      simp [h, h1, h2]

/-! ### The rows that carry an operand -/

theorem beginRow_iff (w : CommandWord) : w.toNat &&& 0xF00000000 = 0 ↔ opField w = 0#4 := by
  rw [bits_and w _ _ (by decide) (by decide)]
  exact and_high (n := 4) (m := 32) w 0#4

theorem writeRow_iff (w : CommandWord) : w.toNat &&& 0xFFFFFFF00 = 0x700000000 ↔ w.extractLsb' 8 28 = 0x7000000#28 := by
  rw [bits_and w _ _ (by decide) (by decide)]
  exact and_high (n := 28) (m := 8) w 0x7000000#28

theorem writeFields_iff (w : CommandWord) : w.extractLsb' 8 28 = 0x7000000#28 ↔ opField w = 7#4 ∧
    (argField w).extractLsb' 8 24 = 0#24 := by
  constructor
  · intro h
    constructor
    · have := congrArg (BitVec.extractLsb' 24 4) h
      have h2 : (w.extractLsb' 8 28).extractLsb' 24 4 = opField w := by
        apply BitVec.eq_of_getLsbD_eq
        intro i hi
        have h1 : 24 + i < 28 := by omega
        have h2 : 8 + (24 + i) = 32 + i := by omega
        simp [opField, hi, h1, h2]
      rw [h2] at this; rw [this]; decide
    · have := congrArg (BitVec.extractLsb' 0 24) h
      have h2 : (w.extractLsb' 8 28).extractLsb' 0 24 = (argField w).extractLsb' 8 24 := by
        apply BitVec.eq_of_getLsbD_eq
        intro i hi
        have h1 : i < 28 := by omega
        have h2 : 8 + i < 32 := by omega
        simp [argField, hi, h1]
      rw [h2] at this; rw [this]; decide
  · rintro ⟨h1, h2⟩
    have hb := append_fields (n := 24) rfl (argField w)
    rw [h2, BitVec.cast_eq] at hb
    have hw := commandWord_fields w
    rw [h1, ← hb] at hw
    rw [← hw]
    show ((7#4 ++ (0#24 ++ (argField w).extractLsb' 0 8 : BitVec 32)) : BitVec 36).extractLsb' 8 28 = _
    generalize (argField w).extractLsb' 0 8 = b
    apply BitVec.eq_of_getLsbD_eq
    intro i hi
    rw [BitVec.getLsbD_extractLsb', BitVec.getLsbD_append]
    erw [BitVec.getLsbD_append]
    have ha : ¬ 8 + i < 8 := by omega
    by_cases h : 8 + i < 32
    · simp only [h, ha, hi]
      interval_cases i <;> simp_all
    · simp only [h, hi]
      interval_cases i <;> simp_all

theorem rxcRow_iff (w : EventWord) : w.toNat &&& 0x100 = 0x100 ↔ w.extractLsb' 8 1 = 1#1 := by
  rw [bits_and w _ _ (by decide) (by decide)]
  exact and_high (n := 1) (m := 8) w 1#1

theorem pushRow_iff (w : RingWord) : w.toNat &&& 0x700 = 0 ↔ w.extractLsb' 8 3 = 0#3 := by
  rw [bits_and w _ _ (by decide) (by decide)]
  exact and_high (n := 3) (m := 8) w 0#3

end Sys2Proof
end

