-- ==== Sys2Proof/Laws/Ring.lean ====
section
/-! SUPPORT. The arithmetic of the indices (spec rules R24, R126): every `mod C` as one case distinction, so that omega can
finish. -/

namespace Sys2Proof
namespace Machine

/-- R126 (a). -/
theorem indexNext_eq {cap i : Nat} (hi : i < cap) : indexNext cap i = if i + 1 < cap then i + 1 else 0 := by
  unfold indexNext
  split_ifs with h
  · exact Nat.mod_eq_of_lt h
  · have : i + 1 = cap := by omega
    rw [this, Nat.mod_self]

/-- R126 (b). -/
theorem countOf_eq {cap h t : Nat} (hh : h < cap) (ht : t < cap) :
    countOf cap h t = if t ≤ h then h - t else cap + h - t := by
  unfold countOf
  split_ifs with hle
  · have : cap + h - t = (h - t) + cap := by omega
    rw [this, Nat.add_mod_right, Nat.mod_eq_of_lt (by omega)]
  · exact Nat.mod_eq_of_lt (by omega)

/-- The slot `i` places behind `TAIL`. -/
theorem slot_eq {cap t i : Nat} (ht : t < cap) (hi : i < cap) :
    (t + i) % cap = if t + i < cap then t + i else t + i - cap := by
  split_ifs with h
  · exact Nat.mod_eq_of_lt h
  · have : t + i = (t + i - cap) + cap := by omega
    rw [this, Nat.add_mod_right, Nat.mod_eq_of_lt (by omega)]
    omega

theorem indexNext_lt {cap i : Nat} (hi : i < cap) : indexNext cap i < cap := Nat.mod_lt _ (by omega)

theorem countOf_lt {cap h t : Nat} (hh : h < cap) : countOf cap h t < cap := Nat.mod_lt _ (by omega)

@[simp] theorem countOf_self {cap h : Nat} (hh : h < cap) : countOf cap h h = 0 := by
  rw [countOf_eq hh hh]; simp

theorem countOf_eq_zero_iff {cap h t : Nat} (hh : h < cap) (ht : t < cap) : countOf cap h t = 0 ↔ h = t := by
  rw [countOf_eq hh ht]
  split_ifs <;> omega

/-- FULL means `C - 1` unread bytes (R24). -/
theorem indexNext_eq_tail_iff {cap h t : Nat} (hh : h < cap) (ht : t < cap) :
    indexNext cap h = t ↔ countOf cap h t = cap - 1 := by
  rw [countOf_eq hh ht, indexNext_eq hh]
  split_ifs <;> omega

/-- A stored push raises COUNT by one (R126 e). -/
theorem countOf_indexNext_head {cap h t : Nat} (hh : h < cap) (ht : t < cap) (hfull : indexNext cap h ≠ t) :
    countOf cap (indexNext cap h) t = countOf cap h t + 1 := by
  rw [countOf_eq (indexNext_lt hh) ht, countOf_eq hh ht]
  rw [indexNext_eq hh] at *
  split_ifs at * <;> omega

/-- A pop that returns a byte lowers COUNT by one (R126 e). -/
theorem countOf_indexNext_tail {cap h t : Nat} (hh : h < cap) (ht : t < cap) (hne : h ≠ t) :
    countOf cap h (indexNext cap t) + 1 = countOf cap h t := by
  rw [countOf_eq hh (indexNext_lt ht), countOf_eq hh ht]
  rw [indexNext_eq ht]
  split_ifs <;> omega

/-- Moving TAIL up to a sample drops exactly the sampled bytes. -/
theorem countOf_sub_sample {cap h t hs : Nat} (hh : h < cap) (ht : t < cap) (hhs : hs < cap)
    (hle : countOf cap hs t ≤ countOf cap h t) : countOf cap h hs + countOf cap hs t = countOf cap h t := by
  rw [countOf_eq hh hhs, countOf_eq hhs ht, countOf_eq hh ht]
  rw [countOf_eq hhs ht, countOf_eq hh ht] at hle
  split_ifs at * <;> omega

/-- A slot counted from a sample, counted from the old TAIL. -/
theorem slot_from_sample {cap t hs i : Nat} (ht : t < cap) (hhs : hs < cap) :
    (hs + i) % cap = (t + (countOf cap hs t + i)) % cap := by
  rw [countOf_eq hhs ht]
  split_ifs with h
  · congr 1; omega
  · have : t + (cap + hs - t + i) = (hs + i) + cap := by omega
    rw [this, Nat.add_mod_right]

/-- A slot counted from the TAIL behind a pop, counted from the old TAIL. -/
theorem slot_from_next {cap t i : Nat} (ht : t < cap) :
    (indexNext cap t + i) % cap = (t + (i + 1)) % cap := by
  rw [indexNext_eq ht]
  split_ifs with h
  · congr 1; omega
  · have : t + (i + 1) = i + cap := by omega
    rw [this, Nat.add_mod_right, Nat.zero_add]

/-- HEAD is the slot COUNT places behind TAIL. -/
theorem slot_count {cap h t : Nat} (hh : h < cap) (ht : t < cap) : (t + countOf cap h t) % cap = h := by
  rw [slot_eq ht (countOf_lt hh), countOf_eq hh ht]
  split_ifs <;> omega

/-- An occupied slot is not the free slot `ST[HEAD]` (R25). -/
theorem slot_ne_head {cap h t i : Nat} (hh : h < cap) (ht : t < cap) (hi : i < countOf cap h t) :
    (t + i) % cap ≠ h := by
  have hlt := countOf_lt (t := t) hh
  rw [slot_eq ht (by omega)]
  rw [countOf_eq hh ht] at hi
  split_ifs at * <;> omega

end Machine
end Sys2Proof
end

