-- ==== Sys2Proof/Laws/Storage.lean ====
section
/-! SUPPORT. The laws of the storage `ST`: a read after a write, and that a write keeps the canonical form (spec rules R8,
R21). -/

namespace Sys2Proof
namespace Machine

@[simp] theorem Memory.read_write_same (st : List Host.Cell) (a : Nat) (v : Byte) :
    Memory.read (Memory.write st a v) a = some v := by
  induction st with
  | nil => simp [Memory.write, Memory.read]
  | cons cell rest ih =>
    obtain ⟨x, w⟩ := cell
    simp only [Memory.write]
    split_ifs with h1 h2
    · simp [Memory.read]
    · simp [Memory.read]
    · simp [Memory.read, h2, ih]

theorem Memory.read_write_other (st : List Host.Cell) {a b : Nat} (v : Byte) (hab : b ≠ a) :
    Memory.read (Memory.write st a v) b = Memory.read st b := by
  induction st with
  | nil => simp [Memory.write, Memory.read, hab]
  | cons cell rest ih =>
    obtain ⟨x, w⟩ := cell
    simp only [Memory.write]
    split_ifs with h1 h2
    · simp [Memory.read, hab]
    · subst h2; simp [Memory.read, hab]
    · simp only [Memory.read, ih]

theorem Memory.mem_keys_write {st : List Host.Cell} {a : Nat} {v : Byte} {k : Nat}
    (h : k ∈ (Memory.write st a v).map Prod.fst) : k = a ∨ k ∈ st.map Prod.fst := by
  induction st with
  | nil => simpa [Memory.write] using h
  | cons cell rest ih =>
    obtain ⟨x, w⟩ := cell
    simp only [Memory.write] at h
    split_ifs at h with h1 h2
    · simpa using h
    · simp only [List.map_cons, List.mem_cons] at h ⊢
      rcases h with h | h
      · exact .inl h
      · exact .inr (.inr h)
    · simp only [List.map_cons, List.mem_cons] at h ⊢
      rcases h with h | h
      · exact .inr (.inl h)
      · rcases ih h with h | h
        · exact .inl h
        · exact .inr (.inr h)

/-- A write keeps the canonical form. -/
theorem Memory.write_wf {cap : Nat} {st : List Host.Cell} (hst : Memory.wf cap st) {a : Nat} (ha : a < cap) (v : Byte) :
    Memory.wf cap (Memory.write st a v) := by
  refine ⟨?_, ?_⟩
  · have hsorted := hst.1
    clear hst
    induction st with
    | nil => simp [Memory.write]
    | cons cell rest ih =>
      obtain ⟨x, w⟩ := cell
      simp only [List.map_cons, List.pairwise_cons] at hsorted
      simp only [Memory.write]
      split_ifs with h1 h2
      · simp only [List.map_cons, List.pairwise_cons, List.mem_cons]
        refine ⟨?_, hsorted.1, hsorted.2⟩
        rintro k (rfl | hk)
        · exact h1
        · exact lt_trans h1 (hsorted.1 k hk)
      · subst h2
        simpa only [List.map_cons, List.pairwise_cons] using hsorted
      · simp only [List.map_cons, List.pairwise_cons]
        refine ⟨?_, ih hsorted.2⟩
        intro k hk
        rcases Memory.mem_keys_write hk with rfl | hk
        · omega
        · exact hsorted.1 k hk
  · intro k hk
    rcases Memory.mem_keys_write hk with rfl | hk
    · exact ha
    · exact hst.2 k hk

theorem Memory.wf_nil (cap : Nat) : Memory.wf cap [] := by simp [Memory.wf]

end Machine
end Sys2Proof
end

