-- ==== Sys2Proof/Laws/RingOk.lean ====
section
/-! SUPPORT. What each ring-buffer operation does to the ring-buffer invariant and to the queue of unread bytes (spec
rules R25, R121 to R125): one lemma per operation. -/

namespace Sys2Proof
namespace Machine

theorem Channel.RingOk.two_le {ch : Channel} (h : ch.RingOk) : 2 ≤ ch.params.cap := by
  have := h.params
  simp only [Params.wellFormed, Bool.and_eq_true, decide_eq_true_eq] at this
  tauto

theorem Channel.RingOk.cap_le {ch : Channel} (h : ch.RingOk) : ch.params.cap ≤ 32768 := by
  have := h.params
  simp only [Params.wellFormed, Bool.and_eq_true, decide_eq_true_eq] at this
  tauto

theorem Channel.RingOk.count_lt {ch : Channel} (h : ch.RingOk) : ch.count < ch.params.cap := countOf_lt h.head

/-- The invariant speaks of five fields only, and of FG only in what it samples. -/
theorem Channel.RingOk.congr {ch ch' : Channel} (h : ch.RingOk) (hp : ch'.params = ch.params) (hst : ch'.st = ch.st)
    (hh : ch'.head = ch.head) (ht : ch'.tail = ch.tail)
    (hfg : ∀ op hs, ch'.fg = .sampled op hs → hs < ch.params.cap ∧ countOf ch.params.cap hs ch.tail ≤ ch.count) :
    ch'.RingOk := by
  have hc : ch'.count = ch.count := by simp only [Channel.count, hp, hh, ht]
  refine ⟨by rw [hp]; exact h.params, by rw [hp, hh]; exact h.head, by rw [hp, ht]; exact h.tail,
    by rw [hp, hst]; exact h.storage, ?_, ?_⟩
  · rw [hc, hst, ht, hp]; exact h.written
  · rw [hc, ht, hp]; exact hfg

/-- A slot depends on what was written there and on the draw behind the storage. -/
theorem Channel.slot_congr {ch ch' : Channel} {a : Nat} (hst : Memory.read ch'.st a = Memory.read ch.st a)
    (hk : ch'.stDraw = ch.stDraw) : ch'.slot a = ch.slot a := by
  simp only [Channel.slot, hst, hk]

/-- A written slot holds what was written. -/
theorem Channel.slot_written {ch : Channel} {a : Nat} {v : Byte} (h : Memory.read ch.st a = some v) : ch.slot a = v := by
  simp only [Channel.slot, h]

/-- A slot nothing has written since reset holds the reset's draw (R42). -/
theorem Channel.slot_unwritten {ch : Channel} {a : Nat} (h : Memory.read ch.st a = none) :
    ch.slot a = Config.slotDraw ch.stDraw.chan ch.stDraw.number a := by
  simp only [Channel.slot, h]

theorem Channel.unread_congr {ch ch' : Channel} (hp : ch'.params = ch.params) (hst : ch'.st = ch.st)
    (hk : ch'.stDraw = ch.stDraw) (hh : ch'.head = ch.head) (ht : ch'.tail = ch.tail) : ch'.unread = ch.unread := by
  simp only [Channel.unread, Channel.count, Channel.slot, hp, hst, hk, hh, ht]

@[simp] theorem Channel.unread_length (ch : Channel) : ch.unread.length = ch.count := by simp [Channel.unread]

/-- The latched head is a legal sample. -/
theorem Channel.RingOk.latched {ch : Channel} (h : ch.RingOk) : latchedHead ch < ch.params.cap ∧
    countOf ch.params.cap (latchedHead ch) ch.tail ≤ ch.count ∧
    ∀ op hs, ch.fg = .sampled op hs → hs = latchedHead ch := by
  unfold latchedHead
  cases hfg : ch.fg with
  | sampled op hs => exact ⟨(h.sample op hs hfg).1, (h.sample op hs hfg).2, fun _ _ h' => by cases h'; rfl⟩
  | idle => exact ⟨h.head, le_refl _, fun _ _ h' => by cases h'⟩
  | poll b => exact ⟨h.head, le_refl _, fun _ _ h' => by cases h'⟩
  | halted => exact ⟨h.head, le_refl _, fun _ _ h' => by cases h'⟩

/-! ### RB.PUSH -/

theorem ringPush_full {b : Byte} {ch : Channel} (h : ch.full = true) : ringPush b ch = ch := if_pos h

theorem ringPush_stored {b : Byte} {ch : Channel} (h : ch.full = false) : ringPush b ch =
    { ch with st := Memory.write ch.st ch.head b, head := indexNext ch.params.cap ch.head } := by
  simp [ringPush, h]

theorem Channel.full_eq_true_iff {ch : Channel} (h : ch.RingOk) : ch.full = true ↔ ch.count = ch.params.cap - 1 := by
  simp only [Channel.full, fullOf, decide_eq_true_eq]
  exact indexNext_eq_tail_iff h.head h.tail

theorem Channel.full_eq_false_iff {ch : Channel} (h : ch.RingOk) : ch.full = false ↔ ch.count < ch.params.cap - 1 := by
  have := Channel.full_eq_true_iff h
  have hlt := h.count_lt
  cases hf : ch.full <;> simp only [hf, true_iff, false_iff, reduceCtorEq] at * <;> omega

/-- A stored push raises COUNT by one. -/
theorem ringPush_count {b : Byte} {ch : Channel} (h : ch.RingOk) (hfull : ch.full = false) :
    (ringPush b ch).count = ch.count + 1 := by
  rw [ringPush_stored hfull]
  simp only [Channel.full, fullOf, decide_eq_false_iff_not] at hfull
  exact countOf_indexNext_head h.head h.tail hfull

/-- What a push leaves in the slot `i` places behind TAIL. -/
theorem ringPush_slot {b : Byte} {ch : Channel} (h : ch.RingOk) (hfull : ch.full = false) {i : Nat} (hi : i ≤ ch.count) :
    Memory.read (ringPush b ch).st ((ch.tail + i) % ch.params.cap) =
      if i = ch.count then some b else Memory.read ch.st ((ch.tail + i) % ch.params.cap) := by
  rw [ringPush_stored hfull]
  split_ifs with hlast
  · subst hlast
    have : (ch.tail + ch.count) % ch.params.cap = ch.head := slot_count h.head h.tail
    rw [this]; exact Memory.read_write_same _ _ _
  · exact Memory.read_write_other _ _ (slot_ne_head h.head h.tail (by show i < ch.count; omega))

theorem ringPush_ringOk {b : Byte} {ch : Channel} (h : ch.RingOk) : (ringPush b ch).RingOk := by
  cases hfull : ch.full with
  | true => rw [ringPush_full hfull]; exact h
  | false =>
    have hcount := ringPush_count (b := b) h hfull
    have hslot := fun i => ringPush_slot (b := b) h hfull (i := i)
    have hle : ch.count ≤ (ringPush b ch).count := by omega
    rw [ringPush_stored hfull] at *
    refine ⟨h.params, indexNext_lt h.head, h.tail, Memory.write_wf h.storage h.head b, ?_, ?_⟩
    · intro i hi
      rw [hslot i (by omega)]
      split_ifs with hlast
      · rfl
      · exact h.written i (by omega)
    · intro op hs hfg
      exact ⟨(h.sample op hs hfg).1, le_trans (h.sample op hs hfg).2 hle⟩

theorem ringPush_unread {b : Byte} {ch : Channel} (h : ch.RingOk) :
    (ringPush b ch).unread = (QueueEffect.push b).apply ch.params.cap ch.unread := by
  simp only [QueueEffect.apply, Channel.unread_length]
  cases hfull : ch.full with
  | true =>
    rw [ringPush_full hfull, if_neg]
    have := (Channel.full_eq_true_iff h).1 hfull
    omega
  | false =>
    rw [if_pos ((Channel.full_eq_false_iff h).1 hfull)]
    have hcount := ringPush_count (b := b) h hfull
    have hslot := fun i => ringPush_slot (b := b) h hfull (i := i)
    have hp : (ringPush b ch).params = ch.params := by rw [ringPush_stored hfull]
    have ht : (ringPush b ch).tail = ch.tail := by rw [ringPush_stored hfull]
    have hk : (ringPush b ch).stDraw = ch.stDraw := by rw [ringPush_stored hfull]
    simp only [Channel.unread, hcount, List.range_succ, List.map_append, List.map_cons, List.map_nil, hp, ht]
    congr 1
    · apply List.map_congr_left
      intro i hi
      have hi := List.mem_range.1 hi
      exact Channel.slot_congr (by rw [hslot i (by omega), if_neg (by omega)]) hk
    · rw [Channel.slot_written (v := b) (by rw [hslot _ (le_refl _), if_pos rfl])]

/-! ### RB.PEEK and RB.POP -/

/-- A sample that found bytes: a push wrote the slot at TAIL (R25), and the oldest unread byte is there. -/
theorem Channel.RingOk.oldest {ch : Channel} (h : ch.RingOk) {hs : Nat} (hlt : hs < ch.params.cap)
    (hle : countOf ch.params.cap hs ch.tail ≤ ch.count) (hne : hs ≠ ch.tail) :
    (Memory.read ch.st ch.tail).isSome = true ∧ ch.unread.head? = some (ch.slot ch.tail) := by
  have hpos : 0 < ch.count := by
    have : countOf ch.params.cap hs ch.tail ≠ 0 := fun h0 => hne ((countOf_eq_zero_iff hlt h.tail).1 h0)
    omega
  have hw := h.written 0 hpos
  rw [Nat.add_zero, Nat.mod_eq_of_lt h.tail] at hw
  refine ⟨hw, ?_⟩
  obtain ⟨n, hn⟩ := Nat.exists_eq_succ_of_ne_zero (Nat.pos_iff_ne_zero.1 hpos)
  simp [Channel.unread, hn, List.range_succ_eq_map, Nat.mod_eq_of_lt h.tail]

theorem ringPeek_empty {hs : Nat} {ch : Channel} (h : hs = ch.tail) :
    ringPeek hs ch = { valid := false, byte := 0#8 } := by simp [ringPeek, emptyOf, h]

theorem ringPeek_byte {hs : Nat} {ch : Channel} (h : hs ≠ ch.tail) :
    ringPeek hs ch = { valid := true, byte := ch.slot ch.tail } := by simp [ringPeek, emptyOf, h]

theorem ringPop_empty {hs : Nat} {ch : Channel} (h : hs = ch.tail) :
    ringPop hs ch = ({ valid := false, byte := 0#8 }, ch) := by simp [ringPop, ringPeek_empty h]

theorem ringPop_byte {hs : Nat} {ch : Channel} (h : hs ≠ ch.tail) : ringPop hs ch =
    ({ valid := true, byte := ch.slot ch.tail }, { ch with tail := indexNext ch.params.cap ch.tail }) := by
  simp [ringPop, ringPeek_byte h]

/-- RB.POP moves TAIL on or changes nothing. -/
theorem ringPop_cases (hs : Nat) (ch : Channel) :
    (hs = ch.tail ∧ (ringPop hs ch).2 = ch) ∨
      (hs ≠ ch.tail ∧ (ringPop hs ch).2 = { ch with tail := indexNext ch.params.cap ch.tail }) := by
  by_cases h : hs = ch.tail
  · exact .inl ⟨h, by rw [ringPop_empty h]⟩
  · exact .inr ⟨h, by rw [ringPop_byte h]⟩

/-- TAIL moved up to a legal sample `n`: the bytes before it are gone, the others stay in order. -/
theorem moveTail_unread {ch : Channel} (h : ch.RingOk) {n : Nat} (hn : n < ch.params.cap)
    (hle : countOf ch.params.cap n ch.tail ≤ ch.count) :
    Channel.unread { ch with tail := n } = ch.unread.drop (countOf ch.params.cap n ch.tail) := by
  have hsum := countOf_sub_sample h.head h.tail hn hle
  apply List.ext_getElem
  · simp only [Channel.unread_length, List.length_drop, Channel.count]; omega
  · intro i h1 h2
    simp only [Channel.unread, List.getElem_map, List.getElem_range, List.getElem_drop]
    rw [slot_from_sample h.tail hn]
    rfl

theorem moveTail_ringOk {ch : Channel} (h : ch.RingOk) {n : Nat} (hn : n < ch.params.cap)
    (hle : countOf ch.params.cap n ch.tail ≤ ch.count)
    (hfg : ∀ op hs, ch.fg = .sampled op hs → countOf ch.params.cap hs n ≤ countOf ch.params.cap ch.head n) :
    Channel.RingOk { ch with tail := n } := by
  have hsum := countOf_sub_sample h.head h.tail hn hle
  refine ⟨h.params, h.head, hn, h.storage, ?_, ?_⟩
  · intro i hi
    simp only [Channel.count] at hi
    have := h.written (countOf ch.params.cap n ch.tail + i) (by simp only [Channel.count]; omega)
    rwa [← slot_from_sample h.tail hn] at this
  · intro op hs hs'
    exact ⟨(h.sample op hs hs').1, hfg op hs hs'⟩

/-- The TAIL behind a pop is a legal sample when the buffer is not empty. -/
theorem countOf_next_self {cap t : Nat} (ht : t < cap) (h2 : 2 ≤ cap) : countOf cap (indexNext cap t) t = 1 := by
  rw [countOf_eq (indexNext_lt ht) ht, indexNext_eq ht]
  split_ifs <;> omega

theorem ringPop_ringOk {ch : Channel} (h : ch.RingOk) {hs : Nat} (hlt : hs < ch.params.cap)
    (hle : countOf ch.params.cap hs ch.tail ≤ ch.count) (hfg : ∀ op hs', ch.fg = .sampled op hs' → hs' = hs) :
    (ringPop hs ch).2.RingOk := by
  rcases ringPop_cases hs ch with ⟨_, he⟩ | ⟨hne, he⟩ <;> rw [he]
  · exact h
  · have hone := countOf_next_self h.tail h.two_le
    have hpos : countOf ch.params.cap hs ch.tail ≠ 0 := fun h0 => hne ((countOf_eq_zero_iff hlt h.tail).1 h0)
    have hhead : ch.head ≠ ch.tail := by
      intro heq
      have : ch.count = 0 := by simp only [Channel.count, heq, countOf_self h.tail]
      omega
    refine moveTail_ringOk h (indexNext_lt h.tail) (by omega) ?_
    intro op hs' hs''
    rw [hfg op hs' hs'']
    have h1 := countOf_indexNext_tail hlt h.tail hne
    have h2 := countOf_indexNext_tail h.head h.tail hhead
    simp only [Channel.count] at hle
    omega

theorem ringPop_unread {ch : Channel} (h : ch.RingOk) {hs : Nat} (hlt : hs < ch.params.cap)
    (hle : countOf ch.params.cap hs ch.tail ≤ ch.count) :
    (ringPop hs ch).2.unread = (popEffect hs ch).apply ch.params.cap ch.unread := by
  rcases ringPop_cases hs ch with ⟨heq, he⟩ | ⟨hne, he⟩ <;> rw [he]
  · simp only [popEffect, if_pos heq, QueueEffect.apply]
  · have hone := countOf_next_self h.tail h.two_le
    have hpos : countOf ch.params.cap hs ch.tail ≠ 0 := fun h0 => hne ((countOf_eq_zero_iff hlt h.tail).1 h0)
    rw [moveTail_unread h (indexNext_lt h.tail) (by omega), hone]
    simp only [popEffect, if_neg hne, QueueEffect.apply, List.drop_one]

/-! ### RB.CLEAR -/

theorem ringClear_ringOk {ch : Channel} (h : ch.RingOk) {hs : Nat} (hlt : hs < ch.params.cap)
    (hle : countOf ch.params.cap hs ch.tail ≤ ch.count) (hfg : ∀ op hs', ch.fg = .sampled op hs' → hs' = hs) :
    (ringClear hs ch).RingOk := by
  refine moveTail_ringOk h hlt hle ?_
  intro op hs' hs''
  rw [hfg op hs' hs'', countOf_self hlt]
  exact Nat.zero_le _

theorem ringClear_unread {ch : Channel} (h : ch.RingOk) {hs : Nat} (hlt : hs < ch.params.cap)
    (hle : countOf ch.params.cap hs ch.tail ≤ ch.count) :
    (ringClear hs ch).unread = (clearEffect hs ch).apply ch.params.cap ch.unread :=
  moveTail_unread h hlt hle

end Machine
end Sys2Proof
end

