-- ==== Sys2Proof/Laws/Fields.lean ====
section
/-! SUPPORT. Every one-channel move field by field, and what it does to the two channel invariants and to the queue of
unread bytes (spec rules R33, R141, R148, R150, R160, R180, R190, R204, R231, R250). -/

namespace Sys2Proof
namespace Machine

/-! ### BEGIN and END, field by field -/

@[simp] theorem programChannel_params (u : Bool) (s : Setting) (ch : Channel) :
    (programChannel u s ch).params = ch.params := by cases u <;> rfl
@[simp] theorem programChannel_st (u : Bool) (s : Setting) (ch : Channel) :
    (programChannel u s ch).st = ch.st := by cases u <;> rfl
@[simp] theorem programChannel_stDraw (u : Bool) (s : Setting) (ch : Channel) :
    (programChannel u s ch).stDraw = ch.stDraw := by cases u <;> rfl
@[simp] theorem programChannel_head (u : Bool) (s : Setting) (ch : Channel) :
    (programChannel u s ch).head = ch.head := by cases u <;> rfl
@[simp] theorem programChannel_tail (u : Bool) (s : Setting) (ch : Channel) :
    (programChannel u s ch).tail = ch.tail := by cases u <;> rfl
@[simp] theorem programChannel_ubrrh (u : Bool) (s : Setting) (ch : Channel) :
    (programChannel u s ch).ubrrh = highByte s := by cases u <;> rfl
@[simp] theorem programChannel_ubrrl (u : Bool) (s : Setting) (ch : Channel) :
    (programChannel u s ch).ubrrl = lowByte s := by cases u <;> rfl
@[simp] theorem programChannel_status (u : Bool) (s : Setting) (ch : Channel) :
    (programChannel u s ch).status = if u then withBitSet ch.status ch.params.bU2x else withBitClear ch.status ch.params.bU2x := by cases u <;> rfl
@[simp] theorem programChannel_control (u : Bool) (s : Setting) (ch : Channel) :
    (programChannel u s ch).control = withBitSet (withBitSet (withBitSet ch.control ch.params.bRxen) ch.params.bTxen) ch.params.bRxcie := by cases u <;> rfl
@[simp] theorem programChannel_rxdata (u : Bool) (s : Setting) (ch : Channel) :
    (programChannel u s ch).rxdata = ch.rxdata := by cases u <;> rfl
@[simp] theorem programChannel_txdata (u : Bool) (s : Setting) (ch : Channel) :
    (programChannel u s ch).txdata = ch.txdata := by cases u <;> rfl
@[simp] theorem programChannel_fg (u : Bool) (s : Setting) (ch : Channel) :
    (programChannel u s ch).fg = ch.fg := by cases u <;> rfl
@[simp] theorem programChannel_fault (u : Bool) (s : Setting) (ch : Channel) :
    (programChannel u s ch).fault = ch.fault := by cases u <;> rfl
@[simp] theorem programChannel_fcmd (u : Bool) (s : Setting) (ch : Channel) :
    (programChannel u s ch).fcmd = ch.fcmd := by cases u <;> rfl
@[simp] theorem programChannel_rsp (u : Bool) (s : Setting) (ch : Channel) :
    (programChannel u s ch).rsp = ch.rsp := by cases u <;> rfl
@[simp] theorem programChannel_txlog (u : Bool) (s : Setting) (ch : Channel) :
    (programChannel u s ch).txlog = ch.txlog := by cases u <;> rfl
@[simp] theorem programChannel_draws (u : Bool) (s : Setting) (ch : Channel) :
    (programChannel u s ch).draws = ch.draws := by cases u <;> rfl

@[simp] theorem disableChannel_params (ch : Channel) :
    (disableChannel ch).params = ch.params := rfl
@[simp] theorem disableChannel_st (ch : Channel) :
    (disableChannel ch).st = ch.st := rfl
@[simp] theorem disableChannel_stDraw (ch : Channel) :
    (disableChannel ch).stDraw = ch.stDraw := rfl
@[simp] theorem disableChannel_head (ch : Channel) :
    (disableChannel ch).head = ch.head := rfl
@[simp] theorem disableChannel_tail (ch : Channel) :
    (disableChannel ch).tail = ch.tail := rfl
@[simp] theorem disableChannel_ubrrh (ch : Channel) :
    (disableChannel ch).ubrrh = ch.ubrrh := rfl
@[simp] theorem disableChannel_ubrrl (ch : Channel) :
    (disableChannel ch).ubrrl = ch.ubrrl := rfl
@[simp] theorem disableChannel_status (ch : Channel) :
    (disableChannel ch).status = ch.status := rfl
@[simp] theorem disableChannel_control (ch : Channel) :
    (disableChannel ch).control = withBitClear (withBitClear (withBitClear ch.control ch.params.bRxen) ch.params.bTxen) ch.params.bRxcie := rfl
@[simp] theorem disableChannel_rxdata (ch : Channel) :
    (disableChannel ch).rxdata = ch.rxdata := rfl
@[simp] theorem disableChannel_txdata (ch : Channel) :
    (disableChannel ch).txdata = ch.txdata := rfl
@[simp] theorem disableChannel_fg (ch : Channel) :
    (disableChannel ch).fg = ch.fg := rfl
@[simp] theorem disableChannel_fault (ch : Channel) :
    (disableChannel ch).fault = ch.fault := rfl
@[simp] theorem disableChannel_fcmd (ch : Channel) :
    (disableChannel ch).fcmd = ch.fcmd := rfl
@[simp] theorem disableChannel_rsp (ch : Channel) :
    (disableChannel ch).rsp = ch.rsp := rfl
@[simp] theorem disableChannel_txlog (ch : Channel) :
    (disableChannel ch).txlog = ch.txlog := rfl
@[simp] theorem disableChannel_draws (ch : Channel) :
    (disableChannel ch).draws = ch.draws := rfl

@[simp] theorem acceptBegin_params (c : Chan) (baud : Baud) (ch : Channel) :
    (acceptBegin c baud ch).params = ch.params := by
  simp only [acceptBegin]; split_ifs <;> simp_all
@[simp] theorem acceptBegin_st (c : Chan) (baud : Baud) (ch : Channel) :
    (acceptBegin c baud ch).st = ch.st := by
  simp only [acceptBegin]; split_ifs <;> simp_all
@[simp] theorem acceptBegin_stDraw (c : Chan) (baud : Baud) (ch : Channel) :
    (acceptBegin c baud ch).stDraw = ch.stDraw := by
  simp only [acceptBegin]; split_ifs <;> simp_all
@[simp] theorem acceptBegin_head (c : Chan) (baud : Baud) (ch : Channel) :
    (acceptBegin c baud ch).head = ch.head := by
  simp only [acceptBegin]; split_ifs <;> simp_all
@[simp] theorem acceptBegin_tail (c : Chan) (baud : Baud) (ch : Channel) :
    (acceptBegin c baud ch).tail = ch.tail := by
  simp only [acceptBegin]; split_ifs <;> simp_all
@[simp] theorem acceptBegin_ubrrh (c : Chan) (baud : Baud) (ch : Channel) :
    (acceptBegin c baud ch).ubrrh = highByte (baudSel (zeroBaudDraw c ch) ch.params.fclk baud).2 := by
  simp only [acceptBegin]; split_ifs <;> simp_all
@[simp] theorem acceptBegin_ubrrl (c : Chan) (baud : Baud) (ch : Channel) :
    (acceptBegin c baud ch).ubrrl = lowByte (baudSel (zeroBaudDraw c ch) ch.params.fclk baud).2 := by
  simp only [acceptBegin]; split_ifs <;> simp_all
@[simp] theorem acceptBegin_status (c : Chan) (baud : Baud) (ch : Channel) :
    (acceptBegin c baud ch).status = if (baudSel (zeroBaudDraw c ch) ch.params.fclk baud).1 then withBitSet ch.status ch.params.bU2x
      else withBitClear ch.status ch.params.bU2x := by
  simp only [acceptBegin]; split_ifs <;> simp_all
@[simp] theorem acceptBegin_control (c : Chan) (baud : Baud) (ch : Channel) :
    (acceptBegin c baud ch).control = withBitSet (withBitSet (withBitSet ch.control ch.params.bRxen) ch.params.bTxen) ch.params.bRxcie := by
  simp only [acceptBegin]; split_ifs <;> simp_all
@[simp] theorem acceptBegin_rxdata (c : Chan) (baud : Baud) (ch : Channel) :
    (acceptBegin c baud ch).rxdata = ch.rxdata := by
  simp only [acceptBegin]; split_ifs <;> simp_all
@[simp] theorem acceptBegin_txdata (c : Chan) (baud : Baud) (ch : Channel) :
    (acceptBegin c baud ch).txdata = ch.txdata := by
  simp only [acceptBegin]; split_ifs <;> simp_all
@[simp] theorem acceptBegin_fg (c : Chan) (baud : Baud) (ch : Channel) :
    (acceptBegin c baud ch).fg = .idle := by
  simp only [acceptBegin]; split_ifs <;> simp_all
@[simp] theorem acceptBegin_fault (c : Chan) (baud : Baud) (ch : Channel) :
    (acceptBegin c baud ch).fault = ch.fault := by
  simp only [acceptBegin]; split_ifs <;> simp_all
@[simp] theorem acceptBegin_fcmd (c : Chan) (baud : Baud) (ch : Channel) :
    (acceptBegin c baud ch).fcmd = ch.fcmd := by
  simp only [acceptBegin]; split_ifs <;> simp_all
@[simp] theorem acceptBegin_rsp (c : Chan) (baud : Baud) (ch : Channel) :
    (acceptBegin c baud ch).rsp = { fault := 0#2, hasValue := false, value := 0#16 } := by
  simp only [acceptBegin]; split_ifs <;> simp_all
@[simp] theorem acceptBegin_txlog (c : Chan) (baud : Baud) (ch : Channel) :
    (acceptBegin c baud ch).txlog = ch.txlog := by
  simp only [acceptBegin]; split_ifs <;> simp_all
@[simp] theorem acceptBegin_draws (c : Chan) (baud : Baud) (ch : Channel) :
    (acceptBegin c baud ch).draws = if baud = 0#32 then ch.draws + 1 else ch.draws := by
  simp only [acceptBegin]; split_ifs <;> simp_all

@[simp] theorem acceptEnd_params (ch : Channel) : (acceptEnd ch).params =
    ch.params := rfl
@[simp] theorem acceptEnd_st (ch : Channel) : (acceptEnd ch).st =
    ch.st := rfl
@[simp] theorem acceptEnd_stDraw (ch : Channel) : (acceptEnd ch).stDraw =
    ch.stDraw := rfl
@[simp] theorem acceptEnd_head (ch : Channel) : (acceptEnd ch).head =
    ch.head := rfl
@[simp] theorem acceptEnd_tail (ch : Channel) : (acceptEnd ch).tail =
    ch.head := rfl
@[simp] theorem acceptEnd_ubrrh (ch : Channel) : (acceptEnd ch).ubrrh =
    ch.ubrrh := rfl
@[simp] theorem acceptEnd_ubrrl (ch : Channel) : (acceptEnd ch).ubrrl =
    ch.ubrrl := rfl
@[simp] theorem acceptEnd_status (ch : Channel) : (acceptEnd ch).status =
    ch.status := rfl
@[simp] theorem acceptEnd_control (ch : Channel) : (acceptEnd ch).control =
    withBitClear (withBitClear (withBitClear ch.control ch.params.bRxen) ch.params.bTxen) ch.params.bRxcie := rfl
@[simp] theorem acceptEnd_rxdata (ch : Channel) : (acceptEnd ch).rxdata =
    ch.rxdata := rfl
@[simp] theorem acceptEnd_txdata (ch : Channel) : (acceptEnd ch).txdata =
    ch.txdata := rfl
@[simp] theorem acceptEnd_fg (ch : Channel) : (acceptEnd ch).fg =
    .idle := rfl
@[simp] theorem acceptEnd_fault (ch : Channel) : (acceptEnd ch).fault =
    ch.fault := rfl
@[simp] theorem acceptEnd_fcmd (ch : Channel) : (acceptEnd ch).fcmd =
    ch.fcmd := rfl
@[simp] theorem acceptEnd_rsp (ch : Channel) : (acceptEnd ch).rsp =
    { fault := 0#2, hasValue := false, value := 0#16 } := rfl
@[simp] theorem acceptEnd_txlog (ch : Channel) : (acceptEnd ch).txlog =
    ch.txlog := rfl
@[simp] theorem acceptEnd_draws (ch : Channel) : (acceptEnd ch).draws =
    ch.draws := rfl

/-! ### The receive event, field by field -/

theorem receiveByte_eq (b : Byte) (ch : Channel) : receiveByte b ch = { ringPush b ch with rxdata := b } := by
  have hfull : ({ ch with rxdata := b } : Channel).full = ch.full := rfl
  cases h : ch.full with
  | true => simp only [receiveByte, ringPush, hfull, h, if_true]
  | false =>
    simp only [receiveByte, ringPush, hfull, h, Bool.false_eq_true, if_false]
    rfl

@[simp] theorem ringPush_params (b : Byte) (ch : Channel) : (ringPush b ch).params = ch.params := by
  unfold ringPush; split_ifs <;> rfl
@[simp] theorem ringPush_tail (b : Byte) (ch : Channel) : (ringPush b ch).tail = ch.tail := by
  unfold ringPush; split_ifs <;> rfl
@[simp] theorem ringPush_fg (b : Byte) (ch : Channel) : (ringPush b ch).fg = ch.fg := by
  unfold ringPush; split_ifs <;> rfl

/-- A push writes `ST` and `HEAD` and nothing else (R121). -/
theorem ringPush_eq (b : Byte) (ch : Channel) :
    ringPush b ch = { ch with st := (ringPush b ch).st, head := (ringPush b ch).head } := by
  unfold ringPush; split_ifs <;> rfl

end Machine
end Sys2Proof
end

