-- ==== Sys2Proof/Laws/Moves.lean ====
section
/-! SUPPORT. Every one-channel move and the channel invariants (spec rules R33, R150, R250): one lemma per move and
invariant. -/

namespace Sys2Proof
namespace Machine

/-! ### ACTIVE -/

theorem active_congr {ch ch' : Channel} (hp : ch'.params = ch.params) (hc : ch'.control = ch.control) :
    ch'.active = ch.active := by simp only [Channel.active, hp, hc]

/-- After BEGIN `ACTIVE` holds (R141). -/
@[simp] theorem acceptBegin_active (c : Chan) (baud : Baud) (ch : Channel) : (acceptBegin c baud ch).active = true := by
  simp [Channel.active]

/-- After END `INACTIVE` holds (R148). -/
@[simp] theorem acceptEnd_active (ch : Channel) : (acceptEnd ch).active = false := by simp [Channel.active]

@[simp] theorem resetChannel_active (d : ResetDraws) (k : DrawKey) (ch : Channel) :
    (resetChannel d k ch).active = false := by
  simp [Channel.active, resetChannel]

/-- On a channel whose enables agree, the receive event is enabled exactly when the channel is active (R191). -/
theorem Channel.WiredOk.rxEnabled_eq {ch : Channel} (h : ch.WiredOk) : ch.rxEnabled = ch.active := by
  obtain ⟨h1, h2⟩ := h.enables
  simp only [Channel.rxEnabled, Channel.active, h1, h2]
  cases testBit ch.control ch.params.bRxen <;> rfl

/-! ### The ring-buffer invariant -/

theorem Channel.RingOk.idle_congr {ch ch' : Channel} (h : ch.RingOk) (hp : ch'.params = ch.params) (hst : ch'.st = ch.st)
    (hh : ch'.head = ch.head) (ht : ch'.tail = ch.tail) (hfg : ∀ op hs, ch'.fg ≠ .sampled op hs) : ch'.RingOk :=
  h.congr hp hst hh ht fun op hs he => absurd he (hfg op hs)

theorem Channel.RingOk.fg_congr {ch ch' : Channel} (h : ch.RingOk) (hp : ch'.params = ch.params) (hst : ch'.st = ch.st)
    (hh : ch'.head = ch.head) (ht : ch'.tail = ch.tail) (hfg : ch'.fg = ch.fg) : ch'.RingOk :=
  h.congr hp hst hh ht fun op hs he => h.sample op hs (hfg ▸ he)

theorem acceptConsumer_ringOk {op : ConsumerOp} {ch : Channel} (h : ch.RingOk) : (acceptConsumer op ch).RingOk := by
  unfold acceptConsumer
  split_ifs
  · exact h.idle_congr rfl rfl rfl rfl (by simp)
  · refine h.congr rfl rfl rfl rfl ?_
    intro op' hs he
    simp only [setFG_fg, FG.sampled.injEq] at he
    rw [← he.2]
    exact ⟨h.head, le_refl _⟩

theorem acceptWrite_ringOk {b : Byte} {ch : Channel} (h : ch.RingOk) : (acceptWrite b ch).RingOk := by
  unfold acceptWrite
  split_ifs <;> exact h.idle_congr rfl rfl rfl rfl (by simp)

theorem acceptEnd_ringOk {ch : Channel} (h : ch.RingOk) : (acceptEnd ch).RingOk := by
  have := moveTail_ringOk (h.idle_congr (ch' := setFG .idle ch) rfl rfl rfl rfl (by simp)) h.head (le_refl _) (by simp)
  exact this.idle_congr rfl rfl rfl rfl (by simp)

/-- ACCEPT keeps the ring-buffer invariant. -/
theorem acceptOf_ringOk {c : Chan} {i : Instr} {ch : Channel} (h : ch.RingOk) : (acceptOf c i ch).RingOk := by
  cases i with
  | beginCmd baud =>
    exact h.idle_congr (acceptBegin_params c baud ch) (acceptBegin_st c baud ch) (acceptBegin_head c baud ch)
      (acceptBegin_tail c baud ch) (fun op hs => by show (acceptBegin c baud ch).fg ≠ _; simp)
  | endCmd => exact acceptEnd_ringOk h
  | flush => exact h.idle_congr rfl rfl rfl rfl (fun _ _ => by show FG.idle ≠ _; simp)
  | available => exact acceptConsumer_ringOk h
  | clear => exact acceptConsumer_ringOk h
  | peek => exact acceptConsumer_ringOk h
  | read => exact acceptConsumer_ringOk h
  | write b => exact acceptWrite_ringOk h
  | rxc _ => exact h
  | rbPush _ => exact h
  | rbPop => exact h
  | rbPeek => exact h
  | rbCount => exact h
  | rbClear => exact h

/-- COMMIT keeps an ordered ring buffer ordered, and does to the unread bytes what its effect says. -/
theorem commitOf_ringOk {op : ConsumerOp} {hs : Nat} {ch : Channel} (h : ch.RingOk) (hfg : ch.fg = .sampled op hs) :
    (setFG .idle (commitOf op hs ch)).RingOk ∧
      (setFG .idle (commitOf op hs ch)).unread = (advanceEffect ch).apply ch.params.cap ch.unread := by
  obtain ⟨hlt, hle⟩ := h.sample op hs hfg
  have hsame : ∀ op' hs', ch.fg = .sampled op' hs' → hs' = hs := by
    intro op' hs' he; rw [hfg] at he; cases he; rfl
  cases op with
  | available =>
    refine ⟨h.idle_congr rfl rfl rfl rfl (by simp), ?_⟩
    rw [advanceEffect, hfg]; exact Channel.unread_congr rfl rfl rfl rfl rfl
  | clear =>
    refine ⟨(ringClear_ringOk h hlt hle hsame).idle_congr rfl rfl rfl rfl (by simp), ?_⟩
    rw [advanceEffect, hfg, ← ringClear_unread h hlt hle]
    exact Channel.unread_congr rfl rfl rfl rfl rfl
  | peek =>
    refine ⟨h.idle_congr rfl rfl rfl rfl (by simp), ?_⟩
    rw [advanceEffect, hfg]; exact Channel.unread_congr rfl rfl rfl rfl rfl
  | read =>
    refine ⟨(ringPop_ringOk h hlt hle hsame).idle_congr rfl rfl rfl rfl (by simp), ?_⟩
    rw [advanceEffect, hfg, ← ringPop_unread h hlt hle]
    exact Channel.unread_congr rfl rfl rfl rfl rfl

theorem pollStep_ringOk {b : Byte} {ch : Channel} (h : ch.RingOk) : (pollStep b ch).RingOk := by
  unfold pollStep
  split_ifs <;> exact h.idle_congr rfl rfl rfl rfl (by simp)

theorem receiveByte_ringOk {b : Byte} {ch : Channel} (h : ch.RingOk) : (receiveByte b ch).RingOk := by
  rw [receiveByte_eq]
  exact (ringPush_ringOk h).fg_congr rfl rfl rfl rfl rfl

theorem resetChannel_ringOk {d : ResetDraws} {k : DrawKey} {ch : Channel} (h : ch.params.wellFormed = true) :
    (resetChannel d k ch).RingOk := by
  have h2 : 2 ≤ ch.params.cap := by
    simp only [Params.wellFormed, Bool.and_eq_true, decide_eq_true_eq] at h; tauto
  have hpos : 0 < ch.params.cap := by omega
  refine ⟨h, hpos, hpos, Memory.wf_nil _, ?_, ?_⟩
  · intro i hi
    have h0 : (resetChannel d k ch).count = 0 := countOf_self hpos
    omega
  · intro op hs he; cases he

/-! ### The wired invariant -/

/-- The wired invariant speaks of CONTROL, the indices, FG, FAULT and RSP only. -/
theorem Channel.WiredOk.congr {ch ch' : Channel} (h : ch.WiredOk) (hp : ch'.params = ch.params)
    (hc : ch'.control = ch.control) (hempty : ch.active = false → ch'.head = ch'.tail)
    (hpoll : ∀ b, ch'.fg = .poll b → ch.active = true)
    (hsample : ∀ op hs, ch'.fg = .sampled op hs → op.needsActive = true → ch.active = true)
    (hhalt : ch'.fg = .halted ↔ ch'.fault ≠ 0#2) (hcode : ch'.fault ≠ 3#2) (hrsp : ch'.rsp.fault = ch'.fault)
    (hvalue : ch'.rsp.hasValue = false → ch'.rsp.value = 0#16) : ch'.WiredOk := by
  have ha := active_congr hp hc
  exact ⟨by rw [hp, hc]; exact h.enables, by rw [ha]; exact hempty, by rw [ha]; exact hpoll, by rw [ha]; exact hsample,
    hhalt, hcode, hrsp, hvalue⟩

theorem Channel.WiredOk.fault_zero {ch : Channel} (h : ch.WiredOk) (hfg : ch.fg ≠ .halted) : ch.fault = 0#2 := by
  by_contra hne
  exact hfg (h.halted.2 hne)

/-- A completed command: FG back in IDLE with a fault-free response. -/
theorem completed_wiredOk {ch ch' : Channel} (h : ch.WiredOk) (hfg : ch.fg ≠ .halted) (hp : ch'.params = ch.params)
    (hc : ch'.control = ch.control) (hempty : ch.active = false → ch'.head = ch'.tail) (hf : ch'.fg = .idle)
    (hfault : ch'.fault = ch.fault) (hrsp : ch'.rsp.fault = 0#2)
    (hvalue : ch'.rsp.hasValue = false → ch'.rsp.value = 0#16) : ch'.WiredOk := by
  have h0 := h.fault_zero hfg
  refine h.congr hp hc hempty (by simp [hf]) (by simp [hf]) ?_ ?_ ?_ hvalue
  · simp [hf, hfault, h0]
  · rw [hfault]; exact h.code
  · rw [hrsp, hfault, h0]

/-- Raising a fault keeps the record consistent. -/
theorem raiseFault_wiredOk {code : BitVec 2} {k : CommandWord} {ch : Channel} (h : ch.WiredOk) (h0 : code ≠ 0#2)
    (h3 : code ≠ 3#2) : (raiseFault code k ch).WiredOk := by
  refine h.congr rfl rfl h.inactive (by simp) (by simp) ?_ h3 rfl ?_
  · simp [h0]
  · intro; rfl

theorem acceptConsumer_wiredOk {op : ConsumerOp} {ch : Channel} (h : ch.WiredOk) (hfg : ch.fg = .idle) :
    (acceptConsumer op ch).WiredOk := by
  have h0 := h.fault_zero (by simp [hfg])
  unfold acceptConsumer
  split_ifs with hcond
  · exact raiseFault_wiredOk h (by decide) (by decide)
  · refine h.congr rfl rfl h.inactive (by simp) ?_ ?_ h.code h.response h.noValue
    · intro op' hs he hneeds
      simp only [setFG_fg, FG.sampled.injEq] at he
      rw [← he.1] at hneeds
      simpa [hneeds] using hcond
    · simp [h0]

theorem acceptWrite_wiredOk {b : Byte} {ch : Channel} (h : ch.WiredOk) (hfg : ch.fg = .idle) :
    (acceptWrite b ch).WiredOk := by
  have h0 := h.fault_zero (by simp [hfg])
  unfold acceptWrite
  split_ifs with hact
  · exact h.congr rfl rfl h.inactive (fun _ _ => hact) (by simp) (by simp [h0]) h.code h.response h.noValue
  · exact raiseFault_wiredOk h (by decide) (by decide)

theorem acceptBegin_wiredOk {c : Chan} {baud : Baud} {ch : Channel} (h : ch.WiredOk) (hfg : ch.fg = .idle) :
    (acceptBegin c baud ch).WiredOk := by
  have h0 := h.fault_zero (by simp [hfg])
  refine ⟨?_, ?_, ?_, ?_, ?_, ?_, ?_, ?_⟩ <;> simp [h0]

theorem acceptEnd_wiredOk {ch : Channel} (h : ch.WiredOk) (hfg : ch.fg = .idle) : (acceptEnd ch).WiredOk := by
  have h0 := h.fault_zero (by simp [hfg])
  refine ⟨?_, ?_, ?_, ?_, ?_, ?_, ?_, ?_⟩ <;> simp [h0]

/-- ACCEPT keeps the wired invariant. -/
theorem acceptOf_wiredOk {c : Chan} {i : Instr} {ch : Channel} (h : ch.WiredOk) (hfg : ch.fg = .idle) :
    (acceptOf c i ch).WiredOk := by
  have h0 := h.fault_zero (by simp [hfg])
  cases i with
  | beginCmd baud => exact acceptBegin_wiredOk h hfg
  | endCmd => exact acceptEnd_wiredOk h hfg
  | flush =>
    exact completed_wiredOk h (by simp [hfg]) rfl rfl h.inactive rfl rfl rfl (fun _ => rfl)
  | available => exact acceptConsumer_wiredOk h hfg
  | clear => exact acceptConsumer_wiredOk h hfg
  | peek => exact acceptConsumer_wiredOk h hfg
  | read => exact acceptConsumer_wiredOk h hfg
  | write b => exact acceptWrite_wiredOk h hfg
  | rxc _ => exact h
  | rbPush _ => exact h
  | rbPop => exact h
  | rbPeek => exact h
  | rbCount => exact h
  | rbClear => exact h

theorem commitOf_wiredOk {op : ConsumerOp} {hs : Nat} {ch : Channel} (hr : ch.RingOk) (h : ch.WiredOk)
    (hfg : ch.fg = .sampled op hs) : (setFG .idle (commitOf op hs ch)).WiredOk := by
  obtain ⟨hlt, hle⟩ := hr.sample op hs hfg
  have hne : ch.fg ≠ .halted := by simp [hfg]
  cases op with
  | available => exact completed_wiredOk h hne rfl rfl h.inactive rfl rfl rfl (by simp [commitOf, commitAvailable])
  | clear =>
    refine completed_wiredOk h hne rfl rfl ?_ rfl rfl rfl (fun _ => rfl)
    intro hin
    have heq := h.inactive hin
    have h0 : ch.count = 0 := by simp only [Channel.count, heq, countOf_self hr.tail]
    have : hs = ch.tail := (countOf_eq_zero_iff hlt hr.tail).1 (by omega)
    simp [commitOf, commitClear, this, heq]
  | peek => exact completed_wiredOk h hne rfl rfl h.inactive rfl rfl rfl (by simp [commitOf, commitPeek])
  | read =>
    have hact : ch.active = true := h.sampling _ _ hfg rfl
    have hval : (setFG .idle (commitOf .read hs ch)).rsp.hasValue = true := rfl
    rcases ringPop_cases hs ch with ⟨-, he⟩ | ⟨-, he⟩ <;>
    · have hc : commitOf .read hs ch = respondValue (byteValue (ringPop hs ch).1) (ringPop hs ch).2 := rfl
      rw [he] at hc
      refine completed_wiredOk h hne ?_ ?_ (by simp [hact]) rfl ?_ rfl
        (fun hv => absurd (hval.symm.trans hv) (by decide)) <;> rw [hc] <;> rfl

theorem pollStep_wiredOk {b : Byte} {ch : Channel} (h : ch.WiredOk) (hfg : ch.fg = .poll b) :
    (pollStep b ch).WiredOk := by
  unfold pollStep
  split_ifs
  · exact completed_wiredOk h (by simp [hfg]) rfl rfl h.inactive rfl rfl rfl (by simp)
  · have : setFG (.poll b) ch = ch := by cases ch; simp_all [setFG]
    rw [this]; exact h

theorem receiveByte_wiredOk {b : Byte} {ch : Channel} (h : ch.WiredOk) (hrx : ch.rxEnabled = true) :
    (receiveByte b ch).WiredOk := by
  have hact : ch.active = true := by rw [← h.rxEnabled_eq]; exact hrx
  rw [receiveByte_eq, ringPush_eq]
  exact h.congr rfl rfl (by simp [hact]) (fun b' => h.polling b') (fun op hs => h.sampling op hs) h.halted h.code
    h.response h.noValue

theorem resetChannel_wiredOk (d : ResetDraws) (k : DrawKey) (ch : Channel) : (resetChannel d k ch).WiredOk := by
  refine ⟨?_, ?_, ?_, ?_, ?_, ?_, ?_, ?_⟩ <;> simp [resetChannel]

end Machine
end Sys2Proof
end

