-- ==== Sys2Proof/Laws/Inversion.lean ====
section
/-! SUPPORT. Inversion: what a one-channel move can have been, read from its outcome (spec rules R70, R103, R140, R160,
R180, R190), and which fields each kind of step can write. Claims about every step cite these. -/

namespace Sys2Proof
namespace Machine

/-- ACCEPT of a consumer command. -/
theorem acceptConsumer_cases (op : ConsumerOp) (ch : Channel) :
    acceptConsumer op ch = raiseFault codePrecondition op.word ch ∨
      acceptConsumer op ch = setFG (.sampled op ch.head) ch := by
  unfold acceptConsumer; split_ifs <;> simp

/-- ACCEPT of WRITE. -/
theorem acceptWrite_cases (b : Byte) (ch : Channel) :
    acceptWrite b ch = raiseFault codePrecondition (writeWord b) ch ∨ acceptWrite b ch = setFG (.poll b) ch := by
  unfold acceptWrite; split_ifs <;> simp

/-- A COMMIT writes RSP and, for CLEAR and READ, TAIL. -/
theorem commitOf_cases (op : ConsumerOp) (hs : Nat) (ch : Channel) :
    ∃ r n, commitOf op hs ch = { ch with rsp := r, tail := n } ∧ r.fault = 0#2 ∧
     (n = ch.tail ∨ (op = .read ∧ n = indexNext ch.params.cap ch.tail) ∨ (op = .clear ∧ n = hs)) := by
  cases op with
  | available => exact ⟨_, _, rfl, rfl, .inl rfl⟩
  | clear => exact ⟨_, _, rfl, rfl, .inr (.inr ⟨rfl, rfl⟩)⟩
  | peek => exact ⟨_, _, rfl, rfl, .inl rfl⟩
  | read =>
    have hc : commitOf .read hs ch = respondValue (byteValue (ringPop hs ch).1) (ringPop hs ch).2 := rfl
    rcases ringPop_cases hs ch with ⟨-, he⟩ | ⟨-, he⟩ <;> rw [hc, he]
    · exact ⟨_, _, rfl, rfl, .inl rfl⟩
    · exact ⟨_, _, rfl, rfl, .inr (.inl ⟨rfl, rfl⟩)⟩

/-- What a step leaves in each channel. -/
theorem step_chan {s t : State} {x : Stimulus} {rest : List Stimulus} (h : step s = .next t)
    (hin : s.inbox = x :: rest) (c : Chan) :
    channelMove c x (s.chan c) = some (t.chan c) := by
  obtain ⟨-, ⟨h0, -⟩ | ⟨x', rest', hin', -, hm⟩⟩ := step_next h
  · rw [h0] at hin; cases hin
  · rw [hin] at hin'; cases hin'; exact hm c

/-- Everything a one-channel move can have been, with what enabled it. -/
theorem channelMove_cases {c : Chan} {x : Stimulus} {ch ch' : Channel} (h : channelMove c x ch = some ch') :
    ch' = ch ∨
    (∃ k, x = .command c k ∧ ch.fg = .idle ∧ ((∃ i, decodeCommand k = .instr i ∧ ch' = acceptOf c i ch) ∨
        ∃ w, decodeCommand k = .rejected w ∧ ch' = raiseFault codeIllegalCommand k ch)) ∨
    (∃ op hs, x = .advance c ∧ ch.fg = .sampled op hs ∧ ch' = setFG .idle (commitOf op hs ch)) ∨
    (∃ b, x = .advance c ∧ ch.fg = .poll b ∧ ch' = pollStep b ch) ∨
    (∃ v b, x = .event c v ∧ decodeEvent v = .instr (.rxc b) ∧ ch.rxEnabled = true ∧ ch' = receiveByte b ch) ∨
    (x = .txrdy c ∧ ch' = txReady ch) ∨ (x = .reset ∧ ch' = resetOne c ch) ∨
    (∃ u, x = .ringPort c u ∧ ((∃ b, decodeRing u = .instr (.rbPush b) ∧ ch' = ringPush b ch) ∨
       (decodeRing u = .instr .rbPop ∧ ch' = { ch with tail := indexNext ch.params.cap ch.tail }) ∨
       (decodeRing u = .instr .rbClear ∧ ch' = ringClear (latchedHead ch) ch))) := by
  cases x <;> simp only [channelMove] at h
  case command c' k =>
    split_ifs at h with hc <;> cases h
    · subst hc
      unfold commandMove
      split_ifs with hfg
      · right; left
        refine ⟨k, rfl, hfg, ?_⟩
        cases hk : decodeCommand k with
        | instr i => exact .inl ⟨i, rfl, rfl⟩
        | rejected w => exact .inr ⟨w, rfl, rfl⟩
      · exact .inl rfl
    · exact .inl rfl
  case advance c' =>
    split_ifs at h with hc <;> cases h
    · subst hc
      unfold advanceMove
      split
      · exact .inl rfl
      · rename_i op hs hfg
        exact .inr (.inr (.inl ⟨op, hs, rfl, hfg, rfl⟩))
      · rename_i b hfg
        exact .inr (.inr (.inr (.inl ⟨b, rfl, hfg, rfl⟩)))
      · exact .inl rfl
    · exact .inl rfl
  case event c' v =>
    split_ifs at h with hc <;> cases h
    · subst hc
      unfold eventMove
      split
      · split_ifs with hrx
        · rename_i b hb
          exact .inr (.inr (.inr (.inr (.inl ⟨v, b, rfl, hb, hrx, rfl⟩))))
        · exact .inl rfl
      · exact .inl rfl
    · exact .inl rfl
  case txrdy c' =>
    split_ifs at h with hc <;> cases h
    · subst hc; exact .inr (.inr (.inr (.inr (.inr (.inl ⟨rfl, rfl⟩)))))
    · exact .inl rfl
  case reset => cases h; exact .inr (.inr (.inr (.inr (.inr (.inr (.inl ⟨rfl, rfl⟩))))))
  case ringPort c' u =>
    split_ifs at h with hc
    · subst hc
      unfold ringMove at h
      split at h
      · rename_i b hb; cases h
        exact .inr (.inr (.inr (.inr (.inr (.inr (.inr ⟨u, rfl, .inl ⟨b, hb, rfl⟩⟩))))))
      · rename_i hb; cases h
        rcases ringPop_cases (latchedHead ch) ch with ⟨-, h3⟩ | ⟨-, h3⟩
        · exact .inl h3
        · exact .inr (.inr (.inr (.inr (.inr (.inr (.inr ⟨u, rfl, .inr (.inl ⟨hb, h3⟩)⟩))))))
      · cases h; exact .inl rfl
      · cases h; exact .inl rfl
      · rename_i hb; cases h
        exact .inr (.inr (.inr (.inr (.inr (.inr (.inr ⟨u, rfl, .inr (.inr ⟨hb, rfl⟩)⟩))))))
      · cases h
    · cases h; exact .inl rfl

theorem acceptConsumer_frame (op : ConsumerOp) (ch : Channel) :
    ∃ f r u k, acceptConsumer op ch = { ch with fg := f, rsp := r, fault := u, fcmd := k } := by
  rcases acceptConsumer_cases op ch with h | h <;> rw [h] <;> exact ⟨_, _, _, _, rfl⟩

theorem acceptWrite_frame (b : Byte) (ch : Channel) :
    ∃ f r u k, acceptWrite b ch = { ch with fg := f, rsp := r, fault := u, fcmd := k } := by
  rcases acceptWrite_cases b ch with h | h <;> rw [h] <;> exact ⟨_, _, _, _, rfl⟩

/-- ACCEPT: BEGIN, END, or a command that writes only FG, RSP and the fault record. -/
theorem acceptOf_cases (c : Chan) (i : Instr) (ch : Channel) :
    (∃ b, i = .beginCmd b ∧ acceptOf c i ch = acceptBegin c b ch) ∨ (i = .endCmd ∧ acceptOf c i ch = acceptEnd ch) ∨
    ∃ f r u k, acceptOf c i ch = { ch with fg := f, rsp := r, fault := u, fcmd := k } := by
  cases i
  case beginCmd b => exact .inl ⟨b, rfl, rfl⟩
  case endCmd => exact .inr (.inl ⟨rfl, rfl⟩)
  case flush => exact .inr (.inr ⟨_, _, _, _, rfl⟩)
  case available => exact .inr (.inr (acceptConsumer_frame _ ch))
  case clear => exact .inr (.inr (acceptConsumer_frame _ ch))
  case peek => exact .inr (.inr (acceptConsumer_frame _ ch))
  case read => exact .inr (.inr (acceptConsumer_frame _ ch))
  case write b => exact .inr (.inr (acceptWrite_frame b ch))
  all_goals exact .inr (.inr ⟨_, _, _, _, rfl⟩)

theorem acceptOf_params (c : Chan) (i : Instr) (ch : Channel) : (acceptOf c i ch).params = ch.params := by
  rcases acceptOf_cases c i ch with ⟨b, -, h⟩ | ⟨-, h⟩ | ⟨f, r, u, k, h⟩ <;> rw [h]; exacts [acceptBegin_params .., rfl]

theorem acceptOf_st (c : Chan) (i : Instr) (ch : Channel) : (acceptOf c i ch).st = ch.st := by
  rcases acceptOf_cases c i ch with ⟨b, -, h⟩ | ⟨-, h⟩ | ⟨f, r, u, k, h⟩ <;> rw [h]; exacts [acceptBegin_st .., rfl]

theorem acceptOf_stDraw (c : Chan) (i : Instr) (ch : Channel) : (acceptOf c i ch).stDraw = ch.stDraw := by
  rcases acceptOf_cases c i ch with ⟨b, -, h⟩ | ⟨-, h⟩ | ⟨f, r, u, k, h⟩ <;> rw [h]; exacts [acceptBegin_stDraw .., rfl]

theorem acceptOf_head (c : Chan) (i : Instr) (ch : Channel) : (acceptOf c i ch).head = ch.head := by
  rcases acceptOf_cases c i ch with ⟨b, -, h⟩ | ⟨-, h⟩ | ⟨f, r, u, k, h⟩ <;> rw [h]; exacts [acceptBegin_head .., rfl]

theorem acceptOf_txdata (c : Chan) (i : Instr) (ch : Channel) : (acceptOf c i ch).txdata = ch.txdata := by
  rcases acceptOf_cases c i ch with ⟨b, -, h⟩ | ⟨-, h⟩ | ⟨f, r, u, k, h⟩ <;> rw [h]; exacts [acceptBegin_txdata .., rfl]

theorem acceptOf_txlog (c : Chan) (i : Instr) (ch : Channel) : (acceptOf c i ch).txlog = ch.txlog := by
  rcases acceptOf_cases c i ch with ⟨b, -, h⟩ | ⟨-, h⟩ | ⟨f, r, u, k, h⟩ <;> rw [h]; exacts [acceptBegin_txlog .., rfl]

theorem acceptOf_tail (c : Chan) (i : Instr) (ch : Channel) (hi : i ≠ .endCmd) :
    (acceptOf c i ch).tail = ch.tail := by
  rcases acceptOf_cases c i ch with ⟨b, -, h⟩ | ⟨he, h⟩ | ⟨f, r, u, k, h⟩ <;> rw [h]
  exacts [acceptBegin_tail .., absurd he hi]

theorem acceptOf_control (c : Chan) (i : Instr) (ch : Channel) (hi : i ≠ .endCmd) (hb : ∀ b, i ≠ .beginCmd b) :
    (acceptOf c i ch).control = ch.control := by
  rcases acceptOf_cases c i ch with ⟨b, he, h⟩ | ⟨he, h⟩ | ⟨f, r, u, k, h⟩ <;> rw [h]
  exacts [absurd he (hb _), absurd he hi]

theorem acceptOf_status (c : Chan) (i : Instr) (ch : Channel) (hb : ∀ b, i ≠ .beginCmd b) :
    (acceptOf c i ch).status = ch.status := by
  rcases acceptOf_cases c i ch with ⟨b, he, h⟩ | ⟨he, h⟩ | ⟨f, r, u, k, h⟩ <;> rw [h]; exacts [absurd he (hb _), rfl]

theorem acceptOf_end (c : Chan) (ch : Channel) : acceptOf c .endCmd ch = acceptEnd ch := rfl

theorem acceptOf_begin (c : Chan) (b : Baud) (ch : Channel) : acceptOf c (.beginCmd b) ch = acceptBegin c b ch := rfl

/-- One POLL step (R180, R181). -/
theorem pollStep_cases (b : Byte) (ch : Channel) :
   (ch.udre = true ∧ pollStep b ch = { ch with
      txdata := b, status := withBitClear ch.status ch.params.bUdre, txlog := ch.txlog ++ [b], fg := .idle,
      rsp := .returning 1#16 }) ∨
   (ch.udre = false ∧ pollStep b ch = { ch with fg := .poll b }) := by
  unfold pollStep
  cases h : ch.udre with
  | true => left; refine ⟨rfl, ?_⟩; rw [if_pos]; rfl; exact h
  | false => right; refine ⟨rfl, ?_⟩; rw [if_neg]; rfl; intro h'; have : ch.udre = true := h'; simp [h] at this

/-- A push changes one slot at most: the free one, when there is room (R121). -/
theorem ringPush_changes {b : Byte} {ch : Channel} {a : Nat}
    (h : Memory.read (ringPush b ch).st a ≠ Memory.read ch.st a) : a = ch.head ∧ ch.full = false ∧ Memory.read
    (ringPush b ch).st a = some b := by
  cases hf : ch.full with
  | true => rw [ringPush_full hf] at h; exact absurd rfl h
  | false =>
    rw [ringPush_stored hf] at *
    by_cases ha : a = ch.head
    · subst ha; exact ⟨rfl, rfl, Memory.read_write_same ..⟩
    · exact absurd (Memory.read_write_other _ _ ha) h

end Machine
end Sys2Proof
end

