-- ==== Sys2Proof/Laws/Run.lean ====
section
/-! SUPPORT. Runs of several steps, and what one stimulus does to the invariants of one channel (spec rules R25, R33,
R250). -/

namespace Sys2Proof
namespace Machine

/-! ### Runs -/

theorem core_run_succ (M : Host.Core) {n : Nat} {s t : M.State} : M.run (n + 1) s = .next t ↔
    ∃ u, M.step s = .next u ∧ M.run n u = .next t := by
  rw [Host.Core.run.eq_2]
  cases hs : M.step s <;> simp

theorem run_succ {n : Nat} {s t : State} : Sys2Proof.core.run (n + 1) s = .next t ↔ ∃ u, step s = .next u ∧
    Sys2Proof.core.run n u = .next t :=
  core_run_succ Sys2Proof.core

theorem run_zero {s t : State} : Sys2Proof.core.run 0 s = .next t ↔ s = t := by
  constructor
  · intro h; exact (Host.Outcome.next.inj h)
  · rintro rfl; rfl

theorem step_inbox {s t : State} {x : Stimulus} {rest : List Stimulus} (h : step s = .next t)
    (hin : s.inbox = x :: rest) : t.inbox = rest := by
  obtain ⟨-, ⟨h0, -⟩ | ⟨x', rest', hin', h, -⟩⟩ := step_next h
  · rw [h0] at hin; cases hin
  · rw [hin] at hin'; cases hin'; exact h

/-- A step answers what the two one-channel moves answer. -/
theorem step_of_moves {s : State} {x : Stimulus} {rest : List Stimulus} (hp : parametersInRange s = true)
    (hin : s.inbox = x :: rest)
    (f : Chan → Channel) (hm : ∀ c, channelMove c x (s.chan c) = some (f c)) :
    ∃ t, step s = .next t ∧ t.inbox = rest ∧ ∀ c, t.chan c = f c := by
  obtain ⟨t, ht⟩ := step_exists_next hp (fun x' rest' h' c => by rw [hin] at h'; cases h'; rw [hm c]; simp)
  refine ⟨t, ht, step_inbox ht hin, fun c => ?_⟩
  have := step_chan ht hin c
  rw [hm c] at this; exact (Option.some.inj this).symm

theorem params_step {s t : State} (hp : step s = .next t) : parametersInRange s = true := (step_next hp).1

theorem channelMove_params {c : Chan} {x : Stimulus} {ch ch' : Channel} (hm : channelMove c x ch = some ch') :
    ch'.params = ch.params := by
  rcases channelMove_cases hm with h | ⟨k, -, -, ⟨i, -, h⟩ | ⟨w, -, h⟩⟩ | ⟨op, hs, -, -, h⟩ | ⟨b, -, -, h⟩ |
    ⟨v, b, -, -, -, h⟩ |
    ⟨-, h⟩ | ⟨-, h⟩ | ⟨u, -, ⟨b, -, h⟩ | ⟨-, h⟩ | ⟨-, h⟩⟩ <;> rw [h]
  · exact acceptOf_params ..
  · rfl
  · obtain ⟨r, n, h2, -⟩ := commitOf_cases op hs ch; rw [h2]; rfl
  · rcases pollStep_cases b ch with ⟨-, h⟩ | ⟨-, h⟩ <;> rw [h]
  · rw [receiveByte_eq, ringPush_eq]
  · rfl
  · rfl
  · exact ringPush_params ..
  · rfl

/-- Only RESET draws the storage anew (R42). -/
theorem channelMove_stDraw {c : Chan} {x : Stimulus} {ch ch' : Channel} (hx : x ≠ .reset)
    (hm : channelMove c x ch = some ch') : ch'.stDraw = ch.stDraw := by
  rcases channelMove_cases hm with h | ⟨k, -, -, ⟨i, -, h⟩ | ⟨w, -, h⟩⟩ | ⟨op, hs, -, -, h⟩ | ⟨b, -, -, h⟩ |
    ⟨v, b, -, -, -, h⟩ | ⟨-, h⟩ | ⟨h1, h⟩ | ⟨u, -, ⟨b, -, h⟩ | ⟨-, h⟩ | ⟨-, h⟩⟩ <;> rw [h]
  · exact acceptOf_stDraw ..
  · rfl
  · obtain ⟨r, n, h2, -⟩ := commitOf_cases op hs ch; rw [h2]; rfl
  · rcases pollStep_cases b ch with ⟨-, h⟩ | ⟨-, h⟩ <;> rw [h]
  · rw [receiveByte_eq, ringPush_eq]
  · rfl
  · exact absurd h1 hx
  · rw [ringPush_eq]
  · rfl

theorem params_chan (s : State) : parametersInRange s =
    ((s.chan .ch0).params.wellFormed && (s.chan .ch1).params.wellFormed) := rfl

/-- RB.POP of a byte (R122): the queue, COUNT, FULL and EMPTY. -/
theorem pop_effects {ch : Channel} (hr : ch.RingOk) {hs : Nat} (hlt : hs < ch.params.cap)
    (hle : countOf ch.params.cap hs ch.tail ≤ ch.count)
    (hne : hs ≠ ch.tail) (ch' : Channel) (hch : ch' = { ch with tail := indexNext ch.params.cap ch.tail }) :
    ch.unread = ch.slot ch.tail :: ch'.unread ∧ ch'.count + 1 = ch.count ∧ ch'.full = false ∧
      (ch'.empty = true ↔ ch.count = 1) := by
  subst hch
  have hpos : countOf ch.params.cap hs ch.tail ≠ 0 := fun h0 => hne ((countOf_eq_zero_iff hlt hr.tail).1 h0)
  have hhead : ch.head ≠ ch.tail := by
    intro heq
    have : ch.count = 0 := by simp only [Channel.count, heq, countOf_self hr.tail]
    omega
  have hc := countOf_indexNext_tail hr.head hr.tail hhead
  obtain ⟨-, hh⟩ := hr.oldest hlt hle hne
  have hu := ringPop_unread hr hlt hle
  simp only [ringPop_byte hne, popEffect, if_neg hne, QueueEffect.apply] at hu
  have hlt' := hr.count_lt
  refine ⟨?_, hc, ?_, ?_⟩
  · rw [hu]
    cases hun : ch.unread with
    | nil => rw [hun] at hh; cases hh
    | cons a l => rw [hun] at hh; rw [Option.some.inj hh, List.tail_cons]
  · simp only [Channel.full, fullOf, decide_eq_false_iff_not]
    rw [indexNext_eq_tail_iff hr.head (indexNext_lt hr.tail)]
    simp only [Channel.count] at *
    have := hr.two_le
    omega
  · simp only [Channel.empty, emptyOf, decide_eq_true_eq]
    rw [← countOf_eq_zero_iff hr.head (indexNext_lt hr.tail)]
    simp only [Channel.count] at *
    omega

/-! ### The invariants of one channel, move by move -/

theorem commandMove_ringOk {c : Chan} {k : CommandWord} {ch : Channel} (h : ch.RingOk) :
    (commandMove c k ch).RingOk := by
  unfold commandMove
  split_ifs with hfg
  · split
    · exact acceptOf_ringOk h
    · exact h.idle_congr rfl rfl rfl rfl (by simp)
  · exact h

theorem advanceMove_ringOk {ch : Channel} (h : ch.RingOk) : (advanceMove ch).RingOk := by
  unfold advanceMove
  split
  · exact h
  · rename_i op hs hfg; exact (commitOf_ringOk h hfg).1
  · exact pollStep_ringOk h
  · exact h

theorem eventMove_ringOk {v : EventWord} {ch : Channel} (h : ch.RingOk) : (eventMove v ch).RingOk := by
  unfold eventMove
  split
  · split_ifs
    · exact receiveByte_ringOk h
    · exact h
  · exact h

theorem ringMove_ringOk {u : RingWord} {ch ch' : Channel} (h : ch.RingOk) (hm : ringMove u ch = some ch') :
    ch'.RingOk := by
  obtain ⟨hlt, hle, hfg⟩ := h.latched
  unfold ringMove at hm
  split at hm
  · cases hm; exact ringPush_ringOk h
  · cases hm; exact ringPop_ringOk h hlt hle hfg
  · cases hm; exact h
  · cases hm; exact h
  · cases hm; exact ringClear_ringOk h hlt hle hfg
  · cases hm

theorem countDraw_ringOk {ch : Channel} (h : ch.RingOk) : (countDraw ch).RingOk := h.fg_congr rfl rfl rfl rfl rfl

theorem resetOne_ringOk {c : Chan} {ch : Channel} (h : ch.RingOk) : (resetOne c ch).RingOk :=
  countDraw_ringOk (resetChannel_ringOk h.params)

theorem txReady_ringOk {ch : Channel} (h : ch.RingOk) : (txReady ch).RingOk := h.fg_congr rfl rfl rfl rfl rfl

/-- Every move keeps the ring-buffer invariant. -/
theorem channelMove_ringOk {c : Chan} {x : Stimulus} {ch ch' : Channel} (h : ch.RingOk)
    (hm : channelMove c x ch = some ch') : ch'.RingOk := by
  cases x <;> simp only [channelMove] at hm
  case command => split_ifs at hm <;> cases hm; exacts [commandMove_ringOk h, h]
  case advance => split_ifs at hm <;> cases hm; exacts [advanceMove_ringOk h, h]
  case event => split_ifs at hm <;> cases hm; exacts [eventMove_ringOk h, h]
  case txrdy => split_ifs at hm <;> cases hm; exacts [txReady_ringOk h, h]
  case reset => cases hm; exact resetOne_ringOk h
  case ringPort =>
    split_ifs at hm
    · exact ringMove_ringOk h hm
    · cases hm; exact h

theorem ringOk_chan (s : State) : s.RingOk ↔ ∀ c, (s.chan c).RingOk :=
  ⟨fun h c => by cases c; exacts [h.ch0, h.ch1], fun h => ⟨h .ch0, h .ch1⟩⟩

theorem ok_chan (s : State) : s.Ok ↔ ∀ c, (s.chan c).RingOk ∧ (s.chan c).WiredOk :=
  ⟨fun h c => by cases c; exacts [⟨h.ring.ch0, h.wired0⟩, ⟨h.ring.ch1, h.wired1⟩],
    fun h => ⟨⟨(h .ch0).1, (h .ch1).1⟩, (h .ch0).2, (h .ch1).2⟩⟩

theorem commandMove_wiredOk {c : Chan} {k : CommandWord} {ch : Channel} (h : ch.WiredOk) :
    (commandMove c k ch).WiredOk := by
  unfold commandMove
  split_ifs with hfg
  · split
    · exact acceptOf_wiredOk h hfg
    · exact raiseFault_wiredOk h (by decide) (by decide)
  · exact h

/-- Every move of the wired hardware keeps the wired invariant. -/
theorem channelMove_wiredOk {c : Chan} {x : Stimulus} {ch ch' : Channel} (hr : ch.RingOk) (h : ch.WiredOk)
    (hx : x.wired = true) (hm : channelMove c x ch = some ch') : ch'.WiredOk := by
  cases x <;> simp only [channelMove] at hm
  case command => split_ifs at hm <;> cases hm; exacts [commandMove_wiredOk h, h]
  case advance =>
    split_ifs at hm <;> cases hm
    · unfold advanceMove
      split
      · exact h
      · rename_i op hs hfg; exact commitOf_wiredOk hr h hfg
      · rename_i b hfg; exact pollStep_wiredOk h hfg
      · exact h
    · exact h
  case event =>
    split_ifs at hm <;> cases hm
    · unfold eventMove
      split
      · split_ifs with hrx
        · exact receiveByte_wiredOk h hrx
        · exact h
      · exact h
    · exact h
  case txrdy =>
    split_ifs at hm <;> cases hm
    · exact h.congr rfl rfl h.inactive h.polling h.sampling h.halted h.code h.response h.noValue
    · exact h
  case reset =>
    cases hm
    refine (resetChannel_wiredOk (Config.resetDraws c ch.draws) { chan := c, number := ch.draws + 1 } ch).congr rfl rfl (by intro; rfl) ?_ ?_ ?_ ?_ rfl (fun _ => rfl) <;>
      simp [resetOne, countDraw, resetChannel]
  case ringPort => cases hx

theorem params_of_ringOk {s : State} (h : s.RingOk) : parametersInRange s = true := by
  simp [parametersInRange, h.ch0.params, h.ch1.params]

/-- No move stops, reserved words of the internal port apart. -/
theorem channelMove_ne_none {c : Chan} {x : Stimulus} {ch : Channel} (hx : x.reserved = false) :
    channelMove c x ch ≠ none := by
  cases x <;> simp only [channelMove] <;> (try split_ifs) <;> try simp
  case pos u _ =>
    simp only [Stimulus.reserved, decide_eq_false_iff_not] at hx
    unfold ringMove
    cases hu : decodeRing u with
    | rejected w => simp [hu, Decoded.instr?] at hx
    | instr i =>
      have hp := decodeRing_port hu
      cases i <;> simp only [Instr.port, reduceCtorEq] at hp <;> simp

end Machine
end Sys2Proof
end

