-- ==== Sys2Proof/Laws/Execution.lean ====
section
/-! SUPPORT. Executions (spec rules R9, R10, R248, R249): that they exist, what one of their steps is, and that they keep the
invariants. -/

namespace Sys2Proof
namespace Machine

/-- One step of an execution, channel by channel. -/
theorem Executes.move {e : Nat → State} {x : Nat → Stimulus} (h : Executes e x) (n : Nat) (c : Chan) :
    channelMove c (x n) ((e n).chan c) = some ((e (n + 1)).chan c) := by
  have := step_chan (h n) rfl c
  rwa [withInbox_chan] at this

/-- A turn whose step the machine does not refuse extends an execution. -/
theorem turn_exists {s : State} {x : Stimulus} (hp : parametersInRange s = true) (hx : x.reserved = false) :
    ∃ t, step { s with inbox := [x] } = .next t ∧ parametersInRange t = true := by
  obtain ⟨t, ht⟩ := step_exists_next (s := { s with inbox := [x] }) hp (fun x' rest hin c => by
    cases hin; exact channelMove_ne_none hx)
  refine ⟨t, ht, ?_⟩
  have hm := fun c => channelMove_params (step_chan ht rfl c)
  simp only [withInbox_chan] at hm
  rw [params_chan, hm, hm, ← params_chan]
  exact hp

/-- Every sequence of turns without a reserved word of the internal port runs from every state with parameters in range. -/
theorem execution_exists (s : State) (x : Nat → Stimulus) (hp : parametersInRange s = true)
    (hx : ∀ n, (x n).reserved = false) : ∃ e, e 0 = s ∧ Executes e x := by
  let f : Nat → { s : State // parametersInRange s = true } := fun n =>
    Nat.rec ⟨s, hp⟩ (fun n u => ⟨(turn_exists u.2 (hx n)).choose, (turn_exists u.2 (hx n)).choose_spec.2⟩) n
  exact ⟨fun n => (f n).1, rfl, fun n => (turn_exists (f n).2 (hx n)).choose_spec.1⟩

/-- An execution of the wired hardware keeps the invariants (R250). -/
theorem Executes.ok {e : Nat → State} {x : Nat → Stimulus} (h : Executes e x) (h0 : (e 0).Ok)
    (hx : ∀ n, (x n).wired = true) : ∀ n, (e n).Ok := by
  intro n
  induction n with
  | zero => exact h0
  | succ n ih =>
    rw [ok_chan] at ih ⊢
    exact fun c => ⟨channelMove_ringOk (ih c).1 (h.move n c),
      channelMove_wiredOk (ih c).1 (ih c).2 (hx n) (h.move n c)⟩

/-- The accepted words, one more step. -/
theorem accepted_succ (e : Nat → State) (x : Nat → Stimulus) (n : Nat) :
    accepted e x (n + 1) = accepted e x n ++ (acceptedWord (e n) (x n)).toList := by
  simp only [accepted, List.range_succ, List.filterMap_append]
  cases h : acceptedWord (e n) (x n) <;> simp [h]

/-- Only a command word is accepted. -/
theorem acceptedWord_none {s : State} {x : Stimulus} (h : ∀ c k, x ≠ .command c k) : acceptedWord s x = none := by
  cases x <;> first | rfl | exact absurd rfl (h _ _)

/-- Without a command word and without RESET a channel at rest stays so, and neither its output nor its response
changes. -/
theorem rest_move {c : Chan} {x : Stimulus} {ch ch' : Channel} (hm : channelMove c x ch = some ch')
    (hx : ∀ c k, x ≠ .command c k) (hr : x ≠ .reset) (hfg : ch.fg = .idle) :
    ch'.fg = .idle ∧ ch'.fault = ch.fault ∧ ch'.txlog = ch.txlog ∧ ch'.rsp = ch.rsp := by
  rcases channelMove_cases hm with h | ⟨k, h, -⟩ | ⟨op, hs, -, h, -⟩ | ⟨b, -, h, -⟩ | ⟨v, b, -, -, -, h⟩ | ⟨-, h⟩ |
    ⟨h, -⟩ | ⟨u, -, ⟨b, -, h⟩ | ⟨-, h⟩ | ⟨-, h⟩⟩
  · rw [h]; exact ⟨hfg, rfl, rfl, rfl⟩
  · exact absurd h (hx _ _)
  · rw [hfg] at h; cases h
  · rw [hfg] at h; cases h
  · rw [h, receiveByte_eq, ringPush_eq]; exact ⟨hfg, rfl, rfl, rfl⟩
  · rw [h]; exact ⟨hfg, rfl, rfl, rfl⟩
  · exact absurd h hr
  · rw [h, ringPush_eq]; exact ⟨hfg, rfl, rfl, rfl⟩
  · rw [h]; exact ⟨hfg, rfl, rfl, rfl⟩
  · rw [h]; exact ⟨hfg, rfl, rfl, rfl⟩

/-- What one step can do to a polling WRITE: it goes on polling and keeps the bit once set, or it completes (R180, R181,
R182). -/
theorem poll_move {c : Chan} {x : Stimulus} {ch ch' : Channel} {b : Byte} (hm : channelMove c x ch = some ch')
    (hx : x ≠ .reset) (hfg : ch.fg = .poll b) :
    (ch'.fg = .poll b ∧ ch'.txlog = ch.txlog ∧ ch'.fault = ch.fault ∧
      (ch.udre = true → ch'.udre = true ∧ x ≠ .advance c) ∧ (x = .txrdy c → ch'.udre = true)) ∨
    (x = .advance c ∧ ch.udre = true ∧ ch'.fg = .idle ∧ ch'.txlog = ch.txlog ++ [b] ∧ ch'.fault = ch.fault ∧
      ch'.rsp = .returning 1#16) := by
  by_cases ha : x = .advance c
  · subst ha
    simp only [channelMove_advance, advanceMove, hfg, Option.some.injEq] at hm
    rw [← hm]
    rcases pollStep_cases b ch with ⟨hu, h⟩ | ⟨hu, h⟩ <;> rw [h]
    · exact .inr ⟨rfl, hu, rfl, rfl, rfl, rfl⟩
    · exact .inl ⟨rfl, rfl, rfl, fun h1 => absurd (hu.symm.trans h1) (by decide), fun h1 => by cases h1⟩
  · left
    by_cases ht : x = .txrdy c
    · subst ht
      simp only [channelMove_txrdy, Option.some.injEq] at hm
      have : (txReady ch).udre = true := by simp [Channel.udre, txReady]
      rw [← hm]
      exact ⟨hfg, rfl, rfl, fun _ => ⟨this, ha⟩, fun _ => this⟩
    · rcases channelMove_cases hm with h | ⟨k, -, h, -⟩ | ⟨op, hs, h, -⟩ | ⟨b, h, -⟩ | ⟨v, b, -, -, -, h⟩ | ⟨h, -⟩ |
        ⟨h, -⟩ | ⟨u, -, ⟨b, -, h⟩ | ⟨-, h⟩ | ⟨-, h⟩⟩
      · rw [h]; exact ⟨hfg, rfl, rfl, fun hu => ⟨hu, ha⟩, fun h1 => absurd h1 ht⟩
      · rw [hfg] at h; cases h
      · exact absurd h ha
      · exact absurd h ha
      · rw [h, receiveByte_eq, ringPush_eq]; exact ⟨hfg, rfl, rfl, fun hu => ⟨hu, ha⟩, fun h1 => absurd h1 ht⟩
      · exact absurd h ht
      · exact absurd h hx
      · rw [h, ringPush_eq]; exact ⟨hfg, rfl, rfl, fun hu => ⟨hu, ha⟩, fun h1 => absurd h1 ht⟩
      · rw [h]; exact ⟨hfg, rfl, rfl, fun hu => ⟨hu, ha⟩, fun h1 => absurd h1 ht⟩
      · rw [h]; exact ⟨hfg, rfl, rfl, fun hu => ⟨hu, ha⟩, fun h1 => absurd h1 ht⟩

/-! ### The end of a run (R249) -/

/-- A channel becomes HALTED only in the step that accepts a command there (R204). -/
theorem halt_move {c : Chan} {x : Stimulus} {ch ch' : Channel} (hm : channelMove c x ch = some ch')
    (h0 : ch.fg ≠ .halted) (h1 : ch'.fg = .halted) : ∃ k, x = .command c k ∧ ch.fg = .idle := by
  rcases channelMove_cases hm with h | ⟨k, hx, hi, -⟩ | ⟨op, hs, -, -, h⟩ | ⟨b, -, -, h⟩ | ⟨v, b, -, -, -, h⟩ | ⟨-, h⟩ |
    ⟨-, h⟩ | ⟨u, -, ⟨b, -, h⟩ | ⟨-, h⟩ | ⟨-, h⟩⟩
  · rw [h] at h1; exact absurd h1 h0
  · exact ⟨k, hx, hi⟩
  · rw [h] at h1; cases h1
  · rcases pollStep_cases b ch with ⟨-, hp⟩ | ⟨-, hp⟩ <;> rw [h, hp] at h1 <;> cases h1
  · rw [h, receiveByte_eq, ringPush_eq] at h1; exact absurd h1 h0
  · rw [h] at h1; exact absurd h1 h0
  · rw [h] at h1; cases h1
  · rw [h, ringPush_eq] at h1; exact absurd h1 h0
  · rw [h] at h1; exact absurd h1 h0
  · rw [h] at h1; exact absurd h1 h0

/-- HALTED is left by RESET only (R205). -/
theorem halted_move {c : Chan} {x : Stimulus} {ch ch' : Channel} (hm : channelMove c x ch = some ch')
    (hx : x ≠ .reset) (h0 : ch.fg = .halted) : ch'.fg = .halted := by
  rcases channelMove_cases hm with h | ⟨k, -, h, -⟩ | ⟨op, hs, -, h, -⟩ | ⟨b, -, h, -⟩ | ⟨v, b, -, -, -, h⟩ | ⟨-, h⟩ |
    ⟨h, -⟩ | ⟨u, -, ⟨b, -, h⟩ | ⟨-, h⟩ | ⟨-, h⟩⟩
  · rw [h]; exact h0
  · rw [h0] at h; cases h
  · rw [h0] at h; cases h
  · rw [h0] at h; cases h
  · rw [h, receiveByte_eq, ringPush_eq]; exact h0
  · rw [h]; exact h0
  · exact absurd h hx
  · rw [h, ringPush_eq]; exact h0
  · rw [h]; exact h0
  · rw [h]; exact h0

/-- A channel HALTED at step `i` is so until a RESET. -/
theorem Executes.halted {e : Nat → State} {x : Nat → Stimulus} (h : Executes e x) {c : Chan} {i : Nat}
    (h0 : ((e i).chan c).fg = .halted) : ∀ j, i ≤ j → (∀ k, i ≤ k → k < j → x k ≠ .reset) →
    ((e j).chan c).fg = .halted := by
  intro j hj
  induction j, hj using Nat.le_induction with
  | base => exact fun _ => h0
  | succ j hj ih =>
    exact fun hx => halted_move (h.move j c) (hx j hj (by omega)) (ih fun k h1 h2 => hx k h1 (by omega))

/-- A run that has done its program was HALTED at no step of it: success and failure exclude each other. -/
theorem Completed.not_failed {program : List (Chan × CommandWord)} {e : Nat → State} {x : Nat → Stimulus} {n : Nat}
    (h : Completed program e x n) (he : Executes e x) : ∀ m ≤ n, ¬FailedAt e m := by
  intro m
  induction m with
  | zero =>
    rintro - ⟨c, hc⟩
    have hs := h.start c
    simp only [Channel.atRest, Channel.endedFailed, Bool.and_eq_true, decide_eq_true_eq] at hs hc
    rw [hs.1] at hc; cases hc
  | succ i ih =>
    rintro hm ⟨c, hc⟩
    simp only [Channel.endedFailed, decide_eq_true_eq] at hc
    have h0 : ((e i).chan c).fg ≠ .halted := fun h1 =>
      ih (by omega) ⟨c, by simp only [Channel.endedFailed, h1, decide_true]⟩
    obtain ⟨k, hx, hi⟩ := halt_move (he.move i c) h0 hc
    obtain ⟨j, h1, -, h2, h3⟩ := h.completed i c k hm (by
      simp only [acceptedWord, hx, commandPortOpen, hi, decide_true, if_true])
    rw [he.halted hc (j + 1) (by omega) fun k h4 h5 => h2 k (by omega) (by omega)] at h3
    cases h3

/-- On a channel that hangs the bit is clear at every POLL step: one that found it set would have completed the WRITE (R181,
R184). -/
theorem HangsFrom.udre {c : Chan} {e : Nat → State} {x : Nat → Stimulus} {n : Nat} (h : HangsFrom c e x n)
    (he : Executes e x) {m : Nat} (hm : n ≤ m) (hx : x m = .advance c) : ((e m).chan c).udre = false := by
  obtain ⟨b, hb⟩ := h.1
  rcases poll_move (he.move m c) (by simp [hx]) (hb m hm) with ⟨-, -, -, hu, -⟩ | ⟨-, -, h1, -⟩
  · by_contra h0
    exact (hu (by simpa using h0)).2 hx
  · rw [hb (m + 1) (by omega)] at h1; cases h1

end Machine
end Sys2Proof
end

