-- ==== Sys2Proof/Laws/PerInstr.lean ====
section
/-! SUPPORT. What holds of every instruction as syntax, one lemma per constructor: the word the encoder writes stands on the
instruction's own port and selects the instruction's own row of the opcode table (spec rules R93 to R95). -/

namespace Sys2Proof
namespace Laws
namespace RowBits

/-- The encoded word is on the row's port and has the row's fixed bits. -/
def Statement (i : Instr) : Prop := (encode i).port = i.port ∧ i.row.selectedBy (encode i) = true

theorem beginCmd (baud : Baud) : Statement (.beginCmd baud) :=
  ⟨rfl, by simp [Instr.row, Row.selectedBy, encode, PortWord.port, PortWord.bits, beginRow_iff, opField_commandWord]⟩

theorem endCmd : Statement .endCmd := ⟨rfl, by decide⟩

theorem flush : Statement .flush := ⟨rfl, by decide⟩

theorem available : Statement .available := ⟨rfl, by decide⟩

theorem clear : Statement .clear := ⟨rfl, by decide⟩

theorem peek : Statement .peek := ⟨rfl, by decide⟩

theorem read : Statement .read := ⟨rfl, by decide⟩

theorem write (b : Byte) : Statement (.write b) :=
  ⟨rfl, by simp [Instr.row, Row.selectedBy, encode, PortWord.port, PortWord.bits, writeRow_iff, writeFields_iff,
    opField_commandWord, argField_commandWord, padded_high]⟩

theorem rxc (b : Byte) : Statement (.rxc b) :=
  ⟨rfl, by simp [Instr.row, Row.selectedBy, encode, PortWord.port, PortWord.bits, rxcRow_iff, append_high_field]⟩

theorem rbPush (b : Byte) : Statement (.rbPush b) :=
  ⟨rfl, by simp [Instr.row, Row.selectedBy, encode, PortWord.port, PortWord.bits, pushRow_iff, append_high_field]⟩

theorem rbPop : Statement .rbPop := ⟨rfl, by decide⟩

theorem rbPeek : Statement .rbPeek := ⟨rfl, by decide⟩

theorem rbCount : Statement .rbCount := ⟨rfl, by decide⟩

theorem rbClear : Statement .rbClear := ⟨rfl, by decide⟩

end RowBits
end Laws
end Sys2Proof
end

