-- ==== Sys2Proof/Laws/Window.lean ====
section
/-! SUPPORT. Exact next states of the steps of one channel, and what the events inside the window of a consumer command do
(spec rules R69, R131, R160, R190). -/

namespace Sys2Proof
namespace Machine

/-- `s` after steps that belong to channel `c`, left as `ch`, with `rest` still to come. -/
def stateAfter (s : State) (c : Chan) (ch : Channel) (rest : List Stimulus) : State :=
  ({ s with inbox := rest }.select c).setChan c ch

theorem after_chan (s : State) (c : Chan) (ch : Channel) (rest) :
    (stateAfter s c ch rest).chan c = ch := by simp [stateAfter]

theorem after_inbox (s : State) (c : Chan) (ch : Channel) (rest) :
    (stateAfter s c ch rest).inbox = rest := by simp [stateAfter]

theorem after_after (s : State) (c : Chan) (a b : Channel) (r r') : stateAfter
    (stateAfter s c a r) c b r' = stateAfter s c b r' := by cases c <;> rfl

theorem after_params {s : State} {c : Chan} {ch : Channel} (h : parametersInRange s = true)
    (hp : ch.params = (s.chan c).params) (rest) : parametersInRange (stateAfter s c ch rest) = true := by
  cases c <;> simp_all [parametersInRange, stateAfter, State.select, State.setChan, State.chan]

/-! ### Exact next states -/

/-- HOST presents a command word. -/
theorem step_command {s : State} {c : Chan} {k : CommandWord} {rest} (hp : parametersInRange s = true)
    (hin : s.inbox = .command c k :: rest) :
    step s = .next (stateAfter s c (commandMove c k (s.chan c)) rest) := by
  unfold step takeTurn
  rw [if_pos hp, hin]
  simp only [serve, serveCommand, select_cur, withInbox_chan, commandPortOpen, decide_eq_true_eq, decode]
  unfold commandMove
  by_cases hfg : (s.chan c).fg = .idle
  · rw [if_pos hfg, if_pos hfg]
    cases hk : decodeCommand k with
    | rejected w => simp only [stepChannel]; cases c <;> rfl
    | instr i =>
      simp only []
      rw [exec_command_idle (decodeCommand_port hk) (by simpa using hfg)]
      cases c <;> rfl
  · rw [if_neg hfg, if_neg hfg]; cases c <;> rfl

/-- PERIPH delivers a byte. -/
theorem step_event {s : State} {c : Chan} {b : Byte} {rest} (hp : parametersInRange s = true)
    (hin : s.inbox = .event c (rxWord b) :: rest) :
    step s = .next (stateAfter s c (if (s.chan c).rxEnabled then receiveByte b (s.chan c) else s.chan c) rest) := by
  unfold step takeTurn
  rw [if_pos hp, hin]
  have : decode (.v (rxWord b)) = .instr (.rxc b) := by
    simp [decode, decodeEvent, rxWord, append_low_byte, append_high_field]
  simp only [serve, serveEvent, this, exec_rxc, select_cur, withInbox_chan]
  split_ifs
  · cases c <;> rfl
  · cases c <;> rfl

/-- FGSEQ moves. -/
theorem step_advance {s : State} {c : Chan} {rest} (hp : parametersInRange s = true)
    (hin : s.inbox = .advance c :: rest) : step s = .next (stateAfter s c (advanceMove (s.chan c)) rest) := by
  unfold step takeTurn
  rw [if_pos hp, hin]
  simp only [serve, serveAdvance, select_cur, withInbox_chan]
  unfold advanceMove
  cases hfg : (s.chan c).fg with
  | idle => cases c <;> rfl
  | halted => cases c <;> rfl
  | poll b =>
    simp only []
    rw [exec_write_poll (by simpa using hfg)]
    cases c <;> rfl
  | sampled op hs =>
    simp only []
    rw [exec_consumer_sampled (by simpa using hfg)]
    cases c <;> rfl

/-- `n` steps. -/
def runFor (n : Nat) (s : State) : Host.Outcome State Fault Refusal := Sys2Proof.core.run n s

theorem core_run_step (M : Host.Core) {n : Nat} {s t : M.State} (h : M.step s = .next t) : M.run
    (n + 1) s = M.run n t := by
  rw [Host.Core.run.eq_2, h]

theorem run_step {n : Nat} {s t : State} (h : step s = .next t) : runFor (n + 1) s = runFor n t :=
  core_run_step Sys2Proof.core h

theorem run_nil (s : State) : runFor 0 s = .next s := rfl

/-- A channel after the peripheral has delivered `bs` to it; bytes that find the event disabled are lost (R191). -/
def received (bs : List Byte) (ch : Channel) : Channel :=
  bs.foldl (fun ch b => if ch.rxEnabled then receiveByte b ch else ch) ch

theorem received_nil (ch : Channel) : received [] ch = ch := rfl

theorem received_cons (b : Byte) (bs) (ch : Channel) : received (b :: bs) ch = received bs
    (if ch.rxEnabled then receiveByte b ch else ch) := rfl

theorem receiveByte_params (b : Byte) (ch : Channel) :
    (receiveByte b ch).params = ch.params := by rw [receiveByte_eq, ringPush_eq]

theorem receiveByte_control (b : Byte) (ch : Channel) :
    (receiveByte b ch).control = ch.control := by rw [receiveByte_eq, ringPush_eq]

theorem received_params (bs : List Byte) : ∀ ch, (received bs ch).params = ch.params := by
  induction bs with
  | nil => intro ch; rfl
  | cons b bs ih => intro ch; rw [received_cons, ih]; split_ifs; exacts [receiveByte_params .., rfl]

/-- A run over the events that deliver `bs`. -/
theorem run_deliver {s : State} {c : Chan} {n : Nat} {rest : List Stimulus} (hp : parametersInRange s = true)
    (bs : List Byte) :
    ∀ ch : Channel, ch.params = (s.chan c).params →
      runFor (bs.length + n) (stateAfter s c ch (deliver c bs ++ rest)) =
        runFor n (stateAfter s c (received bs ch) rest) := by
  induction bs with
  | nil => intro ch _; rw [List.length_nil, Nat.zero_add]; rfl
  | cons b bs ih =>
    intro ch hch
    have hst := step_event (s := stateAfter s c ch (deliver c (b :: bs) ++ rest)) (c := c) (b := b) 
      (rest := deliver c bs ++ rest) (after_params hp hch _) (after_inbox ..)
    rw [show (b :: bs).length + n = (bs.length + n) + 1 by simp; omega, run_step hst,
      after_after, after_chan, received_cons]
    apply ih
    split_ifs
    · rw [receiveByte_params]; exact hch
    · exact hch

theorem run_command {s : State} {c : Chan} {k : CommandWord} {ch : Channel} {rest} {n}
    (hp : parametersInRange s = true) (hch : ch.params = (s.chan c).params) :
    runFor (n + 1) (stateAfter s c ch (.command c k :: rest)) =
      runFor n (stateAfter s c (commandMove c k ch) rest) := by
  rw [run_step (step_command (after_params hp hch _) (after_inbox ..)), after_after, after_chan]

theorem run_advance {s : State} {c : Chan} {ch ch' : Channel} {rest} {n} (hp : parametersInRange s = true)
    (hch : ch.params = (s.chan c).params)
    (hm : advanceMove ch = ch') :
    runFor (n + 1) (stateAfter s c ch (.advance c :: rest)) = runFor n (stateAfter s c ch' rest) := by
  rw [run_step (step_advance (after_params hp hch _) (after_inbox ..)), after_after, after_chan, hm]

/-- The first step selects the channel. -/
theorem run_start {s : State} {c : Chan} {n : Nat} {L : List Stimulus} (hp : parametersInRange s = true)
    (hL : (∃ k r, L = .command c k :: r) ∨ ∃ b r, L = .event c (rxWord b) :: r) :
    runFor (n + 1) { s with inbox := L } = runFor (n + 1) (stateAfter s c (s.chan c) L) := by
  rcases hL with ⟨k, r, rfl⟩ | ⟨k, r, rfl⟩
  · rw [run_command hp rfl, run_step (step_command (s := { s with inbox := .command c k :: r }) hp rfl), withInbox_chan]
    cases c <;> rfl
  · rw [run_step (step_event (after_params hp rfl _) (after_inbox ..)),
      run_step (step_event (s := { s with inbox := .event c (rxWord k) :: r }) hp rfl), withInbox_chan,
      after_after, after_chan]
    cases c <;> rfl

/-! received on an active channel -/
theorem receiveByte_setFG (b : Byte) (f : FG) (ch : Channel) : receiveByte b (setFG f ch) = setFG f
    (receiveByte b ch) := by
  have hf : (setFG f ch).full = ch.full := rfl
  cases h : ch.full with
  | true => rw [receiveByte_eq, receiveByte_eq, ringPush_full h, ringPush_full (hf.trans h)]; rfl
  | false => rw [receiveByte_eq, receiveByte_eq, ringPush_stored h, ringPush_stored (hf.trans h)]; rfl

theorem receiveByte_rsp (b : Byte) (f : Response) (ch : Channel) : receiveByte b { ch with rsp := f } =
    { receiveByte b ch with rsp := f } := by
  have hf : ({ ch with rsp := f } : Channel).full = ch.full := rfl
  cases h : ch.full with
  | true => rw [receiveByte_eq, receiveByte_eq, ringPush_full h, ringPush_full (hf.trans h)]
  | false => rw [receiveByte_eq, receiveByte_eq, ringPush_stored h, ringPush_stored (hf.trans h)]

theorem rxEnabled_congr {ch ch' : Channel} (hp : ch'.params = ch.params) (hc : ch'.control = ch.control) :
    ch'.rxEnabled = ch.rxEnabled := by
  simp only [Channel.rxEnabled, hp, hc]

/-- Receiving does not depend on FG (R190). -/
theorem received_setFG (bs : List Byte) (f : FG) : ∀ ch, received bs (setFG f ch) = setFG f (received bs ch) := by
  induction bs with
  | nil => intro ch; rfl
  | cons b bs ih =>
    intro ch
    rw [received_cons, received_cons, show (setFG f ch).rxEnabled = ch.rxEnabled from rfl]
    split_ifs
    · rw [receiveByte_setFG, ih]
    · rw [ih]

/-- Receiving does not depend on RSP (R190). -/
theorem received_rsp (bs : List Byte) (f : Response) : ∀ ch : Channel, received bs { ch with rsp := f } =
    { received bs ch with rsp := f } := by
  induction bs with
  | nil => intro ch; rfl
  | cons b bs ih =>
    intro ch
    rw [received_cons, received_cons, show ({ ch with rsp := f } : Channel).rxEnabled = ch.rxEnabled from rfl]
    split_ifs
    · rw [receiveByte_rsp, ih]
    · rw [ih]

theorem received_disabled (bs : List Byte) {ch : Channel} (h : ch.rxEnabled = false) : received bs ch = ch := by
  induction bs with
  | nil => rfl
  | cons b bs ih => rw [received_cons, if_neg (by simp [h])]; exact ih

/-- What an active channel holds after a window of deliveries: the bytes that found room, in order (R127, R128). -/
theorem received_effects (bs : List Byte) : ∀ {ch : Channel}, ch.RingOk → ch.rxEnabled = true →
    (received bs ch).RingOk ∧ (received bs ch).tail = ch.tail ∧ (received bs ch).control = ch.control ∧
    (received bs ch).fg = ch.fg ∧ (received bs ch).rsp = ch.rsp ∧
    (received bs ch).unread = ch.unread ++ bs.take (ch.params.cap - 1 - ch.count) := by
  induction bs with
  | nil => intro ch h _; exact ⟨h, rfl, rfl, rfl, rfl, by simp [received]⟩
  | cons b bs ih =>
    intro ch h hrx
    have h1 := receiveByte_ringOk (b := b) h
    obtain ⟨a1, a2, a3, a4, a6, a5⟩ := ih h1
      (by rw [← hrx]; exact rxEnabled_congr (receiveByte_params ..) (receiveByte_control ..))
    rw [received_cons, if_pos hrx]
    refine ⟨a1, a2.trans ?_, a3.trans (receiveByte_control ..), a4.trans ?_, a6.trans ?_, a5.trans ?_⟩
    · rw [receiveByte_eq, ringPush_eq]
    · rw [receiveByte_eq, ringPush_eq]
    · rw [receiveByte_eq, ringPush_eq]
    · have hu : (receiveByte b ch).unread = (QueueEffect.push b).apply ch.params.cap ch.unread := by
        rw [receiveByte_eq, ← ringPush_unread h]; rfl
      have hc : (receiveByte b ch).count = (receiveByte b ch).unread.length := (Channel.unread_length _).symm
      rw [receiveByte_params, hc, hu, QueueEffect.apply, Channel.unread_length]
      have := h.count_lt
      split_ifs with hlt
      · have : ch.params.cap - 1 - ch.count = (ch.params.cap - 1 - (ch.unread ++ [b]).length) + 1 := by
          simp only [List.length_append, Channel.unread_length, List.length_cons, List.length_nil]; omega
        rw [this]; simp
      · have : ch.params.cap - 1 - ch.count = 0 := by omega
        rw [Channel.unread_length, this]; simp

theorem commandMove_consumer {c : Chan} {op : ConsumerOp} {ch : Channel} (hfg : ch.fg = .idle) :
    commandMove c op.word ch = acceptConsumer op ch := by
  unfold commandMove
  rw [if_pos hfg]
  have : decodeCommand op.word = .instr op.instr := by cases op <;> decide
  rw [this]
  cases op <;> rfl

theorem acceptConsumer_active {op : ConsumerOp} {ch : Channel} (h : ch.active = true) : acceptConsumer op ch = setFG
    (.sampled op ch.head) ch := by
  rw [acceptConsumer, h]; simp

theorem acceptConsumer_inactive {op : ConsumerOp} {ch : Channel} (hn : op.needsActive = true)
    (h : ch.active = false) : acceptConsumer op ch = raiseFault codePrecondition op.word ch := by
  rw [acceptConsumer, h, hn]; simp

theorem advance_sampled {op hs} {ch : Channel} (h : ch.fg = .sampled op hs) :
    advanceMove ch = setFG .idle (commitOf op hs ch) := by
  unfold advanceMove; rw [h]

/-- TAIL moved on by one slot (R122). -/
def nextTail (ch : Channel) : Channel := { ch with tail := indexNext ch.params.cap ch.tail }

/-! ### COMMIT steps -/

theorem advance_read_empty {ch : Channel} {hs} (h : hs = ch.tail) : advanceMove
    (setFG (.sampled .read hs) ch) = setFG .idle (respondValue noData ch) := by
  rw [advance_sampled (op := .read) (hs := hs) rfl, commitOf, commitRead,
    ringPop_empty (ch := setFG (.sampled .read hs) ch) h]; rfl

theorem advance_read_byte {ch : Channel} {hs} (h : hs ≠ ch.tail) : advanceMove (setFG (.sampled .read hs) ch) =
    setFG .idle (respondValue (widen (ch.slot ch.tail)) (nextTail ch)) := by
  rw [advance_sampled (op := .read) (hs := hs) rfl, commitOf, commitRead,
    ringPop_byte (ch := setFG (.sampled .read hs) ch) h]; rfl

theorem advance_peek_empty {ch : Channel} {hs} (h : hs = ch.tail) : advanceMove
    (setFG (.sampled .peek hs) ch) = setFG .idle (respondValue noData ch) := by
  rw [advance_sampled (op := .peek) (hs := hs) rfl, commitOf, commitPeek,
    ringPeek_empty (ch := setFG (.sampled .peek hs) ch) h]; rfl

theorem advance_peek_byte {ch : Channel} {hs} (h : hs ≠ ch.tail) : advanceMove (setFG (.sampled .peek hs) ch) =
    setFG .idle (respondValue (widen (ch.slot ch.tail)) ch) := by
  rw [advance_sampled (op := .peek) (hs := hs) rfl, commitOf, commitPeek,
    ringPeek_byte (ch := setFG (.sampled .peek hs) ch) h]; rfl

theorem advance_available {ch : Channel} {hs} : advanceMove (setFG (.sampled .available hs) ch) =
    setFG .idle (respondValue (countValue (ringCount hs ch)) ch) := by
  rw [advance_sampled (op := .available) (hs := hs) rfl]; rfl

theorem advance_halted {ch : Channel} (h : ch.fg = .halted) : advanceMove ch = ch := by
  unfold advanceMove; rw [h]

theorem empty_iff {ch : Channel} : ch.empty = true ↔ ch.head = ch.tail := by simp [Channel.empty, emptyOf]

theorem unread_head {ch : Channel} (hr : ch.RingOk) (hne : ch.head ≠ ch.tail) :
    ch.unread.head? = some (ch.slot ch.tail) :=
  (hr.oldest hr.head (le_refl _) hne).2

theorem unread_nil_iff {ch : Channel} (hr : ch.RingOk) : ch.unread = [] ↔ ch.head = ch.tail := by
  rw [← countOf_eq_zero_iff hr.head hr.tail, ← List.length_eq_zero_iff, Channel.unread_length]; rfl

/-- After the window the oldest byte is the same. -/
theorem received_oldest (bs : List Byte) {ch : Channel} (hr : ch.RingOk) (hrx : ch.rxEnabled = true)
    (hne : ch.head ≠ ch.tail) : (received bs ch).head ≠ (received bs ch).tail ∧
    (received bs ch).slot (received bs ch).tail = ch.slot ch.tail := by
  obtain ⟨h1, h2, h3, h4, -, h5⟩ := received_effects bs hr hrx
  have hh := unread_head hr hne
  have hne' : (received bs ch).head ≠ (received bs ch).tail := by
    rw [Ne, ← unread_nil_iff h1, h5]
    intro h
    have := (List.append_eq_nil_iff.1 h).1
    rw [this] at hh; cases hh
  refine ⟨hne', ?_⟩
  have hh2 := unread_head h1 hne'
  rw [h5, List.head?_append, hh] at hh2
  exact (Option.some.inj hh2).symm

/-- A consumer command with `bs` delivered inside its window, on an idle channel. -/
theorem run_window {s : State} {c : Chan} {op : ConsumerOp} {bs : List Byte} {rest} {n}
    (hp : parametersInRange s = true) {ch : Channel} (hch : ch.params = (s.chan c).params) (hfg : ch.fg = .idle)
    {ch' : Channel}
    (hm : advanceMove (received bs (acceptConsumer op ch)) = ch') :
    runFor (bs.length + 2 + n) (stateAfter s c ch (.command c op.word :: (deliver c bs ++ .advance c :: rest))) =
      runFor n (stateAfter s c ch' rest) := by
  have hpa : (acceptConsumer op ch).params = ch.params := by
    obtain ⟨_, _, _, _, h⟩ := acceptConsumer_frame op ch; rw [h]
  rw [show bs.length + 2 + n = (bs.length + (1 + n)) + 1 by omega, run_command hp hch, commandMove_consumer hfg,
    run_deliver hp bs _ (hpa.trans hch), Nat.add_comm 1 n,
    run_advance hp (by rw [received_params, hpa]; exact hch) hm]

/-- A consumer command with nothing inside its window. -/
theorem run_whole {s : State} {c : Chan} {op : ConsumerOp} {rest} {n} (hp : parametersInRange s = true)
    {ch : Channel} (hch : ch.params = (s.chan c).params) (hfg : ch.fg = .idle) {ch' : Channel}
    (hm : advanceMove (acceptConsumer op ch) = ch') :
    runFor (2 + n) (stateAfter s c ch (.command c op.word :: .advance c :: rest)) =
      runFor n (stateAfter s c ch' rest) := by
  have := run_window (bs := []) (n := n) (rest := rest) hp hch hfg hm
  rw [List.length_nil, Nat.zero_add] at this
  exact this

end Machine
end Sys2Proof
end

