-- ==== Sys2Proof/Tests/Slice0.lean ====
section
/-! SUPPORT. The model's own tests: words written out from the spec's encodings, ill-formed terms that the checks refuse, one
or two single steps per instruction from spec/95_test_vectors.md, and for every statement with hypotheses a concrete state
and operands that meet all of them. -/

namespace Sys2Proof
namespace Tests
open Sys2Proof.Machine

/-! ### Small states (the parameters of 95_test_vectors.md section 0) -/

/-- A channel of capacity `cap` at `(HEAD, TAIL)` with storage `st`. -/
def channel (cap head tail : Nat) (st : List Host.Cell) (control status : Byte) (fg : FG) : Channel :=
  { Channel.initial { chan := .ch0, number := 0 } { Config.defaultParams with cap := cap } with
    head := head, tail := tail, st := st, control := control, status := status, fg := fg }

/-- An active channel with `C` = 8. -/
def active (head tail : Nat) (st : List Host.Cell) (fg : FG) : Channel := channel 8 head tail st 0x9E#8 0x62#8 fg

/-- Reset state R0 of section 0, with `C` = 8. -/
def r0 : Channel :=
  { channel 8 0 0 [] 0x06#8 0x40#8 .idle with ubrrh := 0xAA#8, ubrrl := 0x55#8 }

/-- The hardware with `ch` as channel 0 and the stimuli `xs` to come. -/
def withCh0 (ch : Channel) (xs : List Stimulus) : State := { State.reset with ch0 := ch, inbox := xs }

/-- What `f` sees of the next state; none where the step stops. -/
def seen {α : Type} (f : State → α) (o : Host.Outcome State Fault Refusal) : Option α :=
  match o with
  | .next t => some (f t)
  | .fault _ => none
  | .refused _ => none

/-- `(HEAD, TAIL)` and slot `a` of channel 0. -/
def ring (a : Nat) (t : State) : Nat × Nat × Option Byte := (t.ch0.head, t.ch0.tail, Memory.read t.ch0.st a)

/-! ### Decoding (95_test_vectors.md section 2.1; R93 to R95, R98, R99) -/

theorem test_decode_begin_9600 : decode (.k 0x000002580#36) = .instr (.beginCmd 9600#32) := by decide
theorem test_decode_begin_max : decode (.k 0x0FFFFFFFF#36) = .instr (.beginCmd 4294967295#32) := by decide
theorem test_decode_end : decode (.k 0x100000000#36) = .instr .endCmd := by decide
theorem test_decode_flush : decode (.k 0x200000000#36) = .instr .flush := by decide
theorem test_decode_available : decode (.k 0x300000000#36) = .instr .available := by decide
theorem test_decode_clear : decode (.k 0x400000000#36) = .instr .clear := by decide
theorem test_decode_peek : decode (.k 0x500000000#36) = .instr .peek := by decide
theorem test_decode_read : decode (.k 0x600000000#36) = .instr .read := by decide
theorem test_decode_write_41 : decode (.k 0x700000041#36) = .instr (.write 0x41#8) := by decide
theorem test_decode_write_ff : decode (.k 0x7000000FF#36) = .instr (.write 0xFF#8) := by decide
theorem test_decode_write_too_wide : decode (.k 0x700000100#36) = .rejected .nonzeroArg := by decide
theorem test_decode_write_high_bit : decode (.k 0x780000000#36) = .rejected .nonzeroArg := by decide
theorem test_decode_end_with_arg : decode (.k 0x100000001#36) = .rejected .nonzeroArg := by decide
theorem test_decode_available_with_arg : decode (.k 0x3FFFFFFFF#36) = .rejected .nonzeroArg := by decide
theorem test_decode_op_8 : decode (.k 0x800000000#36) = .rejected .reservedOp := by decide
theorem test_decode_op_15 : decode (.k 0xFFFFFFFFF#36) = .rejected .reservedOp := by decide
theorem test_decode_rxc_41 : decode (.v 0x141#9) = .instr (.rxc 0x41#8) := by decide
theorem test_decode_rxc_ff : decode (.v 0x1FF#9) = .instr (.rxc 0xFF#8) := by decide
theorem test_decode_idle_event : decode (.v 0x0FF#9) = .rejected .idleEvent := by decide
theorem test_decode_push_41 : decode (.u 0x041#11) = .instr (.rbPush 0x41#8) := by decide
theorem test_decode_push_ff : decode (.u 0x0FF#11) = .instr (.rbPush 0xFF#8) := by decide
theorem test_decode_pop : decode (.u 0x100#11) = .instr .rbPop := by decide
theorem test_decode_rbPeek : decode (.u 0x200#11) = .instr .rbPeek := by decide
theorem test_decode_count : decode (.u 0x300#11) = .instr .rbCount := by decide
theorem test_decode_rbClear : decode (.u 0x400#11) = .instr .rbClear := by decide
theorem test_decode_pop_with_data : decode (.u 0x141#11) = .rejected .nonzeroData := by decide
theorem test_decode_sel_5 : decode (.u 0x500#11) = .rejected .reservedSel := by decide
theorem test_decode_sel_7 : decode (.u 0x7FF#11) = .rejected .reservedSel := by decide

/-- The opcode table's words by width, in whole bytes and in bits (log 14). -/
theorem test_decodeTableWord : decodeTableWord 40 0x700000041 = some (.write 0x41#8) ∧
    decodeTableWord 36 0x600000000 = some .read ∧ decodeTableWord 16 0x141 = some (.rxc 0x41#8) ∧
    decodeTableWord 9 0x100 = some (.rxc 0x00#8) ∧ decodeTableWord 16 0x100 = some .rbPop ∧
    decodeTableWord 11 0x400 = some .rbClear ∧ decodeTableWord 40 0x800000000 = none := by decide

/-- Response words of section 2.1. -/
theorem test_response_words : (Response.returning 3#16).word = 0x10003#19 ∧ (Response.returning 0xFFFF#16).word = 0x1FFFF#19 ∧
    Response.void.word = 0x00000#19 ∧ (Response.faulted 1#2).word = 0x20000#19 ∧
    (Response.faulted 2#2).word = 0x40000#19 := by decide

/-! ### Well-formedness: one ill-formed term for each check (R5, R90) -/

theorem test_wellFormed_default : Config.defaultParams.wellFormed = true := by decide
theorem test_wellFormed_smallest : { Config.defaultParams with cap := 2 }.wellFormed = true := by decide
theorem test_wellFormed_largest : { Config.defaultParams with cap := 32768 }.wellFormed = true := by decide
theorem test_refused_cap_1 : { Config.defaultParams with cap := 1 }.wellFormed = false := by decide
theorem test_refused_cap_32769 : { Config.defaultParams with cap := 32769 }.wellFormed = false := by decide
theorem test_refused_rxen_is_txen : { Config.defaultParams with bTxen := 4 }.wellFormed = false := by decide
theorem test_refused_rxen_is_rxcie : { Config.defaultParams with bRxcie := 4 }.wellFormed = false := by decide
theorem test_refused_txen_is_rxcie : { Config.defaultParams with bTxen := 7 }.wellFormed = false := by decide
theorem test_refused_u2x_is_udre : { Config.defaultParams with bUdre := 1 }.wellFormed = false := by decide
theorem test_refused_port : Instr.wellFormedAt .event .read = false ∧ Instr.wellFormedAt .ring (.write 0#8) = false ∧
    Instr.wellFormedAt .command (.rxc 0#8) = false ∧ Instr.wellFormedAt .command .rbPop = false := by decide
theorem test_step_refuses_cap_1 : step (withCh0 (channel 1 0 0 [] 0#8 0#8 .idle) []) = .refused .parametersOutOfRange := rfl

/-! ### One step of each instruction (95_test_vectors.md sections 2.2 to 2.9) -/

/-- BEGIN 9600 from R0 (2.5). -/
theorem test_begin_9600 : seen (fun t => (t.ch0.control, t.ch0.status, t.ch0.ubrrh, t.ch0.ubrrl))
    (exec (.beginCmd 9600#32) (withCh0 r0 [])) = some (0x9E#8, 0x42#8, 0x00#8, 0xCF#8) := by decide

/-- BEGIN 57600 clears U2X and keeps UDRE and bit 6 (2.5, S6). -/
theorem test_begin_57600 : seen (fun t => (t.ch0.status, t.ch0.ubrrh, t.ch0.ubrrl, t.ch0.head, t.ch0.tail))
    (exec (.beginCmd 57600#32) (withCh0 (active 5 2 [] .idle) [])) = some (0x60#8, 0x00#8, 0x10#8, 5, 2) := by decide

/-- END with every bit set keeps the opaque ones (2.5). -/
theorem test_end_keeps_opaque_bits : seen (fun t => (t.ch0.control, t.ch0.status, t.ch0.tail))
    (exec .endCmd (withCh0 (channel 8 5 2 [] 0xFF#8 0xFF#8 .idle) [])) = some (0x67#8, 0xFF#8, 5) := by decide

/-- FLUSH changes nothing but RSP (2.5). -/
theorem test_flush : seen (fun t => (t.ch0.rsp.word, t.ch0.head, t.ch0.tail))
    (exec .flush (withCh0 (active 5 2 [] .idle) [])) = some (0x00000#19, 5, 2) := by decide

/-- AVAILABLE across the wrap (2.6). -/
theorem test_available_wrapped : seen (fun t => t.ch0.rsp.word)
    (exec .available (withCh0 (active 2 5 [] (.sampled .available 2)) [])) = some 0x10005#19 := by decide

/-- AVAILABLE in R0 raises PRECONDITION (2.9). -/
theorem test_available_inactive : seen (fun t => (t.ch0.fault, t.ch0.fcmd, t.ch0.rsp.word, decide (t.ch0.fg = .halted)))
    (exec .available (withCh0 r0 [])) = some (1#2, 0x300000000#36, 0x20000#19, true) := by decide

/-- CLEAR keeps a byte pushed in the window (2.2, 2.6). -/
theorem test_clear_window : seen (fun t => (t.ch0.head, t.ch0.tail, t.ch0.rsp.word))
    (exec .clear (withCh0 (active 7 2 [] (.sampled .clear 6)) [])) = some (7, 6, 0x00000#19) := by decide

/-- CLEAR on an inactive channel: no fault (2.6). -/
theorem test_clear_inactive : seen (fun t => (t.ch0.fault, decide (t.ch0.fg = .sampled .clear 0)))
    (exec .clear (withCh0 r0 [])) = some (0#2, true) := by decide

/-- PEEK returns 0xFF as 255 (2.6). -/
theorem test_peek_ff : seen (fun t => (t.ch0.rsp.word, t.ch0.tail))
    (exec .peek (withCh0 (active 5 4 [(4, 0xFF#8)] (.sampled .peek 5)) [])) = some (0x100FF#19, 4) := by decide

/-- PEEK whose sample found nothing answers -1 though a byte came since (2.6). -/
theorem test_peek_stale_sample : seen (fun t => t.ch0.rsp.word)
    (exec .peek (withCh0 (active 3 2 [(2, 0x55#8)] (.sampled .peek 2)) [])) = some 0x1FFFF#19 := by decide

/-- READ returns 0x80 as 128 (2.6). -/
theorem test_read_80 : seen (fun t => (t.ch0.rsp.word, t.ch0.head, t.ch0.tail))
    (exec .read (withCh0 (active 5 4 [(4, 0x80#8)] (.sampled .read 5)) [])) = some (0x10080#19, 5, 5) := by decide

/-- READ: TAIL wraps (2.6). -/
theorem test_read_wraps : seen (fun t => (t.ch0.rsp.word, t.ch0.tail))
    (exec .read (withCh0 (active 0 7 [(7, 0x33#8)] (.sampled .read 0)) [])) = some (0x10033#19, 0) := by decide

/-- WRITE's POLL step with UDRE set (2.7). -/
theorem test_write_polls : seen (fun t => (t.ch0.txdata, t.ch0.status, t.ch0.txlog, t.ch0.rsp.word))
    (exec (.write 0x41#8) (withCh0 (active 0 0 [] (.poll 0x41#8)) [])) =
      some (0x41#8, 0x42#8, [0x41#8], 0x10001#19) := by decide

/-- WRITE in R0 raises PRECONDITION (2.9). -/
theorem test_write_inactive : seen (fun t => (t.ch0.fault, t.ch0.fcmd, t.ch0.txdata, t.ch0.txlog))
    (exec (.write 0x41#8) (withCh0 r0 [])) = some (1#2, 0x700000041#36, 0x00#8, []) := by decide

/-- RXC stores at HEAD (2.8). -/
theorem test_rxc : seen (fun t => (t.ch0.rxdata, ring 5 t)) (exec (.rxc 0x41#8) (withCh0 (active 5 2 [] .idle) [])) =
    some (0x41#8, 6, 2, some 0x41#8) := by decide

/-- RXC on an inactive channel: no change at all (2.8). -/
theorem test_rxc_inactive : seen (fun t => decide (t = withCh0 r0 [])) (exec (.rxc 0x41#8) (withCh0 r0 [])) =
    some true := by decide

/-- RB.PUSH: HEAD wraps (2.2). -/
theorem test_rbPush_wraps : seen (ring 7) (exec (.rbPush 0xAA#8) (withCh0 (active 7 3 [] .idle) [])) =
    some (0, 3, some 0xAA#8) := by decide

/-- RB.PUSH with a capacity that is no power of two (2.2). -/
theorem test_rbPush_capacity_5 : seen (ring 4) (exec (.rbPush 0x07#8) (withCh0 (channel 5 4 1 [] 0#8 0#8 .idle) [])) =
    some (0, 1, some 0x07#8) := by decide

/-- RB.POP: TAIL wraps (2.2). -/
theorem test_rbPop_wraps : seen (fun t => (t.ringOut, t.ch0.head, t.ch0.tail))
    (exec .rbPop (withCh0 (active 3 7 [(7, 0x5A#8)] .idle) [])) =
      some (.byte { valid := true, byte := 0x5A#8 }, 3, 0) := by decide

/-- RB.POP with a sample older than a push still reports empty (2.2). -/
theorem test_rbPop_stale_sample : seen (fun t => (t.ringOut, t.ch0.head, t.ch0.tail))
    (exec .rbPop (withCh0 (active 4 3 [(3, 0x00#8)] (.sampled .read 3)) [])) =
      some (.byte { valid := false, byte := 0#8 }, 4, 3) := by decide

/-- RB.PEEK: no change (2.2). -/
theorem test_rbPeek : seen (fun t => (t.ringOut, t.ch0.head, t.ch0.tail))
    (exec .rbPeek (withCh0 (active 3 7 [(7, 0x5A#8)] .idle) [])) =
      some (.byte { valid := true, byte := 0x5A#8 }, 3, 7) := by decide

/-- RB.COUNT across the wrap, and with a stale sample (2.2). -/
theorem test_rbCount : seen State.ringOut (exec .rbCount (withCh0 (active 3 7 [] .idle) [])) = some (.count 4) ∧
    seen State.ringOut (exec .rbCount (withCh0 (active 6 2 [] (.sampled .available 5)) [])) = some (.count 3) := by decide

/-- RB.CLEAR of a full buffer (2.2). -/
theorem test_rbClear_full : seen (fun t => (t.ch0.head, t.ch0.tail))
    (exec .rbClear (withCh0 (active 1 2 [] .idle) [])) = some (1, 1) := by decide

/-! ### The step -/

/-- An illegal word on an inactive channel: ILLEGAL_COMMAND before PRECONDITION (2.9). -/
theorem test_step_illegal_first : seen (fun t => (t.ch0.fault, t.ch0.fcmd))
    (step (withCh0 r0 [.command .ch0 0x600000001#36])) = some (2#2, 0x600000001#36) := by decide

/-- HALTED: the port does not accept (2.9). -/
theorem test_step_halted : seen (fun t => decide (t.ch0 = { r0 with fg := .halted, fault := 1#2 }))
    (step (withCh0 { r0 with fg := .halted, fault := 1#2 } [.command .ch0 0x000002580#36])) = some true := by decide

/-- RESET of an active channel (2.10). -/
theorem test_step_reset : seen (fun t => (t.ch0.head, t.ch0.tail, t.ch0.txlog))
    (step (withCh0 { active 5 2 [] (.poll 0x41#8) with txlog := [0x41#8] } [.reset])) = some (0, 0, []) := by decide

/-- A table word runs as the first instruction after reset (log 14). -/
theorem test_withFetchWord : seen (fun t => (t.ch0.control, t.ch0.ubrrl)) (step (State.reset.withFetchWord 40 0x000002580)) =
    some (0x98#8, 0xCF#8) := by decide

/-! ### Checks that decide the invariants on a concrete state -/

/-- RingOk as a Bool. -/
def ringCheck (ch : Channel) : Bool :=
  ch.params.wellFormed && decide (ch.head < ch.params.cap) && decide (ch.tail < ch.params.cap) &&
    decide (Memory.wf ch.params.cap ch.st) &&
    decide (∀ i < ch.count, (Memory.read ch.st ((ch.tail + i) % ch.params.cap)).isSome = true) &&
    (match ch.fg with
      | .sampled _ hs => decide (hs < ch.params.cap) && decide (countOf ch.params.cap hs ch.tail ≤ ch.count)
      | _ => true)

/-- WiredOk as a Bool. -/
def wiredCheck (ch : Channel) : Bool :=
  decide (testBit ch.control ch.params.bTxen = testBit ch.control ch.params.bRxen) &&
    decide (testBit ch.control ch.params.bRxcie = testBit ch.control ch.params.bRxen) &&
    (ch.active || decide (ch.head = ch.tail)) &&
    (match ch.fg with
      | .poll _ => ch.active
      | .sampled op _ => !op.needsActive || ch.active
      | _ => true) &&
    decide (ch.fg = .halted ↔ ch.fault ≠ 0#2) && decide (ch.fault ≠ 3#2) && decide (ch.rsp.fault = ch.fault) &&
    (ch.rsp.hasValue || decide (ch.rsp.value = 0#16))

theorem ringOk_of_check {ch : Channel} (h : ringCheck ch = true) : ch.RingOk := by
  simp only [ringCheck, Bool.and_eq_true, decide_eq_true_eq] at h
  obtain ⟨⟨⟨⟨⟨h1, h2⟩, h3⟩, h4⟩, h5⟩, h6⟩ := h
  refine ⟨h1, h2, h3, h4, h5, fun op hs hfg => ?_⟩
  rw [hfg] at h6
  simpa only [Bool.and_eq_true, decide_eq_true_eq] using h6

theorem wiredOk_of_check {ch : Channel} (h : wiredCheck ch = true) : ch.WiredOk := by
  simp only [wiredCheck, Bool.and_eq_true, decide_eq_true_eq] at h
  obtain ⟨⟨⟨⟨⟨⟨⟨h1, h2⟩, h3⟩, h4⟩, h5⟩, h6⟩, h7⟩, h8⟩ := h
  refine ⟨⟨h1, h2⟩, fun ha => ?_, fun b hfg => ?_, fun op hs hfg hn => ?_, h5, h6, h7, fun hv => ?_⟩
  · simpa [ha] using h3
  · simpa [hfg] using h4
  · simpa [hfg, hn] using h4
  · simpa [hv] using h8

theorem ok_of_check {s : State} (h : ringCheck s.ch0 && ringCheck s.ch1 && wiredCheck s.ch0 && wiredCheck s.ch1) : s.Ok := by
  simp only [Bool.and_eq_true] at h
  exact ⟨⟨ringOk_of_check h.1.1.1, ringOk_of_check h.1.1.2⟩, wiredOk_of_check h.1.2, wiredOk_of_check h.2⟩

/-- A step seen to end in a state with `P`. -/
theorem next_of_seen {P : State → Prop} [DecidablePred P] {o : Host.Outcome State Fault Refusal}
    (h : seen (fun t => decide (P t)) o = some true) : ∃ t, o = .next t ∧ P t := by
  cases o with
  | next t => exact ⟨t, rfl, by simpa [seen] using h⟩
  | fault r => cases h
  | refused r => cases h

/-! ### Every statement's hypotheses are met somewhere -/

/-- Three unread bytes, `(5, 2)`, as in the vectors. -/
def slots : List Host.Cell := [(2, 0x41#8), (3, 0x42#8), (4, 0x43#8)]

/-- `C` = 2 and one unread byte: full. -/
def full2 (fg : FG) : Channel := channel 2 1 0 [(0, 0x11#8)] 0x9E#8 0x62#8 fg

/-- HALTED on an illegal word. -/
def halted : Channel :=
  { active 5 2 slots .halted with fault := 2#2, fcmd := 0x800000000#36, rsp := .faulted 2#2 }

/-- A WRITE of 0x41 spinning with UDRE clear. -/
def spinning : Channel := channel 8 0 0 [] 0x9E#8 0x42#8 (.poll 0x41#8)

theorem test_meets_EncodeInvertsDecode : decode (.k 0x7000000FF#36) = .instr (.write 0xFF#8) ∧
    decode (.v 0x100#9) = .instr (.rxc 0#8) ∧ decode (.u 0x400#11) = .instr .rbClear := by decide

theorem test_meets_CommandDecodingFollowsR101 :
    8 ≤ (0x800000000#36).toNat / 2 ^ 32 ∧ (0x0FFFFFFFF#36).toNat / 2 ^ 32 = 0 ∧ (0x7000000FF#36).toNat / 2 ^ 32 = 7 ∧
    [Instr.endCmd, .flush, .available, .clear, .peek, .read][(0x100000000#36).toNat / 2 ^ 32 - 1]? = some .endCmd ∧
    [Instr.endCmd, .flush, .available, .clear, .peek, .read][(0x600000001#36).toNat / 2 ^ 32 - 1]? = some .read ∧
    1 ≤ (0x100000000#36).toNat / 2 ^ 32 ∧ parametersInRange (withCh0 r0 [.command .ch0 0x700000100#36]) = true ∧
    ((withCh0 r0 [.command .ch0 0x700000100#36]).chan .ch0).fg = .idle ∧
    decode (.k 0x700000100#36) = .rejected .nonzeroArg := by decide

theorem test_meets_StepRunsTheDecodedInstruction :
    parametersInRange (withCh0 (active 5 2 slots .idle) [.command .ch0 0x600000000#36]) = true ∧
    ((withCh0 (active 5 2 slots .idle) [.command .ch0 0x600000000#36]).chan .ch0).fg = .idle ∧
    decode (.k 0x600000000#36) = .instr .read ∧
    (withCh0 halted [.event .ch0 0x122#9]).inbox = .event .ch0 0x122#9 :: [] ∧
    decode (.v 0x122#9) = .instr (.rxc 0x22#8) ∧
    (withCh0 halted [.ringPort .ch0 0x100#11]).inbox = .ringPort .ch0 0x100#11 :: [] ∧
    decode (.u 0x100#11) = .instr .rbPop ∧
    (withCh0 spinning [.event .ch0 0x0FF#9]).inbox = .event .ch0 0x0FF#9 :: [] ∧
    decode (.v 0x0FF#9) = .rejected .idleEvent ∧
    (withCh0 halted [.ringPort .ch0 0x141#11]).inbox = .ringPort .ch0 0x141#11 :: [] ∧
    decode (.u 0x141#11) = .rejected .nonzeroData ∧ decode (.u 0x7FF#11) = .rejected .reservedSel := by decide

theorem test_meets_SequencerContinuesItsCommand (op : ConsumerOp) :
    parametersInRange (withCh0 (active 5 2 slots (.sampled op 5)) [.advance .ch0]) = true ∧
    ((withCh0 (active 5 2 slots (.sampled op 5)) [.advance .ch0]).chan .ch0).fg = .sampled op 5 ∧
    parametersInRange (withCh0 spinning [.advance .ch0]) = true ∧ spinning.fg = .poll 0x41#8 ∧
    parametersInRange (withCh0 halted [.advance .ch0]) = true ∧ halted.fg = .halted := ⟨rfl, rfl, rfl, rfl, rfl, rfl⟩

theorem test_meets_CommandPortClosedWhileBusy :
    parametersInRange (withCh0 spinning [.command .ch0 0x600000000#36]) = true ∧ spinning.fg ≠ .idle ∧
    parametersInRange (withCh0 halted [.command .ch0 0x800000000#36]) = true ∧ halted.fg ≠ .idle := by decide

theorem test_meets_IllegalWordRaisesIllegalCommand :
    parametersInRange (withCh0 (active 5 2 slots .idle) [.command .ch0 0x600000001#36]) = true ∧
    (active 5 2 slots .idle).fg = .idle ∧ decode (.k 0x600000001#36) = .rejected .nonzeroArg ∧
    decode (.k 0xF00000000#36) = .rejected .reservedOp := by decide

theorem test_meets_TxrdySetsOnlyUdre : parametersInRange (withCh0 spinning [.txrdy .ch0]) = true ∧
    (withCh0 spinning [.txrdy .ch0]).inbox = .txrdy .ch0 :: [] := by decide

theorem test_meets_ResetStepLeavesTheResetState : parametersInRange (withCh0 halted [.reset]) = true ∧
    (withCh0 halted [.reset]).inbox = .reset :: [] := by decide

theorem test_meets_EveryDrawOfResetIsOrdered : CleanEntry
      { State.reset with
        ch0 := resetChannel { (default : ResetDraws) with control := 0xFF#8 } { chan := .ch0, number := 7 } (full2 .idle),
        ch1 := resetChannel default { chan := .ch1, number := 1 } (active 5 2 slots .halted) } ∧
    parametersInRange
      { State.reset with
        ch0 := resetChannel { (default : ResetDraws) with control := 0xFF#8 } { chan := .ch0, number := 7 } (full2 .idle),
        ch1 := resetChannel default { chan := .ch1, number := 1 } (active 5 2 slots .halted) } = true :=
  ⟨⟨⟨_, _, _, rfl⟩, ⟨_, _, _, rfl⟩⟩, by decide⟩

theorem test_meets_EveryStepKeepsTheRingInvariant : (withCh0 (full2 (.sampled .read 1)) [.ringPort .ch0 0x400#11]).RingOk ∧
    ∃ t, step (withCh0 (full2 (.sampled .read 1)) [.ringPort .ch0 0x400#11]) = .next t :=
  ⟨(ok_of_check (by decide)).ring, _, rfl⟩

theorem test_meets_EveryWiredStepKeepsTheChannelInvariant :
    (withCh0 (full2 (.sampled .read 1)) [.event .ch0 0x155#9]).Ok ∧
    (∀ x, (withCh0 (full2 (.sampled .read 1)) [.event .ch0 0x155#9]).inbox.head? = some x → x.wired = true) ∧
    ∃ t, step (withCh0 (full2 (.sampled .read 1)) [.event .ch0 0x155#9]) = .next t :=
  ⟨ok_of_check (by decide), by rintro x ⟨⟩; rfl, _, rfl⟩

theorem test_meets_OrderedStateNeverStops : (withCh0 (full2 (.sampled .read 1)) [.ringPort .ch0 0x100#11]).RingOk ∧
    (∀ x, (withCh0 (full2 (.sampled .read 1)) [.ringPort .ch0 0x100#11]).inbox.head? = some x → x.reserved = false) ∧
    latchedHead (full2 (.sampled .read 1)) ≠ (full2 (.sampled .read 1)).tail :=
  ⟨(ok_of_check (by decide)).ring, by rintro x ⟨⟩; rfl, by decide⟩

theorem test_meets_NoStepChangesTheParameters : ∃ t, step (withCh0 r0 [.command .ch0 0x000002580#36]) = .next t :=
  ⟨_, rfl⟩

theorem test_meets_OnlyTheHandlerWritesHead :
    (∃ t, step (withCh0 (active 7 2 [] .idle) [.event .ch0 0x100#9]) = .next t ∧ (t.chan .ch0).head ≠ 7) ∧
    ∃ t, step (withCh0 (active 7 2 [] .idle) [.reset]) = .next t ∧ (t.chan .ch0).head ≠ 7 :=
  ⟨next_of_seen (by decide), next_of_seen (by decide)⟩

theorem test_meets_OnlyTheForegroundWritesTail :
    (∃ t, step (withCh0 (active 3 7 [(7, 0x5A#8)] (.sampled .read 3)) [.advance .ch0]) = .next t ∧ (t.chan .ch0).tail ≠ 7) ∧
    (∃ t, step (withCh0 (active 3 7 [] (.sampled .clear 2)) [.advance .ch0]) = .next t ∧ (t.chan .ch0).tail ≠ 7) ∧
    (∃ t, step (withCh0 (active 3 7 [] .idle) [.command .ch0 0x100000000#36]) = .next t ∧ (t.chan .ch0).tail ≠ 7) ∧
    ∃ t, step (withCh0 (active 3 7 [] .idle) [.reset]) = .next t ∧ (t.chan .ch0).tail ≠ 7 :=
  ⟨next_of_seen (by decide), next_of_seen (by decide), next_of_seen (by decide), next_of_seen (by decide)⟩

theorem test_meets_OnlyAPushWritesTheStorage :
    (∃ t, step (withCh0 (active 7 2 [] .idle) [.event .ch0 0x100#9]) = .next t ∧ Memory.read (t.chan .ch0).st 7 ≠ none) ∧
    (∃ t, step (withCh0 (active 5 2 ((5, 0xEE#8) :: slots) .idle) [.event .ch0 0x122#9]) = .next t ∧
      (t.chan .ch0).slot 5 ≠ (active 5 2 ((5, 0xEE#8) :: slots) .idle).slot 5) ∧
    (Stimulus.event .ch0 0x100#9).wired = true ∧ Stimulus.event .ch0 0x100#9 ≠ .reset :=
  ⟨next_of_seen (by decide), next_of_seen (by decide), by decide⟩

theorem test_meets_WriteGate :
    ∃ t, step (withCh0 (active 0 0 [] (.poll 0x41#8)) [.advance .ch0]) = .next t ∧
      ((t.chan .ch0).txdata ≠ 0x00#8 ∧ (t.chan .ch0).txlog ≠ [] ∧ (t.chan .ch0).udre = false ∧
        (t.chan .ch0).fg ≠ .poll 0x41#8) :=
  next_of_seen (by decide)

theorem test_meets_OpaqueBitsArePreserved :
    (∃ t, step (withCh0 r0 [.command .ch0 0x000002580#36]) = .next t) ∧
    (2 : Fin 8) ≠ r0.params.bRxen ∧ (2 : Fin 8) ≠ r0.params.bTxen ∧ (2 : Fin 8) ≠ r0.params.bRxcie ∧
    (6 : Fin 8) ≠ r0.params.bU2x ∧ (6 : Fin 8) ≠ r0.params.bUdre :=
  ⟨⟨_, rfl⟩, by decide⟩

theorem test_meets_OnlyResetLeavesAFault : ((withCh0 halted [.event .ch0 0x122#9]).chan .ch0).fg = .halted ∧
    (∃ t, step (withCh0 halted [.event .ch0 0x122#9]) = .next t) ∧ ∃ t, step (withCh0 halted [.reset]) = .next t :=
  ⟨rfl, ⟨_, rfl⟩, _, rfl⟩

theorem test_meets_ChannelsDoNotInteract :
    (∃ t, step (withCh0 (active 5 2 slots .idle) [.event .ch0 0x122#9]) = .next t) ∧
    (Stimulus.event .ch0 0x122#9).reaches .ch1 = false ∧
    ({ withCh0 (active 5 2 slots .idle) [.event .ch0 0x122#9] with ch1 := halted }).chan .ch0 =
      (withCh0 (active 5 2 slots .idle) [.event .ch0 0x122#9]).chan .ch0 ∧
    ∃ t', step { withCh0 (active 5 2 slots .idle) [.event .ch0 0x122#9] with ch1 := halted } = .next t' :=
  ⟨⟨_, rfl⟩, rfl, rfl, _, rfl⟩

theorem test_meets_StepsOfTheTwoChannelsCommute :
    (Stimulus.event .ch0 0x122#9).reaches .ch1 = false ∧ (Stimulus.command .ch1 0x600000000#36).reaches .ch0 = false ∧
    ∃ t, Sys2Proof.core.run 2
      (withCh0 (active 5 2 slots .idle) [.event .ch0 0x122#9, .command .ch1 0x600000000#36]) = .next t :=
  ⟨rfl, rfl, _, rfl⟩

theorem test_meets_ChannelStateMachine :
    (∃ t, step (withCh0 halted [.reset]) = .next t) ∧
    (∃ t, step (withCh0 r0 [.command .ch0 0x000002580#36]) = .next t ∧ (t.chan .ch0).active ≠ r0.active) ∧
    r0.fg = .idle ∧ decode (.k 0x000002580#36) = .instr (.beginCmd 9600#32) ∧
    (∃ t, step (withCh0 (active 5 2 slots .idle) [.command .ch0 0x100000000#36]) = .next t ∧
      (t.chan .ch0).active ≠ (active 5 2 slots .idle).active) ∧
    decode (.k 0x100000000#36) = .instr .endCmd :=
  ⟨⟨_, rfl⟩, next_of_seen (by decide), rfl, by decide, next_of_seen (by decide), by decide⟩

theorem test_meets_CounterArithmetic :
    (2 ≤ 2 ∧ 1 < 2 ∧ 0 < 2 ∧ (1 : Nat) ≠ 0) ∧ (2 ≤ 2 ∧ 0 < 2 ∧ fullOf 2 0 0 = false) ∧
    (2 ≤ 5 ∧ 4 < 5 ∧ 1 < 5 ∧ fullOf 5 4 1 = false) ∧ (2 ≤ 32768 ∧ 32767 < 32768 ∧ fullOf 32768 32767 32767 = false) := by
  decide

theorem test_meets_StorageReadsWhatWasWritten : (1 : Nat) ≠ 0 ∧ Memory.wf 2 [(0, 0x11#8)] ∧ 1 < 2 ∧
    Memory.wf 8 slots ∧ 7 < 8 := by decide

theorem test_meets_PushStoresAtHead : (withCh0 (active 7 3 ((3, 0x42#8) :: [(4, 1#8), (5, 2#8), (6, 3#8)]) .idle) []).cur.full = false ∧
    (withCh0 (active 7 3 ((3, 0x42#8) :: [(4, 1#8), (5, 2#8), (6, 3#8)]) .idle) []).cur.RingOk ∧
    ∃ t, exec (.rbPush 0xAA#8) (withCh0 (active 7 3 ((3, 0x42#8) :: [(4, 1#8), (5, 2#8), (6, 3#8)]) .idle) []) = .next t :=
  ⟨rfl, ringOk_of_check (by decide), _, rfl⟩

theorem test_meets_PushIntoFullBufferIsLost : (withCh0 (full2 .idle) []).cur.full = true ∧
    (withCh0 (full2 .idle) []).cur.rxEnabled = true := by decide

theorem test_meets_PopTakesTheOldestByte :
    (latchedHead (withCh0 (active 3 3 [] .idle) []).cur = 3 ∧ 3 = (withCh0 (active 3 3 [] .idle) []).cur.tail) ∧
    (latchedHead (withCh0 (active 4 3 [(3, 0x00#8)] (.sampled .read 3)) []).cur = 3) ∧
    (latchedHead (withCh0 (full2 .idle) []).cur = 1 ∧ 1 ≠ (withCh0 (full2 .idle) []).cur.tail) ∧
    (withCh0 (full2 .idle) []).cur.RingOk :=
  ⟨by decide, by decide, by decide, ringOk_of_check (by decide)⟩

theorem test_meets_PeekWritesNoState :
    (latchedHead (withCh0 (active 3 3 [] .idle) []).cur = 3 ∧ 3 = (withCh0 (active 3 3 [] .idle) []).cur.tail) ∧
    (latchedHead (withCh0 (full2 .idle) []).cur = 1 ∧ 1 ≠ (withCh0 (full2 .idle) []).cur.tail) ∧
    (withCh0 (full2 .idle) []).cur.RingOk :=
  ⟨by decide, by decide, ringOk_of_check (by decide)⟩

theorem test_meets_CountIsTheNumberOfUnreadBytes :
    latchedHead (withCh0 (active 2 5 [] (.sampled .available 2)) []).cur = 2 ∧
    2 = (withCh0 (active 2 5 [] (.sampled .available 2)) []).cur.head := by decide

theorem test_meets_ClearMovesTailToTheSample : latchedHead (withCh0 (full2 .idle) []).cur = 1 ∧
    1 = (withCh0 (full2 .idle) []).cur.head ∧ (withCh0 (full2 .idle) []).cur.RingOk ∧
    ∃ t, exec .rbClear (withCh0 (full2 .idle) []) = .next t :=
  ⟨rfl, rfl, ringOk_of_check (by decide), _, rfl⟩

/-- Nothing has been written: an RB.POP of slot 2 returns its draw, which no test can name (U5, D27). -/
theorem test_meets_UnwrittenSlotReadsItsDraw :
    (parametersInRange (withCh0 halted [.reset]) = true ∧ (withCh0 halted [.reset]).inbox = .reset :: []) ∧
    5 ≠ (withCh0 (active 5 2 [] .idle) []).cur.tail ∧
    Memory.read (withCh0 (active 5 2 [] .idle) []).cur.st (withCh0 (active 5 2 [] .idle) []).cur.tail = none ∧
    latchedHead (withCh0 (active 5 2 [] .idle) []).cur = 5 ∧
    (withCh0 (active 5 2 [] (.sampled .peek 5)) []).cur.fg = .sampled .peek 5 ∧
    (withCh0 (active 5 2 [] (.sampled .read 5)) []).cur.fg = .sampled .read 5 := by decide

theorem test_meets_PopsReturnBytesInPushOrder : (withCh0 (active 5 2 slots .idle) []).cur.RingOk ∧
    (∀ op hs, (withCh0 (active 5 2 slots .idle) []).cur.fg ≠ .sampled op hs) ∧
    (withCh0 (active 5 2 slots .idle) []).cur.unread = [0x41#8, 0x42#8, 0x43#8] :=
  ⟨ringOk_of_check (by decide), fun op hs h => FG.noConfusion h, by decide⟩

theorem test_meets_RingBufferRefinesAQueue : (withCh0 (active 5 2 slots (.sampled .read 5)) [.advance .ch0]).RingOk ∧
    ∃ t, step (withCh0 (active 5 2 slots (.sampled .read 5)) [.advance .ch0]) = .next t :=
  ⟨(ok_of_check (by decide)).ring, _, rfl⟩

/-- The window of program P4 (95_test_vectors.md section 3): `C` = 4, one byte at the sample, three inside. -/
theorem test_meets_ClearKeepsWhatTheWindowStored :
    let s := withCh0 (channel 4 1 0 [(0, 0xA1#8)] 0x9E#8 0x42#8 .idle)
      (.command .ch0 0x400000000#36 :: (deliver .ch0 [0xB1#8, 0xB2#8, 0xB3#8] ++ .advance .ch0 :: []))
    s.Ok ∧ (s.chan .ch0).fg = .idle ∧ (s.chan .ch0).active = true ∧
      seen (fun t => (t.chan .ch0).unread) (Sys2Proof.core.run 5 s) = some [0xB1#8, 0xB2#8] :=
  ⟨ok_of_check (by decide), rfl, rfl, by decide⟩

theorem test_meets_ReadWindowMovesToOneEnd :
    ((withCh0 (full2 .idle) []).Ok ∧ ((withCh0 (full2 .idle) []).chan .ch0).empty = false) ∧
    ((withCh0 (active 2 2 [] .idle) []).Ok ∧ ((withCh0 (active 2 2 [] .idle) []).chan .ch0).empty = true) ∧
    ((withCh0 (full2 .idle) []).chan .ch0).fg = .idle :=
  ⟨⟨ok_of_check (by decide), rfl⟩, ⟨ok_of_check (by decide), rfl⟩, rfl⟩

theorem test_meets_SnapshotsIgnoreTheWindow : (withCh0 (full2 .idle) []).Ok ∧ ((withCh0 (full2 .idle) []).chan .ch0).fg = .idle ∧
    (0x300000000#36 = 0x300000000#36 ∨ 0x300000000#36 = 0x500000000#36) ∧ (withCh0 r0 []).Ok ∧ r0.fg = .idle :=
  ⟨ok_of_check (by decide), rfl, .inl rfl, ok_of_check (by decide), rfl⟩

theorem test_meets_PeekForetellsTheNextRead :
    let s := withCh0 (full2 .idle) (.command .ch0 0x500000000#36 :: .advance .ch0 ::
      (deliver .ch0 [0x77#8] ++ .command .ch0 0x600000000#36 :: .advance .ch0 :: []))
    s.Ok ∧ (s.chan .ch0).fg = .idle ∧ (s.chan .ch0).active = true ∧ (s.chan .ch0).empty = false :=
  ⟨ok_of_check (by decide), rfl, rfl, rfl⟩

/-- Source example S8 with `C` = 4: three bytes fill the buffer. -/
theorem test_meets_ReceivedBytesAreReadInOrder :
    let bs := [0x41#8, 0x42#8, 0x43#8]
    let ch := channel 4 2 2 [] 0x9E#8 0x42#8 .idle
    ((withCh0 ch (deliver .ch0 bs ++ (wholeCommand .ch0 .available ++ []))).Ok ∧ ch.fg = .idle ∧ ch.active = true ∧
      ch.empty = true ∧ bs.length ≤ ch.params.cap - 1) ∧
    bs[2]? = some 0x43#8 ∧
    (withCh0 ch (deliver .ch0 bs ++ ((List.replicate 3 (wholeCommand .ch0 .read)).flatten ++ []))).Ok ∧
    seen (fun t => (t.chan .ch0).rsp.word) (Sys2Proof.core.run 5
      (withCh0 ch (deliver .ch0 bs ++ (wholeCommand .ch0 .available ++ [])))) = some 0x10003#19 ∧
    seen (fun t => (t.chan .ch0).rsp.word) (Sys2Proof.core.run 9
      (withCh0 ch (deliver .ch0 bs ++ ((List.replicate 3 (wholeCommand .ch0 .read)).flatten ++ [])))) = some 0x10043#19 :=
  ⟨⟨ok_of_check (by decide), rfl, rfl, rfl, by decide⟩, rfl, ok_of_check (by decide), by decide, by decide⟩

theorem test_meets_AvailableReturnsTheSampledCount : (0#32 = 0#32 ∧ 1#32 ≠ 0#32) ∧
    ((withCh0 (active 5 2 slots .idle) []).cur.fg = .idle ∧ (withCh0 (active 5 2 slots .idle) []).cur.active = true) ∧
    ((withCh0 r0 []).cur.fg = .idle ∧ (withCh0 r0 []).cur.active = false) ∧
    (withCh0 (full2 (.sampled .available 1)) []).cur.fg = .sampled .available 1 ∧
    (withCh0 (full2 (.sampled .available 1)) []).cur.RingOk ∧
    ∃ t, exec .available (withCh0 (full2 (.sampled .available 1)) []) = .next t :=
  ⟨by decide, by decide, by decide, rfl, ringOk_of_check (by decide), _, rfl⟩

theorem test_meets_ClearDiscardsTheSampledBytes : (withCh0 r0 []).cur.fg = .idle ∧
    (withCh0 (full2 (.sampled .clear 1)) []).cur.fg = .sampled .clear 1 ∧ 1 = (withCh0 (full2 (.sampled .clear 1)) []).cur.head ∧
    (withCh0 (full2 (.sampled .clear 1)) []).cur.RingOk ∧
    ∃ t, exec .clear (withCh0 (full2 (.sampled .clear 1)) []) = .next t :=
  ⟨rfl, rfl, rfl, ringOk_of_check (by decide), _, rfl⟩

theorem test_meets_PeekReturnsTheOldestByte :
    ((withCh0 (active 5 2 slots .idle) []).cur.fg = .idle ∧ (withCh0 (active 5 2 slots .idle) []).cur.active = true) ∧
    ((withCh0 r0 []).cur.fg = .idle ∧ (withCh0 r0 []).cur.active = false) ∧
    ((withCh0 (active 3 2 [(2, 0x55#8)] (.sampled .peek 2)) []).cur.fg = .sampled .peek 2 ∧
      2 = (withCh0 (active 3 2 [(2, 0x55#8)] (.sampled .peek 2)) []).cur.tail) ∧
    ((withCh0 (full2 (.sampled .peek 1)) []).cur.fg = .sampled .peek 1 ∧ 1 ≠ (withCh0 (full2 (.sampled .peek 1)) []).cur.tail) ∧
    (withCh0 (full2 (.sampled .peek 1)) []).cur.RingOk :=
  ⟨by decide, by decide, by decide, by decide, ringOk_of_check (by decide)⟩

theorem test_meets_ReadTakesTheOldestByte :
    ((withCh0 (active 5 2 slots .idle) []).cur.fg = .idle ∧ (withCh0 (active 5 2 slots .idle) []).cur.active = true) ∧
    ((withCh0 r0 []).cur.fg = .idle ∧ (withCh0 r0 []).cur.active = false) ∧
    ((withCh0 (active 3 2 [(2, 0x55#8)] (.sampled .read 2)) []).cur.fg = .sampled .read 2 ∧
      2 = (withCh0 (active 3 2 [(2, 0x55#8)] (.sampled .read 2)) []).cur.tail) ∧
    ((withCh0 (full2 (.sampled .read 1)) []).cur.fg = .sampled .read 1 ∧ 1 ≠ (withCh0 (full2 (.sampled .read 1)) []).cur.tail) ∧
    (withCh0 (full2 (.sampled .read 1)) []).cur.RingOk :=
  ⟨by decide, by decide, by decide, by decide, ringOk_of_check (by decide)⟩

theorem test_meets_WriteTransmitsOneByte : 256 ≤ (0x100#32).toNat ∧
    ((withCh0 (active 5 2 slots .idle) []).cur.fg = .idle ∧ (withCh0 (active 5 2 slots .idle) []).cur.active = true) ∧
    ((withCh0 r0 []).cur.fg = .idle ∧ (withCh0 r0 []).cur.active = false) ∧
    ((withCh0 (active 0 0 [] (.poll 0xFF#8)) []).cur.fg = .poll 0xFF#8 ∧ (active 0 0 [] (.poll 0xFF#8)).udre = true) ∧
    ((withCh0 spinning []).cur.fg = .poll 0x41#8 ∧ spinning.udre = false) := by decide

theorem test_meets_WriteHangsWithoutTxrdy :
    let xs := [Stimulus.advance .ch0, .event .ch0 0x10D#9, .command .ch0 0x600000000#36, .txrdy .ch1, .advance .ch0]
    (withCh0 spinning (xs ++ [])).Ok ∧ spinning.fg = .poll 0x41#8 ∧ spinning.udre = false ∧
      ∀ x ∈ xs, x.wired = true ∧ x ≠ .reset ∧ x ≠ .txrdy .ch0 :=
  ⟨ok_of_check (by decide), rfl, rfl, by decide⟩

theorem test_meets_WriteCompletesWhenTheTransmitterDrains :
    let xs := [Stimulus.advance .ch0, .txrdy .ch0, .event .ch0 0x10D#9, .advance .ch0]
    (withCh0 spinning (xs ++ [])).Ok ∧ spinning.fg = .poll 0x41#8 ∧ ServedIn .ch0 xs ∧
      ∀ x ∈ xs, x.wired = true ∧ x ≠ .reset :=
  ⟨ok_of_check (by decide), rfl, ⟨[.advance .ch0], [.event .ch0 0x10D#9], [], rfl⟩, by decide⟩

/-- A WRITE of 0x41, then the peripheral's and the sequencer's turns for ever. -/
def writeTurns (n : Nat) : Stimulus :=
  if n = 0 then .command .ch0 0x700000041#36 else if n % 2 = 1 then .txrdy .ch0 else .advance .ch0

theorem test_meets_WriteProgramEndsUnderTxDrains : ∃ e : Nat → State, Executes e writeTurns ∧ (e 0).Ok ∧
    (∀ c', ((e 0).chan c').atRest = true) ∧ ((e 0).chan .ch0).active = true ∧
    writeTurns 0 = .command .ch0 (7#4 ++ (0#24 ++ 0x41#8)) ∧
    (∀ n, (writeTurns n).wired = true ∧ writeTurns n ≠ .reset ∧ (0 < n → ∀ c' k, writeTurns n ≠ .command c' k)) ∧
    (∀ n, ∃ m, n ≤ m ∧ writeTurns m = .advance .ch0) ∧ TxDrains .ch0 e writeTurns := by
  have turn : ∀ n, writeTurns n = .command .ch0 0x700000041#36 ∧ n = 0 ∨ writeTurns n = .txrdy .ch0 ∨
      writeTurns n = .advance .ch0 := by
    intro n; unfold writeTurns; split_ifs with h <;> simp [h]
  obtain ⟨e, h0, he⟩ := execution_exists (withCh0 (active 0 0 [] .idle) []) writeTurns (by decide)
    (by intro n; rcases turn n with ⟨h, -⟩ | h | h <;> rw [h] <;> rfl)
  refine ⟨e, he, by rw [h0]; exact ok_of_check (by decide), by rw [h0]; rintro (_ | _) <;> rfl, by rw [h0]; decide,
    by decide, ?_, ?_, ?_⟩
  · intro n
    rcases turn n with ⟨h, hn⟩ | h | h <;> rw [h]
    · exact ⟨rfl, by decide, fun h => absurd h (by omega)⟩
    · exact ⟨rfl, by decide, fun _ _ _ => by simp⟩
    · exact ⟨rfl, by decide, fun _ _ _ => by simp⟩
  · intro n
    refine ⟨2 * n + 2, by omega, ?_⟩
    unfold writeTurns; rw [if_neg (by omega), if_neg (by omega)]
  · intro n b _
    refine ⟨2 * n + 1, by omega, ?_⟩
    unfold writeTurns; rw [if_neg (by omega), if_pos (by omega)]

/-- An event word shown while RXC is disabled is no RXC event; on an active channel it is one (R191, premise RxTrace). -/
theorem test_rxEvent : rxEvent .ch0 (withCh0 r0 []) (.event .ch0 0x141#9) = none ∧
    rxEvent .ch0 (withCh0 (active 5 2 slots .idle) []) (.event .ch0 0x141#9) = some 0x41#8 ∧
    rxEvent .ch0 (withCh0 (active 5 2 slots .idle) []) (.event .ch0 0x041#9) = none ∧
    rxEvent .ch1 (withCh0 (active 5 2 slots .idle) []) (.event .ch0 0x141#9) = none := by decide

/-- With commands still to come the reset state is not the end of a run (R249). -/
theorem test_reset_is_no_end (e : Nat → State) (x : Nat → Stimulus) : ¬EndsAt [(.ch0, 0x000002580#36)] e x 0 :=
  fun h => nomatch h.1.accepted

/-- READ on an inactive channel, HALTED, and whatever follows, RESET too: the run has failed and never ends successfully
(R231, R249). -/
theorem test_failed_run_never_ends (e : Nat → State) (x : Nat → Stimulus) (he : Executes e x) (h0 : (e 0).ch0 = r0)
    (hx : x 0 = .command .ch0 0x600000000#36) (n : Nat) : ¬EndsAt [(.ch0, 0x600000000#36)] e x n := by
  intro h
  have hf : (e 1).ch0.fg = .halted := by
    have hm := he.move 0 .ch0
    rw [hx, show (e 0).chan .ch0 = r0 from h0] at hm
    exact congrArg Channel.fg (Option.some.inj hm).symm
  cases n with
  | zero => exact nomatch h.1.accepted
  | succ n => exact h.1.not_failed he 1 (by omega) ⟨.ch0, decide_eq_true hf⟩

/-- A WRITE whose sequencer takes no turn is no hang: there are no POLL steps (R249). -/
theorem test_starved_write_is_no_hang (e : Nat → State) : ¬HangsFrom .ch0 e (fun _ => .txrdy .ch1) 0 :=
  fun h => by obtain ⟨k, -, hk⟩ := h.2 0 (le_refl _); cases hk

theorem test_meets_RxcPushesTheReceivedByte :
    ((withCh0 (full2 .idle) []).cur.rxEnabled = true ∧ (withCh0 (full2 .idle) []).cur.full = true) ∧
    ((withCh0 (channel 2 0 0 [] 0x9E#8 0x42#8 .idle) []).cur.rxEnabled = true ∧
      (withCh0 (channel 2 0 0 [] 0x9E#8 0x42#8 .idle) []).cur.full = false) ∧
    (withCh0 (channel 2 0 0 [] 0x9E#8 0x42#8 .idle) []).cur.RingOk ∧
    ∃ t, exec (.rxc 0x41#8) (withCh0 (channel 2 0 0 [] 0x9E#8 0x42#8 .idle) []) = .next t :=
  ⟨by decide, by decide, ringOk_of_check (by decide), _, rfl⟩

theorem test_meets_RxcIsLostWhileDisabled : testBit (withCh0 r0 []).cur.control (withCh0 r0 []).cur.params.bRxen = false ∧
    testBit (channel 8 0 0 [] 0x18#8 0#8 .idle).control (channel 8 0 0 [] 0x18#8 0#8 .idle).params.bRxcie = false := by decide

theorem test_meets_DivisorCalculator : (0#32 : Baud) = 0#32 ∧ (0xFFFFFFFF#32 : Baud) ≠ 0#32 := by decide

theorem test_meets_FixedRateForcesNormalSpeed : 489#32 ≠ 57600#32 ∧ 489#32 ≠ 0#32 ∧
    div2x 16000000#32 489#32 ≤ 4095#16 := by decide

theorem test_meets_LowRateRetriesOnce : (488#32 ≠ 0#32 ∧ 4095#16 < div2x 16000000#32 488#32) ∧
    (1#32 ≠ 0#32 ∧ 1#32 ≠ 57600#32 ∧ div2x 32768#32 1#32 = 4095#16) := by decide

theorem test_meets_BeginProgramsAndActivates : (withCh0 r0 []).cur.fg = .idle ∧ (9600#32 : Baud) ≠ 0#32 ∧
    (∃ t, exec (.beginCmd 9600#32) (withCh0 r0 []) = .next t) ∧ ∃ t, exec (.beginCmd 0#32) (withCh0 r0 []) = .next t :=
  ⟨rfl, by decide, ⟨_, rfl⟩, _, rfl⟩

theorem test_meets_BeginIsIdempotent : (withCh0 r0 []).cur.fg = .idle ∧ (9600#32 : Baud) ≠ 0#32 ∧
    ∃ t, exec (.beginCmd 9600#32) (withCh0 r0 []) = .next t :=
  ⟨rfl, by decide, _, rfl⟩

theorem test_meets_EndDeactivatesAndEmpties : (0#32 = 0#32 ∧ 1#32 ≠ 0#32) ∧ (withCh0 (full2 .idle) []).cur.fg = .idle ∧
    (withCh0 (full2 .idle) []).cur.RingOk ∧ ∃ t, exec .endCmd (withCh0 (full2 .idle) []) = .next t :=
  ⟨by decide, rfl, ringOk_of_check (by decide), _, rfl⟩

theorem test_meets_FlushChangesOnlyTheResponse : (0#32 = 0#32 ∧ 1#32 ≠ 0#32) ∧ (withCh0 r0 []).cur.fg = .idle :=
  ⟨by decide, rfl⟩

end Tests
end Sys2Proof
end

section
/-! PROOFS. Noninterference of the two channels (spec rule R43): what a step leaves in a channel is the one-channel move
`channelMove` of that channel alone. -/

namespace Sys2Proof
namespace Machine

/-- The write half of R43: the move of a channel that the stimulus does not reach is the identity. -/
theorem step_chan_of_not_reaches {s t : State} {x : Stimulus} {rest : List Stimulus} {c : Chan} (h : step s = .next t)
    (hin : s.inbox = x :: rest) (hx : x.reaches c = false) : t.chan c = s.chan c := by
  have hmove := step_chan h hin c
  rw [channelMove_other hx] at hmove
  exact (Option.some.inj hmove).symm

/-- The read half of R43: `channelMove` is given the channel itself and nothing of the other. -/
theorem step_chan_congr {s t s' t' : State} {x : Stimulus} {rest rest' : List Stimulus} {c : Chan}
    (h : step s = .next t) (hin : s.inbox = x :: rest) (h' : step s' = .next t') (hin' : s'.inbox = x :: rest')
    (hagree : s'.chan c = s.chan c) : t'.chan c = t.chan c := by
  have hmove := step_chan h hin c
  have hmove' := step_chan h' hin' c
  rw [hagree, hmove] at hmove'
  exact (Option.some.inj hmove').symm

/-- Settles O25: every step acts on a channel as that channel's own move, which is the identity where the stimulus does not
reach. -/
theorem channelsDoNotInteract : Obligations.ChannelsDoNotInteract := by
  intro s t x rest c hin h
  exact ⟨step_chan_of_not_reaches h hin, fun s' t' rest' hagree hin' h' => step_chan_congr h hin h' hin' hagree⟩

end Machine
end Sys2Proof
end

section
/-! PROOFS. A push into a full ring buffer (spec rule R128): the micro-operation RB.PUSH and the event RXC both hand the byte
to `ringPush`, which is the identity on a full buffer. -/

namespace Sys2Proof
namespace Machine

theorem exec_rbPush (b : Byte) (s : State) :
    exec (.rbPush b) s = .next ((s.setCur (ringPush b s.cur)).withRingOut .nothing) := rfl

theorem receiveByte_full {b : Byte} {ch : Channel} (h : ch.full = true) : receiveByte b ch = { ch with rxdata := b } := by
  rw [receiveByte_eq, ringPush_full h]

/-- RB.PUSH, the else arm of R128. -/
theorem exec_rbPush_full {b : Byte} {s : State} (hfull : s.cur.full = true) :
    exec (.rbPush b) s = .next (s.withRingOut .nothing) := by
  rw [exec_rbPush, ringPush_full hfull, setCur_self]

/-- RXC on a full buffer (R190): the byte stays in the data register alone. -/
theorem exec_rxc_full {b : Byte} {s : State} (hfull : s.cur.full = true) (hrx : s.cur.rxEnabled = true) :
    exec (.rxc b) s = .next (s.setCur { s.cur with rxdata := b }) := by
  rw [exec_rxc, if_pos hrx, receiveByte_full hfull]

/-- Settles O31: a push is the identity on a full buffer, and the RXC handler does nothing beyond that push but write the data
register. -/
theorem pushIntoFullBufferIsLost : Obligations.PushIntoFullBufferIsLost := by
  intro b s hfull
  exact ⟨exec_rbPush_full hfull, exec_rxc_full hfull⟩

end Machine
end Sys2Proof
end

section
/-! PROOFS. The branches of the baud-rate calculator BAUDSEL for a nonzero rate (spec rules R142, R144 and R145), one equation
each. -/

namespace Sys2Proof
namespace Machine

variable {draw : Bool × Setting} {fclk : BitVec 32} {baud : Baud}

/-- The fixed rate's branch (R144). -/
theorem baudSel_fixedBaud : baudSel draw fclk fixedBaud = (false, div1x fclk fixedBaud) := by
  rw [baudSel, if_neg (by decide), if_pos rfl]

/-- The retry (R145). The fixed rate needs no exception: its own branch gives the same. -/
theorem baudSel_of_setMax_lt (h0 : baud ≠ 0#32) (hgt : setMax < div2x fclk baud) :
    baudSel draw fclk baud = (false, div1x fclk baud) := by
  by_cases hfix : baud = fixedBaud
  · rw [hfix, baudSel_fixedBaud]
  · rw [baudSel, if_neg h0, if_neg hfix, if_pos hgt]

/-- The default branch (R142): the double-speed setting is kept up to and including `setMax`. -/
theorem baudSel_of_le_setMax (h0 : baud ≠ 0#32) (hfix : baud ≠ fixedBaud) (hle : div2x fclk baud ≤ setMax) :
    baudSel draw fclk baud = (true, div2x fclk baud) := by
  rw [baudSel, if_neg h0, if_neg hfix, if_neg (BitVec.not_lt.mpr hle)]

/-- Settles O55: 57600 has a branch of its own, before the comparison with `setMax` that decides every other nonzero rate. -/
theorem fixedRateForcesNormalSpeed : Obligations.FixedRateForcesNormalSpeed := by
  intro draw fclk
  refine ⟨baudSel_fixedBaud, ?_, ?at57600, ?at57599, ?at57601⟩
  · intro baud hfix h0 hle
    rw [baudSel_of_le_setMax h0 hfix hle]
  case at57600 => exact baudSel_fixedBaud
  case at57599 => exact baudSel_of_le_setMax (by decide) (by decide) (by decide)
  case at57601 => exact baudSel_of_le_setMax (by decide) (by decide) (by decide)

/-- Settles O56: the comparison with `setMax` is strict and made once, on the double-speed setting. -/
theorem lowRateRetriesOnce : Obligations.LowRateRetriesOnce := by
  intro draw fclk
  refine ⟨fun baud => baudSel_of_setMax_lt, ?_, by decide, ?at300, by decide, ?at110, by decide, by decide, ?at489,
    by decide, ?at488⟩
  · intro baud h0 hfix heq
    rw [baudSel_of_le_setMax h0 hfix (BitVec.le_of_eq heq), heq]
  case at300 => exact baudSel_of_setMax_lt (by decide) (by decide)
  case at110 => exact baudSel_of_setMax_lt (by decide) (by decide)
  case at489 => exact baudSel_of_le_setMax (by decide) (by decide) (by decide)
  case at488 => exact baudSel_of_setMax_lt (by decide) (by decide)

end Machine
end Sys2Proof
end

section
/-! PROOFS. The write gate (spec rule R182): one step of a channel either keeps the transmit side or is the POLL step that
found the data register empty. -/

namespace Sys2Proof
namespace Machine

/-- Nothing the write gate guards has happened between two states of a channel: no byte left, `STATUS[B_UDRE]` was not
cleared, and no WRITE left POLL. -/
structure TransmitKept (ch ch' : Channel) : Prop where
  txdata : ch'.txdata = ch.txdata
  txlog : ch'.txlog = ch.txlog
  udre : ch.udre = true → ch'.udre = true
  poll : ∀ b, ch.fg = .poll b → ch'.fg = .poll b

/-- A step that leaves these fields alone keeps the transmit side, whatever else it writes. -/
theorem TransmitKept.of_frame {ch ch' : Channel} (hdata : ch'.txdata = ch.txdata) (hlog : ch'.txlog = ch.txlog)
    (hparams : ch'.params = ch.params) (hstatus : ch'.status = ch.status) (hfg : ch'.fg = ch.fg) :
    TransmitKept ch ch' where
  txdata := hdata
  txlog := hlog
  udre hu := by rw [Channel.udre, hparams, hstatus]; exact hu
  poll b hb := hfg.trans hb

/-- R5 keeps the two bits of STATUS apart that the block uses. -/
theorem Params.bU2x_ne_bUdre {p : Params} (h : p.wellFormed = true) : p.bU2x ≠ p.bUdre := by
  rw [Params.wellFormed, Bool.and_eq_true] at h
  exact of_decide_eq_true h.2

theorem step_wellFormed {s t : State} (h : step s = .next t) (c : Chan) : (s.chan c).params.wellFormed = true := by
  have hp := params_step h
  rw [params_chan, Bool.and_eq_true] at hp
  cases c with
  | ch0 => exact hp.1
  | ch1 => exact hp.2

/-- BEGIN writes `STATUS[B_U2X]`, which is another bit (R147). -/
theorem acceptBegin_udre (c : Chan) (baud : Baud) {ch : Channel} (h : ch.params.bU2x ≠ ch.params.bUdre) :
    (acceptBegin c baud ch).udre = ch.udre := by
  simp only [Channel.udre, acceptBegin_params, acceptBegin_status]
  split_ifs <;> simp [h.symm]

theorem acceptOf_udre (c : Chan) (i : Instr) {ch : Channel} (h : ch.params.bU2x ≠ ch.params.bUdre) :
    (acceptOf c i ch).udre = ch.udre := by
  rcases acceptOf_cases c i ch with ⟨baud, -, ha⟩ | ⟨-, ha⟩ | ⟨f, r, u, k, ha⟩ <;> rw [ha]
  · exact acceptBegin_udre c baud h
  · rfl
  · rfl

/-- ACCEPT finds the channel IDLE, so no WRITE is there to leave POLL. -/
theorem acceptOf_transmitKept (c : Chan) (i : Instr) {ch : Channel} (h : ch.params.bU2x ≠ ch.params.bUdre)
    (hidle : ch.fg = .idle) : TransmitKept ch (acceptOf c i ch) where
  txdata := acceptOf_txdata c i ch
  txlog := acceptOf_txlog c i ch
  udre hu := (acceptOf_udre c i h).trans hu
  poll b hb := by rw [hidle] at hb; cases hb

theorem raiseFault_transmitKept (code : BitVec 2) (k : CommandWord) {ch : Channel} (hidle : ch.fg = .idle) :
    TransmitKept ch (raiseFault code k ch) where
  txdata := rfl
  txlog := rfl
  udre hu := hu
  poll b hb := by rw [hidle] at hb; cases hb

theorem commit_transmitKept {op : ConsumerOp} {hs : Nat} {ch : Channel} (hfg : ch.fg = .sampled op hs) :
    TransmitKept ch (setFG .idle (commitOf op hs ch)) := by
  obtain ⟨r, n, hc, -⟩ := commitOf_cases op hs ch
  rw [hc]
  exact ⟨rfl, rfl, fun hu => hu, fun b hb => by rw [hfg] at hb; cases hb⟩

theorem txReady_transmitKept (ch : Channel) : TransmitKept ch (txReady ch) where
  txdata := rfl
  txlog := rfl
  udre _ := by simp [Channel.udre]
  poll _ hb := hb

theorem ringPush_transmitKept (b : Byte) (ch : Channel) : TransmitKept ch (ringPush b ch) := by
  rw [ringPush_eq]
  exact .of_frame rfl rfl rfl rfl rfl

theorem receiveByte_transmitKept (b : Byte) (ch : Channel) : TransmitKept ch (receiveByte b ch) := by
  rw [receiveByte_eq, ringPush_eq]
  exact .of_frame rfl rfl rfl rfl rfl

/-- A POLL step that finds `STATUS[B_UDRE]` = 0 (R181). -/
theorem pollStep_of_not_udre {b : Byte} {ch : Channel} (hfg : ch.fg = .poll b) (hu : ch.udre = false) :
    pollStep b ch = ch := by
  rcases pollStep_cases b ch with ⟨hu', -⟩ | ⟨-, hp⟩
  · rw [hu] at hu'; cases hu'
  · rw [hp, ← hfg]

/-- A POLL step that finds `STATUS[B_UDRE]` = 1 (R180). -/
theorem pollStep_of_udre (b : Byte) {ch : Channel} (hu : ch.udre = true) : pollStep b ch =
    { ch with txdata := b, status := withBitClear ch.status ch.params.bUdre, txlog := ch.txlog ++ [b], fg := .idle,
              rsp := .returning 1#16 } := by
  rcases pollStep_cases b ch with ⟨-, hp⟩ | ⟨hu', -⟩
  · exact hp
  · rw [hu] at hu'; cases hu'

theorem pollStep_clears_udre (b : Byte) {ch : Channel} (hu : ch.udre = true) : (pollStep b ch).udre = false := by
  simp [pollStep_of_udre b hu, Channel.udre]

/-- R182 for one channel: the transmit side is kept, or this is a POLL step that found the gate open. -/
theorem channelMove_transmit {c : Chan} {x : Stimulus} {ch ch' : Channel} (hm : channelMove c x ch = some ch')
    (hp : ch.params.bU2x ≠ ch.params.bUdre) (hx : x ≠ .reset) :
    TransmitKept ch ch' ∨ x = .advance c ∧ ch.udre = true ∧ ∃ b, ch.fg = .poll b ∧ ch' = pollStep b ch := by
  rcases channelMove_cases hm with h | ⟨k, -, hidle, ⟨i, -, h⟩ | ⟨w, -, h⟩⟩ | ⟨op, hs, -, hfg, h⟩ | ⟨b, hadv, hfg, h⟩ |
    ⟨v, b, -, -, -, h⟩ | ⟨-, h⟩ | ⟨hreset, -⟩ | ⟨u, -, ⟨b, -, h⟩ | ⟨-, h⟩ | ⟨-, h⟩⟩
  · left; rw [h]; exact .of_frame rfl rfl rfl rfl rfl
  · left; rw [h]; exact acceptOf_transmitKept c i hp hidle
  · left; rw [h]; exact raiseFault_transmitKept _ k hidle
  · left; rw [h]; exact commit_transmitKept hfg
  · cases hu : ch.udre with
    | true => exact .inr ⟨hadv, rfl, b, hfg, h⟩
    | false => left; rw [h, pollStep_of_not_udre hfg hu]; exact .of_frame rfl rfl rfl rfl rfl
  · left; rw [h]; exact receiveByte_transmitKept b ch
  · left; rw [h]; exact txReady_transmitKept ch
  · exact absurd hreset hx
  · left; rw [h]; exact ringPush_transmitKept b ch
  · left; rw [h]; exact .of_frame rfl rfl rfl rfl rfl
  · left; rw [h]; exact .of_frame rfl rfl rfl rfl rfl

/-- What the statement of the gate watches for does not happen where the transmit side is kept. -/
theorem TransmitKept.not_changed {ch ch' : Channel} (h : TransmitKept ch ch') :
    ¬(ch'.txdata ≠ ch.txdata ∨ ch'.txlog ≠ ch.txlog ∨ (ch.udre = true ∧ ch'.udre = false) ∨
      ∃ b, ch.fg = .poll b ∧ ch'.fg ≠ .poll b) := by
  rintro (hdata | hlog | ⟨hu, hu'⟩ | ⟨b, hb, hb'⟩)
  · exact hdata h.txdata
  · exact hlog h.txlog
  · rw [h.udre hu] at hu'; cases hu'
  · exact hb' (h.poll b hb)

/-- Settles O22: a step that does not keep the transmit side is the POLL step that found the gate open, and that step's
effect is written out in `pollStep_of_udre`. -/
theorem writeGate : Obligations.WriteGate := by
  intro s t x rest c hin hx hstep hchanged
  rcases channelMove_transmit (step_chan hstep hin c) (Params.bU2x_ne_bUdre (step_wellFormed hstep c)) hx with
    hkept | ⟨hadv, hu, b, hfg, ht⟩
  · exact absurd hchanged hkept.not_changed
  · refine ⟨hadv, hu, b, hfg, ?_⟩
    rw [ht]
    have hclear := pollStep_clears_udre b hu
    rw [pollStep_of_udre b hu] at hclear ⊢
    exact ⟨rfl, rfl, hclear, rfl, rfl⟩

end Machine
end Sys2Proof
end

section
/-! PROOFS. What every step keeps (spec rules R4, R25, R33, R250), and the queue each ring buffer refines (rules R127, R240):
facts about the one-channel move, carried to the step by `step_next`. -/

namespace Sys2Proof
namespace Machine

/-! ### The invariants -/

/-- A step with no stimulus left changes nothing; any other is the product of the two one-channel moves. A property that
every move keeps is kept by every step. -/
theorem step_keeps {P : Channel → Prop} {s t : State} (h : step s = .next t) (h0 : ∀ c, P (s.chan c))
    (hmove : ∀ x, s.inbox.head? = some x → ∀ c ch', channelMove c x (s.chan c) = some ch' → P ch') :
    ∀ c, P (t.chan c) := by
  obtain ⟨-, ⟨-, rfl⟩ | ⟨x, rest, hin, -, hm⟩⟩ := step_next h
  · exact h0
  · exact fun c => hmove x (by rw [hin]; rfl) c _ (hm c)

/-- Settles O15: every one-channel move keeps the ring-buffer invariant. -/
theorem everyStepKeepsTheRingInvariant : Obligations.EveryStepKeepsTheRingInvariant := by
  intro s t hok h
  rw [ringOk_chan] at hok ⊢
  exact step_keeps h hok fun _ _ c _ => channelMove_ringOk (hok c)

/-- Settles O16: every one-channel move of the wired hardware keeps both invariants. -/
theorem everyWiredStepKeepsTheChannelInvariant : Obligations.EveryWiredStepKeepsTheChannelInvariant := by
  intro s t hok hwired h
  rw [ok_chan] at hok ⊢
  refine step_keeps (P := fun ch => ch.RingOk ∧ ch.WiredOk) h hok fun x hx c ch' hm => ?_
  obtain ⟨hring, hchan⟩ := hok c
  exact ⟨channelMove_ringOk hring hm, channelMove_wiredOk hring hchan (hwired x hx) hm⟩

/-- Settles O18: every one-channel move leaves the parameters. -/
theorem noStepChangesTheParameters : Obligations.NoStepChangesTheParameters := by
  intro s t c h
  obtain ⟨-, ⟨-, rfl⟩ | ⟨x, rest, -, -, hm⟩⟩ := step_next h
  · rfl
  · exact channelMove_params (hm c)

/-- Settles O17: only a reserved word stops a move, and the latched head is never ahead of what was written. -/
theorem orderedStateNeverStops : Obligations.OrderedStateNeverStops := by
  intro s hok hlegal
  refine ⟨step_exists_next (params_of_ringOk hok) fun x rest hin c => ?_, fun c hne => ?_⟩
  · exact channelMove_ne_none (hlegal x (by rw [hin]; rfl))
  · have hring := (ringOk_chan s).1 hok c
    obtain ⟨hlt, hle, -⟩ := hring.latched
    exact (hring.oldest hlt hle hne).1

/-! ### Reset states -/

/-- Settles O14: the invariants hold of a channel out of reset for every draw. -/
theorem everyDrawOfResetIsOrdered : Obligations.EveryDrawOfResetIsOrdered := by
  rintro s ⟨⟨d, k, ch, h0⟩, ⟨d', k', ch', h1⟩⟩ hp
  rw [parametersInRange, h0, h1, Bool.and_eq_true] at hp
  refine ⟨⟨?_, ?_⟩, ?_, ?_⟩
  · rw [h0]; exact resetChannel_ringOk hp.1
  · rw [h1]; exact resetChannel_ringOk hp.2
  · rw [h0]; exact resetChannel_wiredOk d k ch
  · rw [h1]; exact resetChannel_wiredOk d' k' ch'

/-- The draw that gives the registers of the model's start state (log 4). -/
def initialDraws : ResetDraws :=
  { ubrrh := 0#8, ubrrl := 0#8, status := 0x20#8, control := 0#8, rxdata := 0#8, txdata := 0#8, fcmd := 0#36 }

/-- The start state of a channel is a reset state. -/
theorem initial_eq_resetChannel (k : DrawKey) :
    Channel.initial k Config.defaultParams =
      resetChannel initialDraws k (Channel.initial k Config.defaultParams) := by
  simp [Channel.initial, resetChannel, initialDraws, withBitClear]

theorem reset_cleanEntry : CleanEntry State.reset :=
  ⟨⟨_, _, _, initial_eq_resetChannel _⟩, ⟨_, _, _, initial_eq_resetChannel _⟩⟩

/-- Settles O13: the model's start state is one draw of the reset. -/
theorem resetStateIsOrdered : Obligations.ResetStateIsOrdered :=
  everyDrawOfResetIsOrdered State.reset reset_cleanEntry (by decide)

/-! ### The queue of unread bytes -/

@[simp] theorem QueueEffect.apply_keep (cap : Nat) (q : List Byte) : QueueEffect.keep.apply cap q = q := rfl

theorem acceptEnd_unread {ch : Channel} (h : ch.RingOk) : (acceptEnd ch).unread = [] :=
  (unread_nil_iff (acceptEnd_ringOk h)).2 rfl

/-- ACCEPT of any command but END leaves the unread bytes. -/
theorem acceptOf_unread (c : Chan) {i : Instr} (ch : Channel) (hi : i ≠ .endCmd) :
    (acceptOf c i ch).unread = ch.unread :=
  Channel.unread_congr (acceptOf_params c i ch) (acceptOf_st c i ch) (acceptOf_stDraw c i ch) (acceptOf_head c i ch)
    (acceptOf_tail c i ch hi)

theorem commandMove_unread {c : Chan} {k : CommandWord} {ch : Channel} (h : ch.RingOk) :
    (commandMove c k ch).unread = (commandEffect k ch).apply ch.params.cap ch.unread := by
  unfold commandMove
  split_ifs with hfg
  · cases hk : decodeCommand k with
    | rejected w => simp only [commandEffect, hfg, hk]; rfl
    | instr i =>
      by_cases hi : i = .endCmd
      · subst hi
        simp only [commandEffect, hfg, hk]
        exact acceptEnd_unread h
      · have hkeep : commandEffect k ch = .keep := by simp [commandEffect, hfg, hk, hi]
        rw [hkeep]
        exact acceptOf_unread c ch hi
  · have hkeep : commandEffect k ch = .keep := by simp [commandEffect, hfg]
    rw [hkeep]; rfl

theorem pollStep_unread (b : Byte) (ch : Channel) : (pollStep b ch).unread = ch.unread := by
  rcases pollStep_cases b ch with ⟨-, hp⟩ | ⟨-, hp⟩ <;> rw [hp] <;> rfl

theorem advanceMove_unread {ch : Channel} (h : ch.RingOk) :
    (advanceMove ch).unread = (advanceEffect ch).apply ch.params.cap ch.unread := by
  unfold advanceMove
  cases hfg : ch.fg with
  | idle => simp only [advanceEffect, hfg]; rfl
  | sampled op hs => exact (commitOf_ringOk h hfg).2
  | poll b => simp only [advanceEffect, hfg]; exact pollStep_unread b ch
  | halted => simp only [advanceEffect, hfg]; rfl

theorem receiveByte_unread {b : Byte} {ch : Channel} (h : ch.RingOk) :
    (receiveByte b ch).unread = (QueueEffect.push b).apply ch.params.cap ch.unread := by
  rw [receiveByte_eq, ← ringPush_unread h]
  rfl

theorem eventMove_unread {v : EventWord} {ch : Channel} (h : ch.RingOk) :
    (eventMove v ch).unread = (eventEffect v ch).apply ch.params.cap ch.unread := by
  cases hv : decodeEvent v with
  | rejected why => simp only [eventMove, eventEffect, hv, QueueEffect.apply_keep]
  | instr i =>
    obtain ⟨b, rfl⟩ := decodeEvent_port hv
    simp only [eventMove, eventEffect, hv]
    split_ifs
    · exact receiveByte_unread h
    · rfl

theorem ringMove_unread {u : RingWord} {ch ch' : Channel} (h : ch.RingOk) (hm : ringMove u ch = some ch') :
    ch'.unread = (ringPortEffect u ch).apply ch.params.cap ch.unread := by
  obtain ⟨hlt, hle, -⟩ := h.latched
  unfold ringMove at hm
  unfold ringPortEffect
  split at hm <;> cases hm <;> rename_i hu <;> simp only [hu]
  · exact ringPush_unread h
  · exact ringPop_unread h hlt hle
  · rfl
  · rfl
  · exact ringClear_unread h hlt hle

theorem resetOne_unread {c : Chan} {ch : Channel} (h : ch.RingOk) : (resetOne c ch).unread = [] :=
  (unread_nil_iff (resetOne_ringOk h)).2 rfl

/-- The simulation, one move: the abstract queue does the effect of the stimulus. -/
theorem channelMove_unread {c : Chan} {x : Stimulus} {ch ch' : Channel} (h : ch.RingOk)
    (hm : channelMove c x ch = some ch') : ch'.unread = (queueEffect c x ch).apply ch.params.cap ch.unread := by
  cases x <;> simp only [channelMove, queueEffect] at hm ⊢
  case command => split_ifs at hm ⊢ <;> cases hm; exacts [commandMove_unread h, rfl]
  case advance => split_ifs at hm ⊢ <;> cases hm; exacts [advanceMove_unread h, rfl]
  case event => split_ifs at hm ⊢ <;> cases hm; exacts [eventMove_unread h, rfl]
  case txrdy => split_ifs at hm <;> cases hm <;> rfl
  case reset => cases hm; exact resetOne_unread h
  case ringPort =>
    split_ifs at hm ⊢
    · exact ringMove_unread h hm
    · cases hm; rfl

/-- Settles O38: each one-channel move simulates the effect of its stimulus on the queue. -/
theorem ringBufferRefinesAQueue : Obligations.RingBufferRefinesAQueue := by
  intro s t x rest c hok hin h
  exact channelMove_unread ((ringOk_chan s).1 hok c) (step_chan h hin c)

end Machine
end Sys2Proof
end

section
/-! PROOFS. The decoder and the encoder (spec rules R91 to R96, R98, R99, R101): the cases of the command decoder, one per
kind of command, and the two round trips. -/

namespace Sys2Proof

/-! ### The command decoder -/

/-- The K0 commands, by command number (R93). -/
def noOperandCommands : List (BitVec 4 × Instr) :=
  [(1#4, .endCmd), (2#4, .flush), (3#4, .available), (4#4, .clear), (5#4, .peek), (6#4, .read)]

theorem decodeCommand_reserved {k : CommandWord} (h : 8#4 ≤ opField k) : decodeCommand k = .rejected .reservedOp := by
  simp only [decodeCommand, if_pos h]

theorem decodeCommand_begin {k : CommandWord} (h : opField k = 0#4) :
    decodeCommand k = .instr (.beginCmd (argField k)) := by
  simp [decodeCommand, h]

theorem decodeCommand_write {k : CommandWord} (h : opField k = 7#4) : decodeCommand k =
    if (argField k).extractLsb' 8 24 = 0#24 then .instr (.write ((argField k).extractLsb' 0 8))
    else .rejected .nonzeroArg := by
  simp [decodeCommand, h]

theorem decodeCommand_noOperand {k : CommandWord} {i : Instr} (h : (opField k, i) ∈ noOperandCommands) :
    decodeCommand k = decodeNoOperand (argField k) i := by
  simp only [noOperandCommands, List.mem_cons, Prod.mk.injEq, List.not_mem_nil, or_false] at h
  rcases h with ⟨h, rfl⟩ | ⟨h, rfl⟩ | ⟨h, rfl⟩ | ⟨h, rfl⟩ | ⟨h, rfl⟩ | ⟨h, rfl⟩ <;> simp [decodeCommand, h]

/-- Every command number is reserved, BEGIN's, WRITE's or a K0 command's (R101). -/
theorem opField_cases (op : BitVec 4) : 8#4 ≤ op ∨ op = 0#4 ∨ op = 7#4 ∨ ∃ i, (op, i) ∈ noOperandCommands := by
  have hop : 8#4 ≤ op ∨ op = 0#4 ∨ op = 7#4 ∨ op ∈ noOperandCommands.map Prod.fst := by
    revert op; decide
  simpa [List.mem_map] using hop

theorem encode_noOperand {op : BitVec 4} {i : Instr} (h : (op, i) ∈ noOperandCommands) :
    encode i = .k (commandWord op 0#32) := by
  simp only [noOperandCommands, List.mem_cons, Prod.mk.injEq, List.not_mem_nil, or_false] at h
  rcases h with ⟨rfl, rfl⟩ | ⟨rfl, rfl⟩ | ⟨rfl, rfl⟩ | ⟨rfl, rfl⟩ | ⟨rfl, rfl⟩ | ⟨rfl, rfl⟩ <;> rfl

theorem decodeCommand_commandWord_noOperand {op : BitVec 4} {i : Instr} (h : (op, i) ∈ noOperandCommands)
    (arg : BitVec 32) : decodeCommand (commandWord op arg) = decodeNoOperand arg i := by
  rw [decodeCommand_noOperand (i := i) (by rwa [opField_commandWord]), argField_commandWord]

theorem decodeCommand_commandWord_write (arg : BitVec 32) : decodeCommand (commandWord 7#4 arg) =
    if arg.extractLsb' 8 24 = 0#24 then .instr (.write (arg.extractLsb' 0 8)) else .rejected .nonzeroArg := by
  rw [decodeCommand_write (opField_commandWord ..), argField_commandWord]

/-! ### Decoding what was encoded -/

theorem decode_encode_noOperand {op : BitVec 4} {i : Instr} (h : (op, i) ∈ noOperandCommands) :
    decode (encode i) = .instr i := by
  rw [encode_noOperand h, decode, decodeCommand_commandWord_noOperand h, decodeNoOperand, if_pos rfl]

theorem decode_encode_write (b : Byte) : decode (encode (.write b)) = .instr (.write b) := by
  rw [encode, decode, decodeCommand_commandWord_write, padded_high, padded_low, if_pos rfl]

theorem decode_encode_rxc (b : Byte) : decode (encode (.rxc b)) = .instr (.rxc b) := by
  rw [encode, decode, decodeEvent, append_high_field, append_low_byte, if_pos rfl]

theorem decode_encode_rbPush (b : Byte) : decode (encode (.rbPush b)) = .instr (.rbPush b) := by
  simp only [encode, decode, decodeRing, append_high_field, append_low_byte, if_true]

/-- Settles O1: the decoder reads each field where the encoder put it. -/
theorem decodeInvertsEncode : Obligations.DecodeInvertsEncode := by
  intro i
  cases i with
  | beginCmd baud => rw [encode, decode, decodeCommand_begin (opField_commandWord ..), argField_commandWord]
  | endCmd => exact decode_encode_noOperand (op := 1#4) (by decide)
  | flush => exact decode_encode_noOperand (op := 2#4) (by decide)
  | available => exact decode_encode_noOperand (op := 3#4) (by decide)
  | clear => exact decode_encode_noOperand (op := 4#4) (by decide)
  | peek => exact decode_encode_noOperand (op := 5#4) (by decide)
  | read => exact decode_encode_noOperand (op := 6#4) (by decide)
  | write b => exact decode_encode_write b
  | rxc b => exact decode_encode_rxc b
  | rbPush b => exact decode_encode_rbPush b
  | rbPop => decide
  | rbPeek => decide
  | rbCount => decide
  | rbClear => decide

/-! ### Encoding what was decoded -/

/-- A byte above a zero field is the whole of a WRITE's argument (R92). -/
theorem padded_low_byte {arg : BitVec 32} (h : arg.extractLsb' 8 24 = 0#24) :
    (0#24 ++ arg.extractLsb' 0 8 : BitVec 32) = arg := by
  rw [← h, append_fields (n := 24) rfl arg, BitVec.cast_eq]

theorem encode_of_decodeCommand {k : CommandWord} {i : Instr} (h : decodeCommand k = .instr i) : encode i = .k k := by
  rcases opField_cases (opField k) with hop | hop | hop | ⟨j, hop⟩
  · rw [decodeCommand_reserved hop] at h; cases h
  · rw [decodeCommand_begin hop] at h
    cases h
    rw [encode, ← hop, commandWord_fields]
  · rw [decodeCommand_write hop] at h
    split_ifs at h with hhigh
    cases h
    rw [encode, padded_low_byte hhigh, ← hop, commandWord_fields]
  · rw [decodeCommand_noOperand hop, decodeNoOperand] at h
    split_ifs at h with harg
    cases h
    rw [encode_noOperand hop, ← harg, commandWord_fields]

theorem encode_of_decodeEvent {v : EventWord} {i : Instr} (h : decodeEvent v = .instr i) : encode i = .v v := by
  rw [decodeEvent] at h
  split_ifs at h with hrxc
  cases h
  rw [encode, ← hrxc, append_fields (n := 1) rfl v, BitVec.cast_eq]

/-- A ring word is its two fields (R95). -/
theorem ringWord_fields {u : RingWord} {sel : BitVec 3} {data : Byte} (hsel : u.extractLsb' 8 3 = sel)
    (hdata : u.extractLsb' 0 8 = data) : (sel ++ data : RingWord) = u := by
  rw [← hsel, ← hdata, append_fields (n := 3) rfl u, BitVec.cast_eq]

theorem encode_of_decodeRing {u : RingWord} {i : Instr} (h : decodeRing u = .instr i) : encode i = .u u := by
  simp only [decodeRing, decodeNoData] at h
  split_ifs at h with hsel hsel hdata hsel hdata hsel hdata hsel hdata <;> cases h
  · exact congrArg PortWord.u (ringWord_fields hsel rfl)
  all_goals exact congrArg PortWord.u (ringWord_fields hsel hdata)

theorem encode_of_decode {w : PortWord} {i : Instr} (h : decode w = .instr i) : encode i = w := by
  cases w with
  | k w => exact encode_of_decodeCommand h
  | v w => exact encode_of_decodeEvent h
  | u w => exact encode_of_decodeRing h

/-- Settles O2: in every accepting branch of a port's decoder the fields read are the whole word. -/
theorem encodeInvertsDecode : Obligations.EncodeInvertsDecode := fun _ _ => encode_of_decode

/-! ### The rows of the opcode table -/

theorem row_selects_encode (i : Instr) : i.row.selectedBy (encode i) = true := by
  cases i with
  | beginCmd baud => exact (Laws.RowBits.beginCmd baud).2
  | endCmd => exact Laws.RowBits.endCmd.2
  | flush => exact Laws.RowBits.flush.2
  | available => exact Laws.RowBits.available.2
  | clear => exact Laws.RowBits.clear.2
  | peek => exact Laws.RowBits.peek.2
  | read => exact Laws.RowBits.read.2
  | write b => exact (Laws.RowBits.write b).2
  | rxc b => exact (Laws.RowBits.rxc b).2
  | rbPush b => exact (Laws.RowBits.rbPush b).2
  | rbPop => exact Laws.RowBits.rbPop.2
  | rbPeek => exact Laws.RowBits.rbPeek.2
  | rbCount => exact Laws.RowBits.rbCount.2
  | rbClear => exact Laws.RowBits.rbClear.2

theorem commandRow_selects_iff {mask pattern : Nat} {w : PortWord} :
    (⟨.command, mask, pattern⟩ : Row).selectedBy w = true ↔ ∃ k, w = .k k ∧ k.toNat &&& mask = pattern := by
  rw [Row.selectedBy, Bool.and_eq_true, decide_eq_true_eq, decide_eq_true_eq]
  cases w <;> simp [PortWord.port, PortWord.bits]

theorem eventRow_selects_iff {mask pattern : Nat} {w : PortWord} :
    (⟨.event, mask, pattern⟩ : Row).selectedBy w = true ↔ ∃ v, w = .v v ∧ v.toNat &&& mask = pattern := by
  rw [Row.selectedBy, Bool.and_eq_true, decide_eq_true_eq, decide_eq_true_eq]
  cases w <;> simp [PortWord.port, PortWord.bits]

theorem ringRow_selects_iff {mask pattern : Nat} {w : PortWord} :
    (⟨.ring, mask, pattern⟩ : Row).selectedBy w = true ↔ ∃ u, w = .u u ∧ u.toNat &&& mask = pattern := by
  rw [Row.selectedBy, Bool.and_eq_true, decide_eq_true_eq, decide_eq_true_eq]
  cases w <;> simp [PortWord.port, PortWord.bits]

/-- A command row that fixes every bit has one word (R92). -/
theorem eq_of_wholeCommandRow {pattern : Nat} {w : PortWord} (hp : pattern < 2 ^ 36)
    (h : (⟨.command, 0xFFFFFFFFF, pattern⟩ : Row).selectedBy w = true) : w = .k (BitVec.ofNat 36 pattern) := by
  obtain ⟨k, rfl, hk⟩ := commandRow_selects_iff.1 h
  rw [(and_exact k pattern hp).1 hk]

/-- A ring row that fixes every bit has one word (R95). -/
theorem eq_of_wholeRingRow {pattern : Nat} {w : PortWord} (hp : pattern < 2 ^ 11)
    (h : (⟨.ring, 0x7FF, pattern⟩ : Row).selectedBy w = true) : w = .u (BitVec.ofNat 11 pattern) := by
  obtain ⟨u, rfl, hu⟩ := ringRow_selects_iff.1 h
  rw [(and_exact u pattern hp).1 hu]

/-- A word that selects the row of `i` decodes to an instruction of the same row. -/
theorem decode_of_row {i : Instr} {w : PortWord} (h : i.row.selectedBy w = true) :
    ∃ j, decode w = .instr j ∧ j.row = i.row := by
  cases i with
  | beginCmd baud =>
    obtain ⟨k, rfl, hk⟩ := commandRow_selects_iff.1 h
    exact ⟨_, decodeCommand_begin ((beginRow_iff k).1 hk), rfl⟩
  | write b =>
    obtain ⟨k, rfl, hk⟩ := commandRow_selects_iff.1 h
    obtain ⟨hop, hhigh⟩ := (writeFields_iff k).1 ((writeRow_iff k).1 hk)
    exact ⟨_, (decodeCommand_write hop).trans (if_pos hhigh), rfl⟩
  | rxc b =>
    obtain ⟨v, rfl, hv⟩ := eventRow_selects_iff.1 h
    exact ⟨_, if_pos ((rxcRow_iff v).1 hv), rfl⟩
  | rbPush b =>
    obtain ⟨u, rfl, hu⟩ := ringRow_selects_iff.1 h
    exact ⟨_, if_pos ((pushRow_iff u).1 hu), rfl⟩
  | endCmd => rw [eq_of_wholeCommandRow (by decide) h]; exact ⟨.endCmd, by decide, rfl⟩
  | flush => rw [eq_of_wholeCommandRow (by decide) h]; exact ⟨.flush, by decide, rfl⟩
  | available => rw [eq_of_wholeCommandRow (by decide) h]; exact ⟨.available, by decide, rfl⟩
  | clear => rw [eq_of_wholeCommandRow (by decide) h]; exact ⟨.clear, by decide, rfl⟩
  | peek => rw [eq_of_wholeCommandRow (by decide) h]; exact ⟨.peek, by decide, rfl⟩
  | read => rw [eq_of_wholeCommandRow (by decide) h]; exact ⟨.read, by decide, rfl⟩
  | rbPop => rw [eq_of_wholeRingRow (by decide) h]; exact ⟨.rbPop, by decide, rfl⟩
  | rbPeek => rw [eq_of_wholeRingRow (by decide) h]; exact ⟨.rbPeek, by decide, rfl⟩
  | rbCount => rw [eq_of_wholeRingRow (by decide) h]; exact ⟨.rbCount, by decide, rfl⟩
  | rbClear => rw [eq_of_wholeRingRow (by decide) h]; exact ⟨.rbClear, by decide, rfl⟩

/-- Settles O4: a legal word is its instruction's own word, and that selects the instruction's own row. -/
theorem rowSelectionIsDecoding : Obligations.RowSelectionIsDecoding := by
  intro w i
  constructor
  · exact decode_of_row
  · rintro ⟨j, hw, hrow⟩
    rw [← hrow, ← encode_of_decode hw]
    exact row_selects_encode j

/-- Settles O5, by evaluation. -/
theorem specWordsDecode : Obligations.SpecWordsDecode := by
  unfold Obligations.SpecWordsDecode
  decide

end Sys2Proof
end

section
/-! PROOFS. What `step` adds around `exec` (spec rules R91, R98, R99, R183, R230), and the statements about words that need it:
illegal command words (rules R101, R202, R204). -/

namespace Sys2Proof
namespace Machine

/-! ### Serving the next stimulus -/

theorem step_serve {s : State} {x : Stimulus} {rest : List Stimulus} (hp : parametersInRange s = true)
    (hin : s.inbox = x :: rest) : step s = serve x { s with inbox := rest } := by
  rw [step, if_pos hp, takeTurn, hin]

theorem serveCommand_instr {c : Chan} {k : CommandWord} {i : Instr} {s : State} (hfg : (s.chan c).fg = .idle)
    (hk : decode (.k k) = .instr i) : serveCommand c k s = exec i (s.select c) := by
  simp only [serveCommand, commandPortOpen, select_cur, hfg, decide_true, if_true, hk]

theorem serveEvent_instr {c : Chan} {v : EventWord} {i : Instr} {s : State} (hv : decode (.v v) = .instr i) :
    serveEvent c v s = exec i (s.select c) := by
  simp only [serveEvent, hv]

theorem serveEvent_rejected {c : Chan} {v : EventWord} {why : Rejection} {s : State}
    (hv : decode (.v v) = .rejected why) : serveEvent c v s = .next (s.select c) := by
  simp only [serveEvent, hv, noStep]

theorem serveRingPort_instr {c : Chan} {u : RingWord} {i : Instr} {s : State} (hu : decode (.u u) = .instr i) :
    serveRingPort c u s = exec i (s.select c) := by
  simp only [serveRingPort, hu]

theorem serveRingPort_rejected {c : Chan} {u : RingWord} {why : Rejection} {s : State}
    (hu : decode (.u u) = .rejected why) : serveRingPort c u s = .refused (.reservedMicroOp u) := by
  simp only [serveRingPort, hu]

/-- Settles O7: each port's server runs what its decoder names. -/
theorem stepRunsTheDecodedInstruction : Obligations.StepRunsTheDecodedInstruction := by
  intro s c rest i hp
  refine ⟨fun k hin hfg hk => ?_, fun v hin hv => ?_, fun u hin hu => ?_, fun v why hin hv => ?_, fun u why hin hu => ?_⟩ <;>
    rw [step_serve hp hin]
  · exact serveCommand_instr (s := { s with inbox := rest }) (by rwa [withInbox_chan]) hk
  · exact serveEvent_instr hv
  · exact serveRingPort_instr hu
  · exact serveEvent_rejected hv
  · exact serveRingPort_rejected hu

/-! ### The sequencer -/

theorem serveAdvance_sampled {c : Chan} {op : ConsumerOp} {hs : Nat} {s : State} (h : (s.chan c).fg = .sampled op hs) :
    serveAdvance c s = exec op.instr (s.select c) := by
  simp only [serveAdvance, select_cur, h]

theorem serveAdvance_poll {c : Chan} {b : Byte} {s : State} (h : (s.chan c).fg = .poll b) :
    serveAdvance c s = exec (.write b) (s.select c) := by
  simp only [serveAdvance, select_cur, h]

theorem step_advance_sampled {s : State} {c : Chan} {rest : List Stimulus} {op : ConsumerOp} {hs : Nat}
    (hp : parametersInRange s = true) (hin : s.inbox = .advance c :: rest) (h : (s.chan c).fg = .sampled op hs) :
    step s = exec op.instr { s with sel := c, inbox := rest } := by
  rw [step_serve hp hin]
  exact serveAdvance_sampled (hs := hs) (s := { s with inbox := rest }) (by rwa [withInbox_chan])

/-- A step that leaves channel `c` as it was only uses up its stimulus. -/
theorem stateAfter_chan (s : State) (c : Chan) (rest : List Stimulus) :
    stateAfter s c (s.chan c) rest = { s with sel := c, inbox := rest } := by
  cases c <;> rfl

theorem advanceMove_none {ch : Channel} (h : ch.fg = .idle ∨ ch.fg = .halted) : advanceMove ch = ch := by
  rcases h with h | h <;> simp only [advanceMove, h]

/-- Settles O8: the sequencer's step is chosen by FG. -/
theorem sequencerContinuesItsCommand : Obligations.SequencerContinuesItsCommand := by
  intro s c rest hp hin
  refine ⟨fun hs h => step_advance_sampled hp hin h, fun hs h => step_advance_sampled hp hin h,
    fun hs h => step_advance_sampled hp hin h, fun hs h => step_advance_sampled hp hin h, fun b h => ?_, fun h => ?_⟩
  · rw [step_serve hp hin]
    exact serveAdvance_poll (s := { s with inbox := rest }) (by rwa [withInbox_chan])
  · rw [step_advance hp hin, advanceMove_none h, stateAfter_chan]

/-! ### The command port -/

theorem commandMove_busy {c : Chan} {k : CommandWord} {ch : Channel} (h : ch.fg ≠ .idle) : commandMove c k ch = ch :=
  if_neg h

/-- Settles O9: on a busy channel a command word is no move. -/
theorem commandPortClosedWhileBusy : Obligations.CommandPortClosedWhileBusy := by
  intro s c k rest hp hin hfg
  rw [step_command hp hin, commandMove_busy hfg, stateAfter_chan]

theorem commandMove_rejected {c : Chan} {k : CommandWord} {why : Rejection} {ch : Channel} (hfg : ch.fg = .idle)
    (hk : decode (.k k) = .rejected why) : commandMove c k ch =
      { ch with fault := 2#2, fcmd := k, rsp := .faulted 2#2, fg := .halted } := by
  rw [decode] at hk
  simp only [commandMove, hfg, if_true, hk]
  rfl

theorem stateAfter_chan_other (s : State) {c c' : Chan} (ch : Channel) (rest : List Stimulus) (h : c' ≠ c) :
    (stateAfter s c ch rest).chan c' = s.chan c' := by
  rw [stateAfter, setChan_chan_other _ _ h, select_chan, withInbox_chan]

/-- Settles O10: the move of an illegal word is fault entry and nothing else. -/
theorem illegalWordRaisesIllegalCommand : Obligations.IllegalWordRaisesIllegalCommand := by
  intro s c k rest why hp hin hfg hk
  refine ⟨_, step_command hp hin, ?_, fun c' hc => stateAfter_chan_other s _ rest hc⟩
  rw [after_chan, commandMove_rejected hfg hk]

theorem raisesIllegalCommand_of_rejected {k : CommandWord} {why : Rejection} (hk : decode (.k k) = .rejected why) :
    RaisesIllegalCommand k := by
  intro s c rest hp hin hfg
  obtain ⟨t, ht, hchan, -⟩ := illegalWordRaisesIllegalCommand s c k rest why hp hin hfg hk
  exact ⟨t, ht, hchan⟩

/-- The encoding of every K0 command (R92, R93), shared by the statements about single commands. -/
theorem encodesNoOperand {op : BitVec 4} {i : Instr} (h : (op, i) ∈ noOperandCommands) : EncodesNoOperand op i := by
  intro arg
  have hdec : decode (.k (op ++ arg)) = decodeNoOperand arg i := decodeCommand_commandWord_noOperand h arg
  refine ⟨hdec, fun harg => raisesIllegalCommand_of_rejected (why := .nonzeroArg) ?_⟩
  rw [hdec, decodeNoOperand, if_neg harg]

/-! ### Decoding by numbers (R101) -/

theorem opField_toNat (k : CommandWord) : (opField k).toNat = k.toNat / 2 ^ 32 := by
  have hk := k.isLt
  rw [opField, BitVec.extractLsb'_toNat, Nat.shiftRight_eq_div_pow, Nat.mod_eq_of_lt (by omega)]

theorem argField_toNat (k : CommandWord) : (argField k).toNat = k.toNat % 2 ^ 32 := by
  rw [argField, BitVec.extractLsb'_toNat, Nat.shiftRight_zero]

theorem opField_eq {k : CommandWord} {n : Nat} (h : k.toNat / 2 ^ 32 = n) : opField k = BitVec.ofNat 4 n := by
  rw [← h, ← opField_toNat, BitVec.ofNat_toNat, BitVec.setWidth_eq]

theorem argField_eq (k : CommandWord) : argField k = BitVec.ofNat 32 (k.toNat % 2 ^ 32) := by
  rw [← argField_toNat, BitVec.ofNat_toNat, BitVec.setWidth_eq]

/-- WRITE's argument is a byte (R92) exactly when its upper 24 bits are 0. -/
theorem high_eq_zero_iff (arg : BitVec 32) : arg.extractLsb' 8 24 = 0#24 ↔ arg.toNat < 256 := by
  have harg := arg.isLt
  rw [← BitVec.toNat_inj, BitVec.extractLsb'_toNat, Nat.shiftRight_eq_div_pow, BitVec.toNat_ofNat]
  omega

theorem low_eq_setWidth (arg : BitVec 32) : arg.extractLsb' 0 8 = arg.setWidth 8 := by
  rw [← BitVec.toNat_inj, BitVec.extractLsb'_toNat, BitVec.toNat_setWidth, Nat.shiftRight_zero]

/-- WRITE's decoding by its number (R92, R101). -/
theorem decode_write (arg : BitVec 32) : decode (.k (7#4 ++ arg)) =
    if arg.toNat < 256 then .instr (.write (arg.setWidth 8)) else .rejected .nonzeroArg := by
  refine (decodeCommand_commandWord_write arg).trans ?_
  simp only [high_eq_zero_iff, low_eq_setWidth]

theorem mem_noOperandCommands_of_getElem? {n : Nat} {i : Instr} (hn : 1 ≤ n)
    (h : [Instr.endCmd, .flush, .available, .clear, .peek, .read][n - 1]? = some i) :
    (BitVec.ofNat 4 n, i) ∈ noOperandCommands := by
  have hlt : n - 1 < 6 := (List.getElem?_eq_some_iff.1 h).1
  obtain ⟨m, rfl⟩ := Nat.exists_eq_add_of_le' hn
  rw [Nat.add_sub_cancel] at h hlt
  interval_cases m <;> cases h <;> decide

theorem decodeNoOperand_eq (arg : BitVec 32) (i : Instr) :
    decodeNoOperand arg i = if arg.toNat = 0 then .instr i else .rejected .nonzeroArg := by
  simp only [decodeNoOperand, ← BitVec.toNat_inj, BitVec.toNat_ofNat, Nat.zero_mod]

/-- Settles O3: the fields the decoder tests are the quotient and the remainder of the word by `2 ^ 32`. -/
theorem commandDecodingFollowsR101 : Obligations.CommandDecodingFollowsR101 := by
  intro k op arg
  refine ⟨fun hop => ?_, fun hop => ?_, fun hop => ?_, fun i hi hop => ?_, fun s c rest why hp hin hfg hk => ?_⟩
  · refine decodeCommand_reserved (BitVec.le_def.2 ?_)
    rw [opField_toNat]
    exact hop
  · rw [← argField_eq]
    exact decodeCommand_begin (opField_eq hop)
  · have hk : k = 7#4 ++ argField k := by
      conv_lhs => rw [← commandWord_fields k, opField_eq hop]
      rfl
    rw [hk, decode_write, argField_toNat]
    simp only [argField_eq, BitVec.setWidth_ofNat_of_le (by decide : 8 ≤ 32)]
    rfl
  · have hmem := mem_noOperandCommands_of_getElem? hop hi
    rw [← opField_eq rfl] at hmem
    refine (decodeCommand_noOperand hmem).trans ?_
    rw [decodeNoOperand_eq, argField_toNat]
  · obtain ⟨t, ht, hchan, -⟩ := illegalWordRaisesIllegalCommand s c k rest why hp hin hfg hk
    exact ⟨t, ht, by rw [hchan]⟩

/-! ### The environment's steps -/

theorem step_txrdy {s : State} {c : Chan} {rest : List Stimulus} (hp : parametersInRange s = true)
    (hin : s.inbox = .txrdy c :: rest) : step s = .next (stateAfter s c (txReady (s.chan c)) rest) := by
  rw [step_serve hp hin]
  cases c <;> rfl

/-- Settles O11: the move of TXRDY sets one bit of STATUS. -/
theorem txrdySetsOnlyUdre : Obligations.TxrdySetsOnlyUdre := by
  intro s c rest hp hin
  refine ⟨_, step_txrdy hp hin, fun c' hc => stateAfter_chan_other s _ rest hc, ?_, fun i => ?_⟩ <;> rw [after_chan]
  · rfl
  · rw [txReady_status, testBit_withBitSet]

theorem step_reset {s : State} {rest : List Stimulus} (hp : parametersInRange s = true) (hin : s.inbox = .reset :: rest) :
    ∃ t, step s = .next t ∧ t.inbox = rest ∧ ∀ c, t.chan c = resetOne c (s.chan c) :=
  step_of_moves hp hin (fun c => resetOne c (s.chan c)) fun _ => rfl

/-- Equal indices are an empty buffer, which is not full (R24). -/
theorem count_of_head_eq_tail {ch : Channel} (h : ch.RingOk) (heq : ch.head = ch.tail) :
    ch.count = 0 ∧ ch.empty = true ∧ ch.full = false := by
  have hcount : ch.count = 0 := (countOf_eq_zero_iff h.head h.tail).2 heq
  refine ⟨hcount, empty_iff.2 heq, (Channel.full_eq_false_iff h).2 ?_⟩
  have := h.two_le
  omega

theorem chan_wellFormed {s : State} (hp : parametersInRange s = true) (c : Chan) : (s.chan c).params.wellFormed = true := by
  rw [params_chan, Bool.and_eq_true] at hp
  cases c
  exacts [hp.1, hp.2]

/-- Settles O12: RESET leaves each channel in its reset state, whatever it was doing. -/
theorem resetStepLeavesTheResetState : Obligations.ResetStepLeavesTheResetState := by
  intro s rest hp hin
  obtain ⟨t, ht, hinbox, hchan⟩ := step_reset hp hin
  refine ⟨t, ht, hinbox, fun c => ?_⟩
  have hring : (resetOne c (s.chan c)).RingOk := countDraw_ringOk (resetChannel_ringOk (chan_wellFormed hp c))
  obtain ⟨hcount, hempty, hfull⟩ := count_of_head_eq_tail hring rfl
  rw [hchan]
  refine ⟨rfl, rfl, rfl, hempty, hfull, hcount, ?_, ?_, ?_, ?_, ?_, rfl, rfl, rfl, rfl⟩ <;>
    simp [resetOne, resetChannel, Channel.active, Channel.rxEnabled]

end Machine
end Sys2Proof
end

section
/-! PROOFS. The response word (spec rule R96). -/

namespace Sys2Proof
namespace Machine

/-- Settles O6: each field is read back from the place the word was put together at. -/
theorem responseWordLayout : Obligations.ResponseWordLayout := by
  intro r
  refine ⟨?fault, ?hasValue, ?value⟩
  case fault => exact BitVec.extractLsb'_append_eq_left (w := 2) (w' := 17)
  case hasValue =>
    simp only [Response.word, BitVec.getLsbD_append]
    simp
  case value =>
    apply BitVec.eq_of_getLsbD_eq
    intro i hi
    have hlow : i < 1 + 16 := by omega
    simp only [Response.word, BitVec.getLsbD_extractLsb', BitVec.getLsbD_append, Nat.zero_add, hi, hlow, if_true,
      decide_true, Bool.true_and]

end Machine
end Sys2Proof
end

section
/-! PROOFS. Which step writes which field (spec rules R21 to R23, R29, R30, R36, R70, R150, R205): for each field the moves that
write it, read off the list of all moves `channelMove_cases`. -/

namespace Sys2Proof
namespace Machine

variable {c : Chan} {x : Stimulus} {ch ch' : Channel}

/-! ### HEAD and TAIL -/

theorem pollStep_frame (b : Byte) (ch : Channel) :
    ∃ d s l f r, pollStep b ch = { ch with txdata := d, status := s, txlog := l, fg := f, rsp := r } := by
  rcases pollStep_cases b ch with ⟨-, h⟩ | ⟨-, h⟩ <;> rw [h] <;> exact ⟨_, _, _, _, _, rfl⟩

/-- HEAD moves on in a received byte's step and nowhere else in the wired hardware (R22). -/
theorem channelMove_head (hm : channelMove c x ch = some ch') (hwired : x.wired = true) :
    ch'.head = ch.head ∨ x = .reset ∨
      ∃ v b, x = .event c v ∧ decode (.v v) = .instr (.rxc b) ∧ ch.rxEnabled = true ∧
        ch'.head = indexNext ch.params.cap ch.head := by
  rcases channelMove_cases hm with h | ⟨k, -, -, ⟨i, -, h⟩ | ⟨w, -, h⟩⟩ | ⟨op, hs, -, -, h⟩ | ⟨b, -, -, h⟩ |
    ⟨v, b, hx, hv, hrx, h⟩ | ⟨-, h⟩ | ⟨hx, -⟩ | ⟨u, hx, -⟩
  · left; rw [h]
  · left; rw [h, acceptOf_head]
  · left; rw [h]; rfl
  · obtain ⟨r, n, hc, -⟩ := commitOf_cases op hs ch
    left; rw [h, hc]; rfl
  · obtain ⟨d, s, l, f, r, hp⟩ := pollStep_frame b ch
    left; rw [h, hp]
  · rw [h, receiveByte_eq]
    cases hfull : ch.full with
    | true => left; rw [ringPush_full hfull]
    | false => exact .inr (.inr ⟨v, b, hx, hv, hrx, by rw [ringPush_stored hfull]⟩)
  · left; rw [h]; rfl
  · exact .inr (.inl hx)
  · rw [hx] at hwired; cases hwired

/-- Settles O19: of the wired moves only a stored byte's writes HEAD. -/
theorem onlyTheHandlerWritesHead : Obligations.OnlyTheHandlerWritesHead := by
  intro s t x rest c hin hwired h hne
  exact (channelMove_head (step_chan h hin c) hwired).resolve_left hne

/-- TAIL moves in the COMMIT of READ and CLEAR and in END and nowhere else in the wired hardware (R23). -/
theorem channelMove_tail (hm : channelMove c x ch = some ch') (hwired : x.wired = true) :
    ch'.tail = ch.tail ∨ x = .reset ∨
      (x = .advance c ∧ ∃ hs, ch.fg = .sampled .read hs ∧ ch'.tail = indexNext ch.params.cap ch.tail) ∨
      (x = .advance c ∧ ∃ hs, ch.fg = .sampled .clear hs ∧ ch'.tail = hs) ∨
      ∃ k, x = .command c k ∧ decode (.k k) = .instr .endCmd ∧ ch'.tail = ch.head := by
  rcases channelMove_cases hm with h | ⟨k, hx, -, ⟨i, hk, h⟩ | ⟨w, -, h⟩⟩ | ⟨op, hs, hx, hfg, h⟩ | ⟨b, -, -, h⟩ |
    ⟨v, b, -, -, -, h⟩ | ⟨-, h⟩ | ⟨hx, -⟩ | ⟨u, hx, -⟩
  · left; rw [h]
  · by_cases hi : i = .endCmd
    · subst hi
      exact .inr (.inr (.inr (.inr ⟨k, hx, hk, by rw [h]; rfl⟩)))
    · left; rw [h, acceptOf_tail c i ch hi]
  · left; rw [h]; rfl
  · obtain ⟨r, n, hc, -, hn | ⟨rfl, hn⟩ | ⟨rfl, hn⟩⟩ := commitOf_cases op hs ch <;> rw [h, hc]
    · exact .inl hn
    · exact .inr (.inr (.inl ⟨hx, hs, hfg, hn⟩))
    · exact .inr (.inr (.inr (.inl ⟨hx, hs, hfg, hn⟩)))
  · obtain ⟨d, s, l, f, r, hp⟩ := pollStep_frame b ch
    left; rw [h, hp]
  · left; rw [h, receiveByte_eq, ringPush_eq]
  · left; rw [h]; rfl
  · exact .inr (.inl hx)
  · rw [hx] at hwired; cases hwired

/-- Settles O20: of the wired moves only the foreground's write TAIL. -/
theorem onlyTheForegroundWritesTail : Obligations.OnlyTheForegroundWritesTail := by
  intro s t x rest c hin hwired h hne
  exact (channelMove_tail (step_chan h hin c) hwired).resolve_left hne

/-! ### The storage -/

/-- The storage changes in a push and nowhere else (R21). -/
theorem channelMove_st (hm : channelMove c x ch = some ch') (hx : x ≠ .reset) :
    ch'.st = ch.st ∨ ∃ b, ch'.st = (ringPush b ch).st ∧
      (x.wired = true → ∃ v, x = .event c v ∧ decode (.v v) = .instr (.rxc b)) := by
  rcases channelMove_cases hm with h | ⟨k, -, -, ⟨i, -, h⟩ | ⟨w, -, h⟩⟩ | ⟨op, hs, -, -, h⟩ | ⟨b, -, -, h⟩ |
    ⟨v, b, hx', hv, -, h⟩ | ⟨-, h⟩ | ⟨hreset, -⟩ | ⟨u, hu, ⟨b, -, h⟩ | ⟨-, h⟩ | ⟨-, h⟩⟩
  · left; rw [h]
  · left; rw [h, acceptOf_st]
  · left; rw [h]; rfl
  · obtain ⟨r, n, hc, -⟩ := commitOf_cases op hs ch
    left; rw [h, hc]; rfl
  · obtain ⟨d, s, l, f, r, hp⟩ := pollStep_frame b ch
    left; rw [h, hp]
  · exact .inr ⟨b, by rw [h, receiveByte_eq], fun _ => ⟨v, hx', hv⟩⟩
  · left; rw [h]; rfl
  · exact absurd hreset hx
  · exact .inr ⟨b, by rw [h], fun hwired => by rw [hu] at hwired; cases hwired⟩
  · left; rw [h]
  · left; rw [h]; rfl

/-- Settles O21: a changed slot is one a push wrote, which is the free one. -/
theorem onlyAPushWritesTheStorage : Obligations.OnlyAPushWritesTheStorage := by
  intro s t x rest c a hin hx h hchanged
  have hm := step_chan h hin c
  have hread : Memory.read (t.chan c).st a ≠ Memory.read (s.chan c).st a := by
    rcases hchanged with hslot | hread
    · exact fun heq => hslot (Channel.slot_congr heq (channelMove_stDraw hx hm))
    · exact hread
  rcases channelMove_st hm hx with hst | ⟨b, hst, hevent⟩
  · rw [hst] at hread; exact absurd rfl hread
  · rw [hst] at hread
    obtain ⟨ha, hfull, hb⟩ := ringPush_changes hread
    rw [← hst] at hb
    refine ⟨ha, hfull, fun hwired => ?_⟩
    obtain ⟨v, hv, hdec⟩ := hevent hwired
    exact ⟨v, b, hv, hdec, hb, Channel.slot_written hb⟩

/-! ### CONTROL, and with it ACTIVE -/

/-- CONTROL changes in BEGIN, END and RESET and nowhere else (R30). -/
theorem channelMove_control (hm : channelMove c x ch = some ch') :
    ch'.control = ch.control ∨ x = .reset ∨ ∃ k, x = .command c k ∧ ch.fg = .idle ∧
      ((∃ baud, decode (.k k) = .instr (.beginCmd baud) ∧ ch' = acceptBegin c baud ch) ∨
        (decode (.k k) = .instr .endCmd ∧ ch' = acceptEnd ch)) := by
  rcases channelMove_cases hm with h | ⟨k, hx, hfg, ⟨i, hk, h⟩ | ⟨w, -, h⟩⟩ | ⟨op, hs, -, -, h⟩ | ⟨b, -, -, h⟩ |
    ⟨v, b, -, -, -, h⟩ | ⟨-, h⟩ | ⟨hx, -⟩ | ⟨u, -, ⟨b, -, h⟩ | ⟨-, h⟩ | ⟨-, h⟩⟩
  · left; rw [h]
  · rcases acceptOf_cases c i ch with ⟨baud, rfl, ha⟩ | ⟨rfl, ha⟩ | ⟨f, r, u, k', ha⟩
    · exact .inr (.inr ⟨k, hx, hfg, .inl ⟨baud, hk, h.trans ha⟩⟩)
    · exact .inr (.inr ⟨k, hx, hfg, .inr ⟨hk, h.trans ha⟩⟩)
    · left; rw [h, ha]
  · left; rw [h]; rfl
  · obtain ⟨r, n, hc, -⟩ := commitOf_cases op hs ch
    left; rw [h, hc]; rfl
  · obtain ⟨d, s, l, f, r, hp⟩ := pollStep_frame b ch
    left; rw [h, hp]
  · left; rw [h, receiveByte_control]
  · left; rw [h]; rfl
  · exact .inr (.inl hx)
  · left; rw [h, ringPush_eq]
  · left; rw [h]
  · left; rw [h]; rfl

theorem resetOne_active (c : Chan) (ch : Channel) : (resetOne c ch).active = false :=
  resetChannel_active (Config.resetDraws c ch.draws) { chan := c, number := ch.draws + 1 } ch

theorem commandMove_instr {k : CommandWord} {i : Instr} (hfg : ch.fg = .idle) (hk : decode (.k k) = .instr i) :
    commandMove c k ch = acceptOf c i ch := by
  rw [decode] at hk
  simp only [commandMove, hfg, if_true, hk]

/-- Settles O27: ACTIVE is read from CONTROL, which only BEGIN, END and RESET write. -/
theorem channelStateMachine : Obligations.ChannelStateMachine := by
  intro s t x rest c hin h
  have hm := step_chan h hin c
  refine ⟨?reset, ?begin, ?endCmd, ?others⟩
  case reset =>
    rintro rfl
    rw [← Option.some.inj hm]
    exact resetOne_active c (s.chan c)
  case begin =>
    rintro k baud rfl hfg hk
    rw [channelMove_command, commandMove_instr hfg hk, Option.some.injEq] at hm
    rw [← hm]
    exact acceptBegin_active ..
  case endCmd =>
    rintro k rfl hfg hk
    rw [channelMove_command, commandMove_instr hfg hk, Option.some.injEq] at hm
    rw [← hm]
    exact ⟨acceptEnd_active _, empty_iff.2 rfl⟩
  case others =>
    intro hne
    rcases channelMove_control hm with hc | hx | ⟨k, hx, hfg, ⟨baud, hk, -⟩ | ⟨hk, -⟩⟩
    · exact absurd (active_congr (channelMove_params hm) hc) hne
    · exact .inl hx
    · exact .inr ⟨k, hx, hfg, .inr ⟨baud, hk⟩⟩
    · exact .inr ⟨k, hx, hfg, .inl hk⟩

theorem channelMove_control_opaque (hm : channelMove c x ch = some ch') (hx : x ≠ .reset) {i : Fin 8}
    (hrxen : i ≠ ch.params.bRxen) (htxen : i ≠ ch.params.bTxen) (hrxcie : i ≠ ch.params.bRxcie) :
    testBit ch'.control i = testBit ch.control i := by
  rcases channelMove_control hm with hc | hreset | ⟨k, -, -, ⟨baud, -, h⟩ | ⟨-, h⟩⟩
  · rw [hc]
  · exact absurd hreset hx
  · simp [h, hrxen, htxen, hrxcie]
  · simp [h, hrxen, htxen, hrxcie]

/-! ### STATUS -/

theorem acceptBegin_status_opaque (c : Chan) (baud : Baud) (ch : Channel) {i : Fin 8} (hu2x : i ≠ ch.params.bU2x) :
    testBit (acceptBegin c baud ch).status i = testBit ch.status i := by
  rw [acceptBegin_status]
  split_ifs <;> simp [hu2x]

/-- Only BEGIN, a completing POLL step and TXRDY write STATUS, each one bit of the block's own (R29). -/
theorem channelMove_status_opaque (hm : channelMove c x ch = some ch') (hx : x ≠ .reset) {i : Fin 8}
    (hu2x : i ≠ ch.params.bU2x) (hudre : i ≠ ch.params.bUdre) : testBit ch'.status i = testBit ch.status i := by
  rcases channelMove_cases hm with h | ⟨k, -, -, ⟨j, -, h⟩ | ⟨w, -, h⟩⟩ | ⟨op, hs, -, -, h⟩ | ⟨b, -, -, h⟩ |
    ⟨v, b, -, -, -, h⟩ | ⟨-, h⟩ | ⟨hreset, -⟩ | ⟨u, -, ⟨b, -, h⟩ | ⟨-, h⟩ | ⟨-, h⟩⟩
  · rw [h]
  · rcases acceptOf_cases c j ch with ⟨baud, -, ha⟩ | ⟨-, ha⟩ | ⟨f, r, u, k', ha⟩ <;> rw [h, ha]
    · exact acceptBegin_status_opaque c baud ch hu2x
    · rfl
  · rw [h]; rfl
  · obtain ⟨r, n, hc, -⟩ := commitOf_cases op hs ch
    rw [h, hc]; rfl
  · rcases pollStep_cases b ch with ⟨-, hp⟩ | ⟨-, hp⟩ <;> rw [h, hp]
    simp [hudre]
  · rw [h, receiveByte_eq, ringPush_eq]
  · simp [h, hudre]
  · exact absurd hreset hx
  · rw [h, ringPush_eq]
  · rw [h]
  · rw [h]; rfl

/-- Settles O23: every write of CONTROL and STATUS is of single bits the block knows. -/
theorem opaqueBitsArePreserved : Obligations.OpaqueBitsArePreserved := by
  intro s t x rest c i hin hx h
  have hm := step_chan h hin c
  exact ⟨channelMove_control_opaque hm hx, channelMove_status_opaque hm hx⟩

/-! ### The fault record -/

/-- A HALTED channel takes no step that writes the fault record, RESET apart (R205). -/
theorem channelMove_of_halted (hm : channelMove c x ch = some ch') (hx : x ≠ .reset) (hfg : ch.fg = .halted) :
    ch'.fg = .halted ∧ ch'.fault = ch.fault ∧ ch'.fcmd = ch.fcmd ∧ ch'.rsp = ch.rsp := by
  refine ⟨halted_move hm hx hfg, ?_⟩
  rcases channelMove_cases hm with h | ⟨k, -, hidle, -⟩ | ⟨op, hs, -, hs', -⟩ | ⟨b, -, hb, -⟩ | ⟨v, b, -, -, -, h⟩ |
    ⟨-, h⟩ | ⟨hreset, -⟩ | ⟨u, -, ⟨b, -, h⟩ | ⟨-, h⟩ | ⟨-, h⟩⟩
  · rw [h]; exact ⟨rfl, rfl, rfl⟩
  · rw [hfg] at hidle; cases hidle
  · rw [hfg] at hs'; cases hs'
  · rw [hfg] at hb; cases hb
  · rw [h, receiveByte_eq, ringPush_eq]; exact ⟨rfl, rfl, rfl⟩
  · rw [h]; exact ⟨rfl, rfl, rfl⟩
  · exact absurd hreset hx
  · rw [h, ringPush_eq]; exact ⟨rfl, rfl, rfl⟩
  · rw [h]; exact ⟨rfl, rfl, rfl⟩
  · rw [h]; exact ⟨rfl, rfl, rfl⟩

/-- Settles O24: a HALTED channel's only move that writes the fault record is RESET. -/
theorem onlyResetLeavesAFault : Obligations.OnlyResetLeavesAFault := by
  intro s t x rest c hin h hfg
  have hm := step_chan h hin c
  refine ⟨fun hx => channelMove_of_halted hm hx hfg, ?_⟩
  rintro rfl
  rw [← Option.some.inj hm]
  exact ⟨rfl, rfl⟩

end Machine
end Sys2Proof
end

section
/-! PROOFS. Exchanging adjacent steps of the two channels (spec rules R208, R216). -/

namespace Sys2Proof
namespace Machine

theorem step_parametersInRange {s t : State} (h : step s = .next t) : parametersInRange t = true := by
  have hp := params_step h
  have hsame := fun c => noStepChangesTheParameters s t c h
  rwa [params_chan, hsame, hsame, ← params_chan]

/-- Two steps run when the moves of both channels do, one after the other. -/
theorem run_two_of_moves {s : State} {x y : Stimulus} {rest : List Stimulus} {f g : Chan → Channel}
    (hp : parametersInRange s = true) (hin : s.inbox = x :: y :: rest)
    (hx : ∀ c, channelMove c x (s.chan c) = some (f c)) (hy : ∀ c, channelMove c y (f c) = some (g c)) :
    ∃ u, Sys2Proof.core.run 2 s = .next u ∧ u.inbox = rest ∧ ∀ c, u.chan c = g c := by
  obtain ⟨v, hv, hvin, hvc⟩ := step_of_moves hp hin f hx
  obtain ⟨u, hu, huin, huc⟩ := step_of_moves (step_parametersInRange hv) hvin g fun c => by rw [hvc]; exact hy c
  exact ⟨u, run_succ.2 ⟨v, hv, run_succ.2 ⟨u, hu, run_zero.2 rfl⟩⟩, huin, huc⟩

theorem run_two_moves {s t : State} {x y : Stimulus} {rest : List Stimulus} (hin : s.inbox = x :: y :: rest)
    (h : Sys2Proof.core.run 2 s = .next t) : parametersInRange s = true ∧ t.inbox = rest ∧
    ∃ f : Chan → Channel, ∀ c, channelMove c x (s.chan c) = some (f c) ∧ channelMove c y (f c) = some (t.chan c) := by
  obtain ⟨v, hv, hrun⟩ := run_succ.1 h
  obtain ⟨u, hu, hrun⟩ := run_succ.1 hrun
  obtain rfl := run_zero.1 hrun
  have hvin := step_inbox hv hin
  exact ⟨params_step hv, step_inbox hu hvin, v.chan, fun c => ⟨step_chan hv hin c, step_chan hu hvin c⟩⟩

/-- Settles O26: each channel sees one of the two stimuli only, so the order does not matter. -/
theorem stepsOfTheTwoChannelsCommute : Obligations.StepsOfTheTwoChannelsCommute := by
  intro s t x y rest hx hy h
  obtain ⟨hp, htin, f, hf⟩ := run_two_moves rfl h
  simp only [withInbox_chan] at hf
  obtain ⟨hx0, hy0⟩ := hf .ch0
  obtain ⟨hx1, hy1⟩ := hf .ch1
  rw [channelMove_other hy, Option.some.injEq] at hy0
  rw [channelMove_other hx, Option.some.injEq] at hx1
  rw [hy0] at hx0
  rw [← hx1] at hy1
  have hfirst : ∀ c, channelMove c y (s.chan c) = some ((s.setChan .ch1 t.ch1).chan c) := by
    rintro (_ | _)
    exacts [channelMove_other hy s.ch0, hy1]
  have hsecond : ∀ c, channelMove c x ((s.setChan .ch1 t.ch1).chan c) = some (t.chan c) := by
    rintro (_ | _)
    exacts [hx0, channelMove_other hx t.ch1]
  obtain ⟨u, hu, huin, huc⟩ := run_two_of_moves (s := { s with inbox := y :: x :: rest }) hp rfl
    (fun c => by rw [withInbox_chan]; exact hfirst c) hsecond
  exact ⟨u, hu, huc .ch0, huc .ch1, huin.trans htin.symm⟩

end Machine
end Sys2Proof
end

section
/-! PROOFS. The index arithmetic and the storage laws (spec rules R8, R21, R24, R126), collected. -/

namespace Sys2Proof
namespace Machine

theorem emptyOf_iff {h t : Nat} : emptyOf h t = true ↔ h = t := decide_eq_true_iff

theorem fullOf_iff {cap h t : Nat} : fullOf cap h t = true ↔ indexNext cap h = t := decide_eq_true_iff

/-- Settles O28: every clause is one of the laws of `indexNext` and `countOf`. -/
theorem counterArithmetic : Obligations.CounterArithmetic := by
  intro cap h t hcap hh ht
  have hlt := countOf_lt (t := t) hh
  have hzero := countOf_eq_zero_iff hh ht
  have hfull : fullOf cap h t = true ↔ countOf cap h t = cap - 1 := fullOf_iff.trans (indexNext_eq_tail_iff hh ht)
  refine ⟨?_, countOf_eq hh ht, by omega, by omega, by omega, hzero, emptyOf_iff.trans hzero.symm, hfull, ?_, ?_,
    countOf_indexNext_tail hh ht⟩
  · rw [indexNext_eq hh]
    exact if_congr (by omega) rfl rfl
  · rw [emptyOf_iff, ← hzero, hfull]
    omega
  · intro hroom
    exact countOf_indexNext_head hh ht fun heq => by rw [fullOf_iff.2 heq] at hroom; cases hroom

/-- Settles O29: the laws of `Memory.read` and `Memory.write`, and a slot reads through them. -/
theorem storageReadsWhatWasWritten : Obligations.StorageReadsWhatWasWritten := by
  intro cap st a b v
  refine ⟨Memory.read_write_same st a v, Memory.read_write_other st v, fun ch => ?_, fun hst ha => Memory.write_wf hst ha v⟩
  split_ifs with hb
  · rw [hb]
    exact Channel.slot_written (Memory.read_write_same st a v)
  · exact Channel.slot_congr (Memory.read_write_other st v hb) rfl

end Machine
end Sys2Proof
end

section
/-! PROOFS. The ring-buffer micro-operations (spec rules R121 to R125, R127) and the receive event RXC (rules R190, R191): the
next state of each, and what it is on an ordered ring buffer. -/

namespace Sys2Proof
namespace Machine

/-! ### RB.PUSH and RXC -/

/-- What COUNT, EMPTY and FULL are after a stored push (R121, R126). -/
theorem ringPush_flags {b : Byte} {ch : Channel} (h : ch.RingOk) (hroom : ch.full = false) :
    (ringPush b ch).count = ch.count + 1 ∧ (ringPush b ch).empty = false ∧
      ((ringPush b ch).full = true ↔ (ringPush b ch).count = (ringPush b ch).params.cap - 1) := by
  have hcount := ringPush_count (b := b) h hroom
  have hok := ringPush_ringOk (b := b) h
  refine ⟨hcount, ?_, Channel.full_eq_true_iff hok⟩
  rw [← Bool.not_eq_true, empty_iff]
  intro heq
  obtain ⟨hzero, -, -⟩ := count_of_head_eq_tail hok heq
  omega

theorem ringPush_unread_room {b : Byte} {ch : Channel} (h : ch.RingOk) (hroom : ch.full = false) :
    (ringPush b ch).unread = ch.unread ++ [b] := by
  rw [ringPush_unread h, QueueEffect.apply, Channel.unread_length, if_pos ((Channel.full_eq_false_iff h).1 hroom)]

/-- Settles O30: a push with room writes the free slot and HEAD. -/
theorem pushStoresAtHead : Obligations.PushStoresAtHead := by
  intro b s hroom
  refine ⟨Memory.write s.cur.st s.cur.head b, ?_, Memory.read_write_same .., fun a => Memory.read_write_other _ b, ?_⟩
  · rw [exec_rbPush, ringPush_stored hroom]
    rfl
  · intro hok t ht
    rw [exec_rbPush] at ht
    cases ht
    rw [withRingOut_cur, setCur_cur]
    obtain ⟨hcount, hempty, hfull⟩ := ringPush_flags (b := b) hok hroom
    exact ⟨hcount, hempty, hfull, ringPush_unread_room hok hroom⟩

theorem receiveByte_room {b : Byte} {ch : Channel} (hroom : ch.full = false) : receiveByte b ch =
    { ch with rxdata := b, st := Memory.write ch.st ch.head b, head := indexNext ch.params.cap ch.head } := by
  rw [receiveByte_eq, ringPush_stored hroom]

/-- Settles O52: RXC hands its byte to the push. -/
theorem rxcPushesTheReceivedByte : Obligations.RxcPushesTheReceivedByte := by
  intro b s
  refine ⟨decodeInvertsEncode (.rxc b), fun hrx hfull => exec_rxc_full hfull hrx, fun hrx hroom => ?_⟩
  refine ⟨Memory.write s.cur.st s.cur.head b, ?_, Memory.read_write_same .., fun a => Memory.read_write_other _ b, ?_⟩
  · rw [exec_rxc, if_pos hrx, receiveByte_room hroom]
    rfl
  · intro hok t ht
    rw [exec_rxc, if_pos hrx, receiveByte_eq] at ht
    cases ht
    rw [setCur_cur]
    exact ringPush_flags hok hroom

/-- Settles O53: either gate bit clear disables the event. -/
theorem rxcIsLostWhileDisabled : Obligations.RxcIsLostWhileDisabled := by
  intro b s hgate
  have hrx : s.cur.rxEnabled = false := by
    rcases hgate with h | h <;> simp [Channel.rxEnabled, h]
  rw [exec_rxc, hrx, if_neg Bool.false_ne_true]

/-! ### RB.POP and RB.PEEK -/

theorem exec_rbPop (s : State) : exec .rbPop s =
    .next ((s.setCur (ringPop (latchedHead s.cur) s.cur).2).withRingOut (.byte (ringPop (latchedHead s.cur) s.cur).1)) :=
  rfl

theorem exec_rbPop_empty {s : State} (h : latchedHead s.cur = s.cur.tail) :
    exec .rbPop s = .next (s.withRingOut (.byte { valid := false, byte := 0#8 })) := by
  rw [exec_rbPop, ringPop_empty h, setCur_self]

theorem exec_rbPop_byte {s : State} (h : latchedHead s.cur ≠ s.cur.tail) :
    exec .rbPop s = .next ((s.setCur { s.cur with tail := indexNext s.cur.params.cap s.cur.tail }).withRingOut
      (.byte { valid := true, byte := s.cur.slot s.cur.tail })) := by
  rw [exec_rbPop, ringPop_byte h]

/-- Settles O32: RB.POP takes the byte at TAIL, the head of the queue. -/
theorem popTakesTheOldestByte : Obligations.PopTakesTheOldestByte := by
  rintro s hs rfl
  refine ⟨exec_rbPop_empty, exec_rbPop_byte, fun hok hne => ⟨_, s.cur.slot s.cur.tail, exec_rbPop_byte hne, rfl, ?_⟩⟩
  obtain ⟨hlt, hle, -⟩ := hok.latched
  obtain ⟨hunread, hcount, hfull, -⟩ := pop_effects hok hlt hle hne _ rfl
  rw [withRingOut_cur, setCur_cur]
  exact ⟨hunread, hcount, hfull, empty_iff.trans eq_comm⟩

theorem exec_rbPeek (s : State) :
    exec .rbPeek s = .next (s.withRingOut (.byte (ringPeek (latchedHead s.cur) s.cur))) := rfl

theorem exec_rbPeek_byte {s : State} (h : latchedHead s.cur ≠ s.cur.tail) :
    exec .rbPeek s = .next (s.withRingOut (.byte { valid := true, byte := s.cur.slot s.cur.tail })) := by
  rw [exec_rbPeek, ringPeek_byte h]

/-- Settles O33: RB.PEEK answers with the byte RB.POP answers with. -/
theorem peekWritesNoState : Obligations.PeekWritesNoState := by
  rintro s hs rfl
  refine ⟨fun h => ?_, exec_rbPeek_byte, fun _ => ⟨_, _, exec_rbPeek s, exec_rbPop s, rfl⟩⟩
  rw [exec_rbPeek, ringPeek_empty h]

/-! ### RB.COUNT and RB.CLEAR -/

/-- Settles O34: COUNT is the length of the queue. -/
theorem countIsTheNumberOfUnreadBytes : Obligations.CountIsTheNumberOfUnreadBytes := by
  rintro s hs rfl
  refine ⟨rfl, fun hhead => ?_⟩
  rw [hhead, Channel.unread_length]
  rfl

/-- Settles O35: RB.CLEAR moves TAIL alone, and the queue drops the bytes it passes. -/
theorem clearMovesTailToTheSample : Obligations.ClearMovesTailToTheSample := by
  rintro s hs rfl
  refine ⟨rfl, fun hok t ht => ?_⟩
  obtain ⟨hlt, hle, hfg⟩ := hok.latched
  cases ht
  rw [withRingOut_cur, setCur_cur]
  exact ⟨ringClear_unread hok hlt hle, rfl,
    fun hhead => count_of_head_eq_tail (ringClear_ringOk hok hlt hle hfg) hhead.symm⟩

/-! ### Any sequence of pushes and pops (R127) -/

/-- One operation of the queue of `fifoRun`: its answer and what the queue holds then. -/
def fifoStep (room : Nat) : RingOp → List Byte → RingResult × List Byte
  | .push b, q => (.nothing, if q.length < room then q ++ [b] else q)
  | .pop, [] => (.byte { valid := false, byte := 0#8 }, [])
  | .pop, b :: q => (.byte { valid := true, byte := b }, q)

theorem fifoRun_cons (room : Nat) (op : RingOp) (ops : List RingOp) (q : List Byte) :
    fifoRun room (op :: ops) q =
      ((fifoStep room op q).1 :: (fifoRun room ops (fifoStep room op q).2).1, (fifoRun room ops (fifoStep room op q).2).2) := by
  cases op with
  | push b => rfl
  | pop => cases q <;> rfl

/-- No command of the channel holds a sample. -/
def Channel.Unlatched (ch : Channel) : Prop := ∀ op hs, ch.fg ≠ .sampled op hs

theorem Channel.Unlatched.latchedHead_eq {ch : Channel} (h : ch.Unlatched) : latchedHead ch = ch.head := by
  unfold latchedHead
  split
  · rename_i op hs hfg; exact absurd hfg (h op hs)
  · rfl

/-- One operation on the internal port is one operation of the queue, and the ring buffer stays in order. -/
theorem exec_ringOp (op : RingOp) {s : State} (hok : s.cur.RingOk) (hfg : s.cur.Unlatched) :
    ∃ t, exec op.instr s = .next t ∧ t.cur.RingOk ∧ t.cur.Unlatched ∧ t.cur.params = s.cur.params ∧
      t.ringOut = (fifoStep (s.cur.params.cap - 1) op s.cur.unread).1 ∧
      t.cur.unread = (fifoStep (s.cur.params.cap - 1) op s.cur.unread).2 := by
  cases op with
  | push b =>
    refine ⟨_, exec_rbPush b s, ?_⟩
    rw [withRingOut_cur, setCur_cur, withRingOut_ringOut]
    refine ⟨ringPush_ringOk hok, ?_, ringPush_params b _, rfl, ringPush_unread hok⟩
    rw [Channel.Unlatched, ringPush_fg]
    exact hfg
  | pop =>
    have hlatched := hfg.latchedHead_eq
    by_cases hempty : s.cur.head = s.cur.tail
    · refine ⟨_, exec_rbPop_empty (hlatched.trans hempty), ?_⟩
      rw [withRingOut_cur, withRingOut_ringOut, (unread_nil_iff hok).2 hempty]
      exact ⟨hok, hfg, rfl, rfl, rfl⟩
    · refine ⟨_, exec_rbPop_byte (by rwa [hlatched]), ?_⟩
      obtain ⟨hunread, -⟩ := pop_effects hok hok.head (le_refl _) hempty _ rfl
      have hpop := ringPop_ringOk hok hok.head (le_refl _) fun op hs h => absurd h (hfg op hs)
      rw [ringPop_byte hempty] at hpop
      rw [withRingOut_cur, setCur_cur, withRingOut_ringOut, hunread]
      exact ⟨hpop, hfg, rfl, rfl, rfl⟩

/-- Settles O37: by induction on the operations. -/
theorem popsReturnBytesInPushOrder : Obligations.PopsReturnBytesInPushOrder := by
  intro ops
  induction ops with
  | nil => exact fun s q _ _ hq => ⟨s, rfl, hq⟩
  | cons op ops ih =>
    rintro s q hok hfg rfl
    obtain ⟨t, ht, htok, htfg, htp, hout, hq⟩ := exec_ringOp op hok hfg
    obtain ⟨u, hu, huq⟩ := ih t _ htok htfg hq
    rw [htp] at hu huq
    rw [fifoRun_cons]
    refine ⟨u, ?_, huq⟩
    simp only [ringRun, ht, hu, Option.map_some, hout]

end Machine
end Sys2Proof
end

section
/-! PROOFS. The consumer commands AVAILABLE, CLEAR, PEEK and READ (spec rules R160 to R166): ACCEPT and COMMIT, each once for
all four, then command by command. -/

namespace Sys2Proof
namespace Machine

/-! ### ACCEPT -/

theorem exec_consumer_idle {op : ConsumerOp} {s : State} (h : s.cur.fg = .idle) :
    exec op.instr s = .next (s.setCur (acceptConsumer op s.cur)) := by
  cases op <;> exact exec_command_idle rfl h

theorem samplesWhenActive {op : ConsumerOp} (hneeds : op.needsActive = true) : SamplesWhenActive op op.word op.instr := by
  refine fun s hfg => ⟨fun hact => ?_, fun hin => ?_⟩ <;> rw [exec_consumer_idle hfg]
  · rw [acceptConsumer_active hact]; rfl
  · rw [acceptConsumer_inactive hneeds hin]; rfl

theorem samples_clear : Samples .clear .clear := by
  intro s hfg
  exact exec_consumer_idle (op := .clear) hfg

/-! ### COMMIT -/

/-- The sampled count is at most COUNT, which is below C, so it fits the 16 bits of `value` (R97). -/
theorem sampledCount_value {ch : Channel} (hok : ch.RingOk) {op : ConsumerOp} {hs : Nat} (hfg : ch.fg = .sampled op hs) :
    (BitVec.ofNat 16 (countOf ch.params.cap hs ch.tail)).toNat = countOf ch.params.cap hs ch.tail ∧
      countOf ch.params.cap hs ch.tail ≤ ch.params.cap - 1 ∧ countOf ch.params.cap hs ch.tail ≤ ch.count := by
  obtain ⟨hlt, hle⟩ := hok.sample op hs hfg
  have hbound := countOf_lt (t := ch.tail) hlt
  have hcap := hok.cap_le
  refine ⟨?_, by omega, hle⟩
  rw [BitVec.toNat_ofNat, Nat.mod_eq_of_lt (by omega)]

/-- Settles O44: AVAILABLE answers the count of its sample. -/
theorem availableReturnsTheSampledCount : Obligations.AvailableReturnsTheSampledCount := by
  refine ⟨encodesNoOperand (by decide), samplesWhenActive (op := .available) rfl, fun s hs hfg => ?_⟩
  have hexec := exec_consumer_sampled hfg
  refine ⟨hexec, fun hok t ht => ?_⟩
  cases hexec.symm.trans ht
  rw [setCur_cur]
  obtain ⟨hvalue, hmax, hle⟩ := sampledCount_value hok hfg
  exact ⟨hvalue, hvalue.trans_le hmax, hvalue.trans_le hle⟩

/-- Settles O45: CLEAR moves TAIL to its sample, and the count splits there. -/
theorem clearDiscardsTheSampledBytes : Obligations.ClearDiscardsTheSampledBytes := by
  refine ⟨encodesNoOperand (by decide), samples_clear, fun s hs hfg => ?_⟩
  have hexec := exec_consumer_sampled hfg
  refine ⟨hexec, fun hok t ht => ?_⟩
  cases hexec.symm.trans ht
  rw [setCur_cur]
  obtain ⟨hlt, hle⟩ := hok.sample _ hs hfg
  exact ⟨countOf_sub_sample hok.head hok.tail hlt hle,
    fun hhead => count_of_head_eq_tail (commitOf_ringOk hok hfg).1 hhead.symm⟩

theorem exec_peek_empty {s : State} {hs : Nat} (hfg : s.cur.fg = .sampled .peek hs) (h : hs = s.cur.tail) :
    exec .peek s = .next (s.setCur { s.cur with fg := .idle, rsp := .returning 0xFFFF#16 }) := by
  refine (exec_consumer_sampled hfg).trans ?_
  rw [commitOf, commitPeek, ringPeek_empty h]
  rfl

theorem exec_peek_byte {s : State} {hs : Nat} (hfg : s.cur.fg = .sampled .peek hs) (h : hs ≠ s.cur.tail) :
    exec .peek s = .next (s.setCur { s.cur with
      fg := .idle, rsp := .returning ((s.cur.slot s.cur.tail).setWidth 16) }) := by
  refine (exec_consumer_sampled hfg).trans ?_
  rw [commitOf, commitPeek, ringPeek_byte h]
  rfl

theorem exec_read_empty {s : State} {hs : Nat} (hfg : s.cur.fg = .sampled .read hs) (h : hs = s.cur.tail) :
    exec .read s = .next (s.setCur { s.cur with fg := .idle, rsp := .returning 0xFFFF#16 }) := by
  refine (exec_consumer_sampled hfg).trans ?_
  rw [commitOf, commitRead, ringPop_empty h]
  rfl

theorem exec_read_byte {s : State} {hs : Nat} (hfg : s.cur.fg = .sampled .read hs) (h : hs ≠ s.cur.tail) :
    exec .read s = .next (s.setCur { s.cur with
      tail := indexNext s.cur.params.cap s.cur.tail, fg := .idle,
      rsp := .returning ((s.cur.slot s.cur.tail).setWidth 16) }) := by
  refine (exec_consumer_sampled hfg).trans ?_
  rw [commitOf, commitRead, ringPop_byte h]
  rfl

/-- A byte is widened by zeros (R97, R165). -/
theorem toNat_widened (b : Byte) : (b.setWidth 16).toNat = b.toNat := BitVec.toNat_setWidth_of_le (by decide)

/-- Settles O46: PEEK answers the byte at TAIL, the head of the queue, and leaves the ring buffer. -/
theorem peekReturnsTheOldestByte : Obligations.PeekReturnsTheOldestByte := by
  refine ⟨encodesNoOperand (by decide), samplesWhenActive (op := .peek) rfl, fun s hs hfg => ?_⟩
  refine ⟨exec_peek_empty hfg, exec_peek_byte hfg, fun hok hne => ?_⟩
  obtain ⟨hlt, hle⟩ := hok.sample _ hs hfg
  obtain ⟨-, hhead⟩ := hok.oldest hlt hle hne
  refine ⟨_, _, exec_peek_byte hfg hne, hhead, ?_, ?_⟩ <;> rw [setCur_cur]
  · exact toNat_widened _
  · exact Channel.unread_congr rfl rfl rfl rfl rfl

/-- Settles O47: READ answers the byte at TAIL and moves TAIL on. -/
theorem readTakesTheOldestByte : Obligations.ReadTakesTheOldestByte := by
  refine ⟨encodesNoOperand (by decide), samplesWhenActive (op := .read) rfl, fun s hs hfg => ?_⟩
  refine ⟨exec_read_empty hfg, exec_read_byte hfg, fun hok hne => ?_⟩
  obtain ⟨hlt, hle⟩ := hok.sample _ hs hfg
  obtain ⟨hunread, hcount, hfull, hempty⟩ := pop_effects hok hlt hle hne _ rfl
  refine ⟨_, s.cur.slot s.cur.tail, exec_read_byte hfg hne, ?_⟩
  rw [setCur_cur]
  exact ⟨hunread, toNat_widened _, hcount, hfull, hempty⟩

/-! ### Slots that nothing has written -/

theorem resetOne_slot (c : Chan) (ch : Channel) (a : Nat) :
    (resetOne c ch).slot a = Config.slotDraw c (ch.draws + 1) a := Channel.slot_unwritten rfl

/-- Settles O36: a slot without an entry reads as the draw behind the storage, for whoever reads it. -/
theorem unwrittenSlotReadsItsDraw : Obligations.UnwrittenSlotReadsItsDraw := by
  refine ⟨fun s rest hp hin => ?_, fun c a => by cases c <;> exact Channel.slot_unwritten rfl, ?_⟩
  · obtain ⟨t, ht, -, hchan⟩ := step_reset hp hin
    exact ⟨t, ht, fun c a => by rw [hchan, resetOne_slot]⟩
  · rintro s hs v hne hunwritten rfl
    rw [← Channel.slot_unwritten hunwritten]
    refine ⟨?_, fun hfg => exec_peek_byte hfg hne, fun hfg => exec_read_byte hfg hne⟩
    rintro rfl
    exact ⟨exec_rbPop_byte hne, exec_rbPeek_byte hne⟩

end Machine
end Sys2Proof
end

section
/-! PROOFS. The windows of the consumer commands (spec rules R131, R240, R241) and sequences of whole commands: a run over a
command and the events around it ends in a state that differs in one channel, so that every claim becomes an equation between
channels. -/

namespace Sys2Proof
namespace Machine

/-! ### Runs as functions of the channel -/

/-- An idle channel after `op`, with `bs` delivered between its ACCEPT and its COMMIT. -/
def windowed (op : ConsumerOp) (bs : List Byte) (ch : Channel) : Channel :=
  advanceMove (received bs (acceptConsumer op ch))

theorem received_fg (bs : List Byte) (ch : Channel) : (received bs ch).fg = ch.fg := by
  have h := congrArg Channel.fg (received_setFG bs ch.fg ch)
  exact h

theorem acceptConsumer_params (op : ConsumerOp) (ch : Channel) : (acceptConsumer op ch).params = ch.params := by
  obtain ⟨f, r, u, k, h⟩ := acceptConsumer_frame op ch
  rw [h]

theorem advanceMove_params (ch : Channel) : (advanceMove ch).params = ch.params :=
  channelMove_params (channelMove_advance .ch0 ch)

theorem windowed_params (op : ConsumerOp) (bs : List Byte) (ch : Channel) : (windowed op bs ch).params = ch.params := by
  rw [windowed, advanceMove_params, received_params, acceptConsumer_params]

section Runs

variable {s : State} {c : Chan} {op : ConsumerOp} {bs : List Byte} {rest : List Stimulus}

/-- The deliveries of a window, or the command behind it, select the channel (`run_start`). -/
theorem run_start_deliver {n : Nat} {k : CommandWord} (hp : parametersInRange s = true) :
    runFor (n + 1) { s with inbox := deliver c bs ++ .command c k :: rest } =
      runFor (n + 1) (stateAfter s c (s.chan c) (deliver c bs ++ .command c k :: rest)) := by
  cases bs with
  | nil => exact run_start hp (.inl ⟨k, rest, rfl⟩)
  | cons b bs => exact run_start hp (.inr ⟨b, _, rfl⟩)

theorem run_events_inside (hp : parametersInRange s = true) (hfg : (s.chan c).fg = .idle) :
    runFor (bs.length + 2) { s with inbox := .command c op.word :: (deliver c bs ++ .advance c :: rest) } =
      .next (stateAfter s c (windowed op bs (s.chan c)) rest) := by
  rw [run_start hp (.inl ⟨_, _, rfl⟩)]
  exact run_window (n := 0) hp rfl hfg rfl

theorem run_events_after (hp : parametersInRange s = true) (hfg : (s.chan c).fg = .idle) :
    runFor (bs.length + 2) { s with inbox := .command c op.word :: .advance c :: (deliver c bs ++ rest) } =
      .next (stateAfter s c (received bs (windowed op [] (s.chan c))) rest) := by
  rw [run_start hp (.inl ⟨_, _, rfl⟩), show bs.length + 1 + 1 = 2 + bs.length by omega, run_whole hp rfl hfg rfl]
  exact run_deliver (n := 0) hp bs _ (windowed_params op [] _)

theorem run_events_before (hp : parametersInRange s = true) (hfg : (s.chan c).fg = .idle) :
    runFor (bs.length + 2) { s with inbox := deliver c bs ++ .command c op.word :: .advance c :: rest } =
      .next (stateAfter s c (windowed op [] (received bs (s.chan c))) rest) := by
  rw [run_start_deliver hp, Nat.add_assoc, run_deliver hp bs _ rfl]
  exact run_whole (n := 0) hp (received_params bs _) ((received_fg bs _).trans hfg) rfl

end Runs

/-! ### One command, channel by channel -/

section Windows

variable {op : ConsumerOp} {bs : List Byte} {ch : Channel}

/-- On an active channel the window is received behind the sample. -/
theorem windowed_active (hact : ch.active = true) :
    windowed op bs ch = advanceMove (setFG (.sampled op ch.head) (received bs ch)) := by
  rw [windowed, acceptConsumer_active hact, received_setFG]

/-- On an inactive channel nothing is received and the command faults (R166, R191). -/
theorem windowed_inactive (hneeds : op.needsActive = true) (hin : ch.active = false) (hrx : ch.rxEnabled = false) :
    windowed op bs ch = raiseFault codePrecondition op.word ch := by
  have hlost : received bs (raiseFault codePrecondition op.word ch) = raiseFault codePrecondition op.word ch :=
    received_disabled bs hrx
  rw [windowed, acceptConsumer_inactive hneeds hin, hlost]
  exact advance_halted rfl

theorem windowed_inactive_eq_after (hneeds : op.needsActive = true) (hin : ch.active = false)
    (hrx : ch.rxEnabled = false) : windowed op bs ch = received bs (windowed op [] ch) := by
  rw [windowed_inactive hneeds hin hrx, windowed_inactive hneeds hin hrx]
  exact (received_disabled (ch := raiseFault codePrecondition op.word ch) bs hrx).symm

/-- A response does not depend on what is received behind it. -/
theorem received_respondValue (v : BitVec 16) :
    received bs (setFG .idle (respondValue v ch)) = setFG .idle (respondValue v (received bs ch)) := by
  rw [received_setFG]
  exact congrArg (setFG .idle) (received_rsp bs _ ch)

theorem windowed_nil (hact : ch.active = true) :
    windowed op [] ch = advanceMove (setFG (.sampled op ch.head) ch) := windowed_active hact

/-- READ whose sample found nothing completes as if before the events. -/
theorem windowed_read_empty (hok : ch.RingOk) (hact : ch.active = true) (hrx : ch.rxEnabled = true)
    (hempty : ch.head = ch.tail) : windowed .read bs ch = received bs (windowed .read [] ch) := by
  obtain ⟨-, htail, -⟩ := received_effects bs hok hrx
  rw [windowed_active hact, windowed_nil hact, advance_read_empty hempty,
    advance_read_empty (hempty.trans htail.symm), received_respondValue]

/-- READ whose sample found a byte completes as if behind the events. -/
theorem windowed_read_byte (hok : ch.RingOk) (hact : ch.active = true) (hrx : ch.rxEnabled = true)
    (hne : ch.head ≠ ch.tail) : windowed .read bs ch = windowed .read [] (received bs ch) := by
  obtain ⟨-, htail, hcontrol, -⟩ := received_effects bs hok hrx
  obtain ⟨hne', -⟩ := received_oldest bs hok hrx hne
  have hact' : (received bs ch).active = true := (active_congr (received_params bs ch) hcontrol).trans hact
  rw [windowed_active hact, windowed_nil hact', advance_read_byte (by rwa [htail]), advance_read_byte hne']

theorem windowed_available (hok : ch.RingOk) (hact : ch.active = true) (hrx : ch.rxEnabled = true) :
    windowed .available bs ch = received bs (windowed .available [] ch) := by
  obtain ⟨-, htail, -⟩ := received_effects bs hok hrx
  rw [windowed_active hact, windowed_nil hact, advance_available, advance_available, received_respondValue, ringCount,
    ringCount, htail, received_params]

theorem windowed_peek (hok : ch.RingOk) (hact : ch.active = true) (hrx : ch.rxEnabled = true) :
    windowed .peek bs ch = received bs (windowed .peek [] ch) := by
  obtain ⟨-, htail, -⟩ := received_effects bs hok hrx
  rw [windowed_active hact, windowed_nil hact]
  by_cases hempty : ch.head = ch.tail
  · rw [advance_peek_empty hempty, advance_peek_empty (hempty.trans htail.symm), received_respondValue]
  · obtain ⟨-, hslot⟩ := received_oldest bs hok hrx hempty
    rw [advance_peek_byte hempty, advance_peek_byte (by rwa [htail]), received_respondValue, hslot]

/-- CLEAR with events in its window: the sampled bytes go, the delivered ones that found room stay. -/
theorem windowed_clear (hok : ch.RingOk) (hact : ch.active = true) (hrx : ch.rxEnabled = true) :
    (windowed .clear bs ch).fg = .idle ∧ (windowed .clear bs ch).rsp = .void ∧
      (windowed .clear bs ch).unread = bs.take (ch.params.cap - 1 - ch.count) := by
  have hacc : (setFG (.sampled .clear ch.head) ch).RingOk := by
    rw [← acceptConsumer_active hact]
    exact acceptConsumer_ringOk hok
  obtain ⟨hring, htail, -, hfg, -, hunread⟩ := received_effects bs hacc hrx
  have hstart : (setFG (.sampled .clear ch.head) ch).unread = ch.unread := Channel.unread_congr rfl rfl rfl rfl rfl
  have heffect : advanceEffect (received bs (setFG (.sampled .clear ch.head) ch)) = .drop ch.unread.length := by
    simp only [advanceEffect, hfg, setFG_fg, clearEffect, received_params, setFG_params, htail, setFG_tail,
      Channel.unread_length]
    rfl
  rw [windowed, acceptConsumer_active hact, advance_sampled hfg]
  refine ⟨rfl, rfl, ?_⟩
  rw [(commitOf_ringOk hring hfg).2, heffect, hunread, hstart]
  exact List.drop_left

/-- READ with nothing in its window takes the head of the queue. -/
theorem windowed_read_next (hok : ch.RingOk) (hact : ch.active = true) {v : Byte} {q : List Byte}
    (hq : ch.unread = v :: q) : (windowed .read [] ch).RingOk ∧ (windowed .read [] ch).active = true ∧
      (windowed .read [] ch).fg = .idle ∧ (windowed .read [] ch).rsp = .returning (v.setWidth 16) ∧
      (windowed .read [] ch).unread = q ∧ (windowed .read [] ch).count + 1 = ch.count := by
  have hne : ch.head ≠ ch.tail := fun heq => by rw [(unread_nil_iff hok).2 heq] at hq; cases hq
  obtain ⟨hunread, hcount, -⟩ := pop_effects hok hok.head (le_refl _) hne _ rfl
  obtain ⟨rfl, rfl⟩ := List.cons.inj (hunread.symm.trans hq)
  refine ⟨advanceMove_ringOk (acceptConsumer_ringOk hok), ?_⟩
  rw [windowed_nil hact, advance_read_byte hne]
  exact ⟨hact, rfl, rfl, rfl, hcount⟩

/-- On an ordered channel the receive event is enabled exactly while the channel is active; an inactive one is empty. So
READ that finds nothing completes as if before the events, in either channel state. -/
theorem windowed_read_eq_after (hok : ch.RingOk) (hwired : ch.WiredOk) (hempty : ch.head = ch.tail) :
    windowed .read bs ch = received bs (windowed .read [] ch) := by
  have hrx := hwired.rxEnabled_eq
  cases hact : ch.active with
  | true => exact windowed_read_empty hok hact (hrx.trans hact) hempty
  | false => exact windowed_inactive_eq_after rfl hact (hrx.trans hact)

theorem windowed_read_eq_before (hok : ch.RingOk) (hwired : ch.WiredOk) (hne : ch.head ≠ ch.tail) :
    windowed .read bs ch = windowed .read [] (received bs ch) := by
  have hact : ch.active = true := by
    rw [← Bool.not_eq_false]
    exact fun hin => hne (hwired.inactive hin)
  exact windowed_read_byte hok hact (hwired.rxEnabled_eq.trans hact) hne

theorem windowed_snapshot (hok : ch.RingOk) (hwired : ch.WiredOk) (hop : op = .available ∨ op = .peek) :
    windowed op bs ch = received bs (windowed op [] ch) := by
  have hrx := hwired.rxEnabled_eq
  cases hact : ch.active with
  | true =>
    rcases hop with rfl | rfl
    · exact windowed_available hok hact (hrx.trans hact)
    · exact windowed_peek hok hact (hrx.trans hact)
  | false => exact windowed_inactive_eq_after (by rcases hop with rfl | rfl <;> rfl) hact (hrx.trans hact)

end Windows

/-! ### The windows -/

theorem available_word : ConsumerOp.available.word = 0x300000000#36 := by decide

theorem clear_word : ConsumerOp.clear.word = 0x400000000#36 := by decide

theorem peek_word : ConsumerOp.peek.word = 0x500000000#36 := by decide

theorem read_word : ConsumerOp.read.word = 0x600000000#36 := by decide

/-- Settles O39: the window's deliveries stand behind the sampled bytes, which CLEAR drops. -/
theorem clearKeepsWhatTheWindowStored : Obligations.ClearKeepsWhatTheWindowStored := by
  intro s c bs rest hok hfg hact hin
  obtain ⟨hring, hwired⟩ := (ok_chan s).1 hok c
  have hrun := run_events_inside (op := .clear) (bs := bs) (rest := rest) (params_of_ringOk hok.ring) hfg
  rw [clear_word, ← hin] at hrun
  refine ⟨_, hrun, after_inbox .., ?_⟩
  rw [after_chan]
  exact windowed_clear hring hact (hwired.rxEnabled_eq.trans hact)

/-- Settles O40: both sides end in one channel, by `windowed_read_eq_after` and `windowed_read_eq_before`. -/
theorem readWindowMovesToOneEnd : Obligations.ReadWindowMovesToOneEnd := by
  intro s c bs rest hok hfg
  obtain ⟨hring, hwired⟩ := (ok_chan s).1 hok c
  have hp := params_of_ringOk hok.ring
  have hrun := run_events_inside (op := .read) (bs := bs) (rest := rest) hp hfg
  rw [← read_word]
  split_ifs with hempty
  · rw [windowed_read_eq_after hring hwired (empty_iff.1 hempty)] at hrun
    exact hrun.trans (run_events_after hp hfg).symm
  · rw [windowed_read_eq_before hring hwired fun heq => hempty (empty_iff.2 heq)] at hrun
    exact hrun.trans (run_events_before hp hfg).symm

theorem run_snapshot {s : State} {c : Chan} {op : ConsumerOp} {bs : List Byte} {rest : List Stimulus} (hok : s.Ok)
    (hfg : (s.chan c).fg = .idle) (hop : op = .available ∨ op = .peek) :
    runFor (bs.length + 2) { s with inbox := .command c op.word :: (deliver c bs ++ .advance c :: rest) } =
      runFor (bs.length + 2) { s with inbox := .command c op.word :: .advance c :: (deliver c bs ++ rest) } := by
  obtain ⟨hring, hwired⟩ := (ok_chan s).1 hok c
  have hp := params_of_ringOk hok.ring
  rw [run_events_inside hp hfg, run_events_after hp hfg, windowed_snapshot hring hwired hop]

/-- Settles O41: the two snapshots read nothing the window changes. -/
theorem snapshotsIgnoreTheWindow : Obligations.SnapshotsIgnoreTheWindow := by
  rintro s c k bs rest hok hfg (rfl | rfl)
  · exact run_snapshot (op := .available) hok hfg (.inl rfl)
  · exact run_snapshot (op := .peek) hok hfg (.inr rfl)

/-! ### A PEEK and what follows it (R241) -/

section Peek

variable {ch : Channel}

/-- PEEK or READ with nothing in its window answers with the oldest byte. -/
theorem windowed_rsp {op : ConsumerOp} (hop : op = .peek ∨ op = .read) (hact : ch.active = true)
    (hne : ch.head ≠ ch.tail) : (windowed op [] ch).rsp = .returning ((ch.slot ch.tail).setWidth 16) := by
  rw [windowed_nil hact]
  rcases hop with rfl | rfl
  · rw [advance_peek_byte hne]; rfl
  · rw [advance_read_byte hne]; rfl

/-- PEEK leaves the channel but for its response. -/
theorem windowed_peek_byte (hact : ch.active = true) (hne : ch.head ≠ ch.tail) :
    windowed .peek [] ch = setFG .idle (respondValue (widen (ch.slot ch.tail)) ch) := by
  rw [windowed_nil hact, advance_peek_byte hne]

/-- What is received behind a PEEK leaves the next answer. -/
theorem windowed_after_peek_rsp {op : ConsumerOp} (hop : op = .peek ∨ op = .read) (bs : List Byte) (hok : ch.RingOk)
    (hact : ch.active = true) (hrx : ch.rxEnabled = true) (hne : ch.head ≠ ch.tail) :
    (windowed op [] (received bs (windowed .peek [] ch))).rsp = .returning ((ch.slot ch.tail).setWidth 16) := by
  have hpeek : (windowed .peek [] ch).RingOk := advanceMove_ringOk (acceptConsumer_ringOk hok)
  rw [windowed_peek_byte hact hne] at hpeek ⊢
  obtain ⟨-, -, hcontrol, -⟩ := received_effects bs hpeek hrx
  obtain ⟨hne', hslot⟩ := received_oldest bs hpeek hrx hne
  rw [windowed_rsp hop ((active_congr (received_params bs _) hcontrol).trans hact) hne', hslot]
  rfl

end Peek

theorem run_peek_then {s : State} {c : Chan} {op : ConsumerOp} {bs : List Byte} {rest : List Stimulus}
    (hp : parametersInRange s = true) (hfg : (s.chan c).fg = .idle) (hpeek : (windowed .peek [] (s.chan c)).fg = .idle) :
    runFor (bs.length + 4) { s with inbox := .command c ConsumerOp.peek.word :: .advance c ::
        (deliver c bs ++ .command c op.word :: .advance c :: rest) } =
      .next (stateAfter s c (windowed op [] (received bs (windowed .peek [] (s.chan c)))) rest) := by
  have hparams := windowed_params .peek [] (s.chan c)
  rw [run_start hp (.inl ⟨_, _, rfl⟩), show bs.length + 3 + 1 = 2 + (bs.length + 2) by omega, run_whole hp rfl hfg rfl]
  refine (run_deliver hp bs _ hparams).trans ?_
  exact run_whole (n := 0) hp ((received_params bs _).trans hparams) ((received_fg bs _).trans hpeek) rfl

/-- Settles O42: PEEK leaves TAIL and the slot there, and so do the deliveries. -/
theorem peekForetellsTheNextRead : Obligations.PeekForetellsTheNextRead := by
  intro s c k bs rest hok hfg hact hnonempty hk hin
  obtain ⟨hring, hwired⟩ := (ok_chan s).1 hok c
  have hp := params_of_ringOk hok.ring
  have hne : (s.chan c).head ≠ (s.chan c).tail := fun heq => by
    rw [empty_iff.2 heq] at hnonempty; cases hnonempty
  obtain ⟨op, hop, rfl⟩ : ∃ op : ConsumerOp, (op = .peek ∨ op = .read) ∧ op.word = k := by
    rcases hk with rfl | rfl
    exacts [⟨.peek, .inl rfl, peek_word⟩, ⟨.read, .inr rfl, read_word⟩]
  have hidle : (windowed .peek [] (s.chan c)).fg = .idle := by rw [windowed_peek_byte hact hne]; rfl
  have hfirst := run_events_inside (op := .peek) (bs := [])
    (rest := deliver c bs ++ .command c op.word :: .advance c :: rest) hp hfg
  have hboth := run_peek_then (op := op) (bs := bs) (rest := rest) hp hfg hidle
  rw [peek_word, ← hin] at hboth
  rw [peek_word, deliver, List.map_nil, List.nil_append, ← hin] at hfirst
  refine ⟨_, _, _, hfirst, hboth, ?_, ?_, unread_head hring hne⟩ <;> simp only [after_chan]
  · exact windowed_rsp (.inl rfl) hact hne
  · rw [windowed_rsp (.inl rfl) hact hne,
      windowed_after_peek_rsp hop bs hring hact (hwired.rxEnabled_eq.trans hact) hne]

/-! ### Received bytes, counted and read in order (the source's S8) -/

theorem windowed_available_rsp {ch : Channel} (hact : ch.active = true) :
    (windowed .available [] ch).rsp = .returning (BitVec.ofNat 16 ch.count) := by
  rw [windowed_nil hact, advance_available]
  rfl

/-- Deliveries into an empty active channel that fit are the queue. -/
theorem received_unread {bs : List Byte} {ch : Channel} (hok : ch.RingOk) (hrx : ch.rxEnabled = true)
    (hempty : ch.head = ch.tail) (hfit : bs.length ≤ ch.params.cap - 1) : (received bs ch).unread = bs := by
  obtain ⟨-, -, -, -, -, hunread⟩ := received_effects bs hok hrx
  obtain ⟨hcount, -⟩ := count_of_head_eq_tail hok hempty
  rw [hunread, (unread_nil_iff hok).2 hempty, hcount, List.nil_append, Nat.sub_zero,
    List.take_of_length_le hfit]

/-- `k + 1` READs in a row answer last with the `k`-th byte of the queue. -/
theorem run_reads {s : State} {c : Chan} {rest : List Stimulus} {b : Byte} (hp : parametersInRange s = true) (k : Nat) :
    ∀ ch : Channel, ch.params = (s.chan c).params → ch.RingOk → ch.active = true → ch.fg = .idle →
      ch.unread[k]? = some b → ∃ ch' : Channel,
        runFor (2 * (k + 1)) (stateAfter s c ch ((List.replicate (k + 1) (wholeCommand c .read)).flatten ++ rest)) =
          .next (stateAfter s c ch' rest) ∧
        ch'.rsp = .returning (b.setWidth 16) ∧ ch'.count = ch.count - (k + 1) := by
  induction k with
  | zero =>
    intro ch hch hok hact hfg hb
    obtain ⟨v, q, hq⟩ := List.exists_cons_of_ne_nil fun hnil : ch.unread = [] => by simp [hnil] at hb
    obtain ⟨-, -, -, hrsp, -, hcount⟩ := windowed_read_next hok hact hq
    rw [hq, List.getElem?_cons_zero, Option.some.injEq] at hb
    rw [hb] at hrsp
    exact ⟨_, run_whole (n := 0) hp hch hfg rfl, hrsp, Nat.eq_sub_of_add_eq hcount⟩
  | succ k ih =>
    intro ch hch hok hact hfg hb
    obtain ⟨v, q, hq⟩ := List.exists_cons_of_ne_nil fun hnil : ch.unread = [] => by simp [hnil] at hb
    obtain ⟨hok', hact', hfg', -, hunread, hcount'⟩ := windowed_read_next hok hact hq
    rw [hq, List.getElem?_cons_succ, ← hunread] at hb
    obtain ⟨ch', hrun, hrsp, hcount⟩ := ih _ ((windowed_params ..).trans hch) hok' hact' hfg' hb
    refine ⟨ch', ?_, hrsp, by omega⟩
    rw [show 2 * (k + 1 + 1) = 2 + 2 * (k + 1) by omega, ← hrun]
    exact run_whole hp hch hfg rfl

/-- Settles O43: the deliveries are the queue, AVAILABLE counts it and each READ takes its head. -/
theorem receivedBytesAreReadInOrder : Obligations.ReceivedBytesAreReadInOrder := by
  intro s c bs rest hok hfg hact hempty hfit
  obtain ⟨hring, hwired⟩ := (ok_chan s).1 hok c
  have hp := params_of_ringOk hok.ring
  have hrx := hwired.rxEnabled_eq.trans hact
  have hqueue := received_unread hring hrx (empty_iff.1 hempty) hfit
  obtain ⟨hring', -, hcontrol, -⟩ := received_effects bs hring hrx
  have hparams := received_params bs (s.chan c)
  have hact' := (active_congr hparams hcontrol).trans hact
  have hfg' := (received_fg bs (s.chan c)).trans hfg
  have hcount : (received bs (s.chan c)).count = bs.length := by rw [← Channel.unread_length, hqueue]
  refine ⟨fun hin => ?_, fun k b hb hin => ?_⟩
  · have hrun := run_events_before (op := .available) (bs := bs) (rest := rest) hp hfg
    have hin' : s.inbox = deliver c bs ++ .command c ConsumerOp.available.word :: .advance c :: rest := hin
    rw [← hin'] at hrun
    refine ⟨_, hrun, ?_⟩
    rw [after_chan, windowed_available_rsp hact', hcount]
  · rw [← hqueue] at hb
    obtain ⟨ch', hrun, hrsp, hcount'⟩ := run_reads (rest := rest) hp k _ hparams hring' hact' hfg' hb
    rw [hcount] at hcount'
    refine ⟨stateAfter s c ch' rest, ?_, by rwa [after_chan], by rwa [after_chan]⟩
    have hreads : s.inbox = deliver c bs ++ .command c ConsumerOp.read.word ::
      (.advance c :: ((List.replicate k (wholeCommand c .read)).flatten ++ rest)) := hin
    have hstart := run_start_deliver (s := s) (n := bs.length + (2 * k + 1)) (c := c) (bs := bs)
      (k := ConsumerOp.read.word) (rest := .advance c :: ((List.replicate k (wholeCommand c .read)).flatten ++ rest)) hp
    have hself : { s with inbox := deliver c bs ++ .command c ConsumerOp.read.word ::
      (.advance c :: ((List.replicate k (wholeCommand c .read)).flatten ++ rest)) } = s := by rw [← hreads]
    rw [hself] at hstart
    exact (hstart.trans (run_deliver (n := 2 * (k + 1)) hp bs _ rfl)).trans hrun

end Machine
end Sys2Proof
end

section
/-! PROOFS. The configuration commands (spec rules R140 to R150): BAUDSEL in integers, and the next states of BEGIN, END and
FLUSH. -/

namespace Sys2Proof
namespace Machine

/-! ### BAUDSEL -/

/-- `D(d)` of R142 in integers (R143; outside `WELL` decision D17). -/
theorem divisor_eq (d fclk : BitVec 32) (baud : Baud) : divisor d fclk baud =
    BitVec.ofNat 16 (((fclk.toNat / d.toNat / baud.toNat + (2 ^ 32 - 1)) % 2 ^ 32) / 2 % 2 ^ 16) := by
  apply BitVec.eq_of_toNat_eq
  simp only [divisor, BitVec.toNat_setWidth, BitVec.toNat_udiv, BitVec.toNat_sub, BitVec.toNat_ofNat]
  rw [Nat.mod_mod, Nat.add_comm (2 ^ 32 - 1 % 2 ^ 32)]

/-- Only a rate of 0 uses the draw (R146). -/
theorem baudSel_draw {baud : Baud} (h0 : baud ≠ 0#32) (draw draw' : Bool × Setting) (fclk : BitVec 32) :
    baudSel draw fclk baud = baudSel draw' fclk baud := by
  rw [baudSel, baudSel, if_neg h0, if_neg h0]

/-- Settles O54: the three branches, with the 32-bit arithmetic as `divisor_eq` has it. -/
theorem divisorCalculator : Obligations.DivisorCalculator := by
  intro draw fclk baud D
  refine ⟨fun h0 => if_pos h0, fun h0 => ?_⟩
  have h2x : div2x fclk baud = BitVec.ofNat 16 (D 4) := divisor_eq 4#32 fclk baud
  have h1x : div1x fclk baud = BitVec.ofNat 16 (D 8) := divisor_eq 8#32 fclk baud
  have hfix : baud = fixedBaud ↔ baud.toNat = 57600 := BitVec.toNat_inj.symm
  have hmax : setMax < div2x fclk baud ↔ 4095 < D 4 := by
    have hlt : D 4 < 2 ^ 16 := Nat.mod_lt _ (by decide)
    rw [h2x, BitVec.lt_def, BitVec.toNat_ofNat, Nat.mod_eq_of_lt hlt]
    rfl
  rw [← h2x, ← h1x]
  by_cases hb : baud = fixedBaud
  · rw [if_pos (.inl (hfix.1 hb)), hb, baudSel_fixedBaud]
  · by_cases hgt : setMax < div2x fclk baud
    · rw [if_pos (.inr (hmax.1 hgt)), baudSel_of_setMax_lt h0 hgt]
    · rw [if_neg (not_or.2 ⟨hfix.not.1 hb, hmax.not.1 hgt⟩), baudSel_of_le_setMax h0 hb (BitVec.not_lt.1 hgt)]

/-! ### BEGIN -/

theorem programChannel_eq (u : Bool) (v : Setting) (ch : Channel) : programChannel u v ch =
    { ch with
      ubrrh := highByte v, ubrrl := lowByte v,
      status := if u then withBitSet ch.status ch.params.bU2x else withBitClear ch.status ch.params.bU2x,
      control := withBitSet (withBitSet (withBitSet ch.control ch.params.bRxen) ch.params.bTxen) ch.params.bRxcie } := by
  cases u <;> rfl

/-- What BEGIN writes, and that it writes nothing else (R141, R147). -/
theorem acceptBegin_eq (c : Chan) (baud : Baud) (ch : Channel) : acceptBegin c baud ch =
    { programChannel (baudSel (zeroBaudDraw c ch) ch.params.fclk baud).1 (baudSel (zeroBaudDraw c ch) ch.params.fclk baud).2 ch
      with fg := .idle, rsp := .void, draws := if baud = 0#32 then ch.draws + 1 else ch.draws } := by
  simp only [acceptBegin, programChannel_eq]
  split_ifs <;> rfl

/-- One bit of a register written with `u`. -/
theorem testBit_ite_bit (r : Byte) (u : Bool) (b i : Fin 8) :
    testBit (if u then withBitSet r b else withBitClear r b) i = if i = b then u else testBit r i := by
  cases u <;> by_cases h : i = b <;> simp [h]

/-- The three enables set: exactly their bits are (R147). -/
theorem testBit_enables_set (r : Byte) (p : Params) (i : Fin 8) :
    testBit (withBitSet (withBitSet (withBitSet r p.bRxen) p.bTxen) p.bRxcie) i =
      (decide (i = p.bRxen ∨ i = p.bTxen ∨ i = p.bRxcie) || testBit r i) := by
  simp only [testBit_withBitSet, Bool.decide_or]
  ac_rfl

/-- The three enables cleared: exactly their bits are (R148). -/
theorem testBit_enables_clear (r : Byte) (p : Params) (i : Fin 8) :
    testBit (withBitClear (withBitClear (withBitClear r p.bRxen) p.bTxen) p.bRxcie) i =
      (!decide (i = p.bRxen ∨ i = p.bTxen ∨ i = p.bRxcie) && testBit r i) := by
  simp only [testBit_withBitClear, Bool.decide_or, Bool.not_or]
  ac_rfl

theorem exec_begin {baud : Baud} {s : State} (hfg : s.cur.fg = .idle) :
    exec (.beginCmd baud) s = .next (s.setCur (acceptBegin s.sel baud s.cur)) := exec_command_idle rfl hfg

/-- Settles O57: BEGIN is `acceptBegin`, whose writes are those of `programChannel`. -/
theorem beginProgramsAndActivates : Obligations.BeginProgramsAndActivates := by
  intro baud s hfg
  have hexec := exec_begin (baud := baud) hfg
  refine ⟨_, _, _, _, fun draw h0 => baudSel_draw h0 (zeroBaudDraw s.sel s.cur) draw s.cur.params.fclk, ?next,
    testBit_ite_bit s.cur.status _ _, testBit_enables_set s.cur.control s.cur.params, fun t ht => ?active⟩
  case next =>
    rw [hexec, acceptBegin_eq, programChannel_eq, ← hfg]
    rfl
  case active =>
    cases hexec.symm.trans ht
    rw [setCur_cur]
    exact acceptBegin_active ..

/-- Registers that hold what BEGIN writes are written with what they hold. -/
theorem programChannel_of_programmed {u : Bool} {v : Setting} {ch : Channel} (hhigh : ch.ubrrh = highByte v)
    (hlow : ch.ubrrl = lowByte v) (hu2x : testBit ch.status ch.params.bU2x = u)
    (henables : ∀ i, i = ch.params.bRxen ∨ i = ch.params.bTxen ∨ i = ch.params.bRxcie → testBit ch.control i = true) :
    programChannel u v ch = ch := by
  have hstatus : (if u then withBitSet ch.status ch.params.bU2x else withBitClear ch.status ch.params.bU2x) = ch.status :=
    eq_of_testBit_eq fun i => by
      rw [testBit_ite_bit]
      split_ifs with hi
      · rw [hi, hu2x]
      · rfl
  have hcontrol : withBitSet (withBitSet (withBitSet ch.control ch.params.bRxen) ch.params.bTxen) ch.params.bRxcie =
      ch.control :=
    eq_of_testBit_eq fun i => by
      rw [testBit_enables_set]
      by_cases hi : i = ch.params.bRxen ∨ i = ch.params.bTxen ∨ i = ch.params.bRxcie
      · rw [henables i hi, Bool.or_true]
      · rw [decide_eq_false hi, Bool.false_or]
  rw [programChannel_eq, hstatus, hcontrol, ← hhigh, ← hlow]

theorem acceptBegin_idem {c : Chan} {baud : Baud} (h0 : baud ≠ 0#32) (ch : Channel) :
    acceptBegin c baud (acceptBegin c baud ch) = acceptBegin c baud ch := by
  have hsel : baudSel (zeroBaudDraw c (acceptBegin c baud ch)) (acceptBegin c baud ch).params.fclk baud =
      baudSel (zeroBaudDraw c ch) ch.params.fclk baud := by
    rw [acceptBegin_params]
    exact baudSel_draw h0 ..
  have hprogrammed := programChannel_of_programmed (acceptBegin_ubrrh c baud ch) (acceptBegin_ubrrl c baud ch)
    (by rw [acceptBegin_status, acceptBegin_params, testBit_ite_bit, if_pos rfl])
    (fun i hi => by
      rw [acceptBegin_params] at hi
      rw [acceptBegin_control, testBit_enables_set, decide_eq_true hi, Bool.true_or])
  have hrsp : Response.void = (acceptBegin c baud ch).rsp := (acceptBegin_rsp c baud ch).symm
  rw [acceptBegin_eq c baud (acceptBegin c baud ch), hsel, hprogrammed, if_neg h0, hrsp, ← acceptBegin_fg c baud ch]

/-- Settles O58: the second BEGIN writes what the first has written. -/
theorem beginIsIdempotent : Obligations.BeginIsIdempotent := by
  intro baud s t hfg h0 h
  cases (exec_begin hfg).symm.trans h
  rw [exec_begin (by rw [setCur_cur]; exact acceptBegin_fg ..), setCur_sel]
  have hcur : acceptBegin s.sel baud (s.setCur (acceptBegin s.sel baud s.cur)).cur =
      (s.setCur (acceptBegin s.sel baud s.cur)).cur := by
    rw [setCur_cur]
    exact acceptBegin_idem h0 s.cur
  rw [hcur, setCur_self]

/-! ### END and FLUSH -/

theorem setFG_of_fg {f : FG} {ch : Channel} (h : ch.fg = f) : setFG f ch = ch := by
  rw [← h]
  rfl

/-- What END writes, and that it writes nothing else (R148). -/
theorem acceptEnd_eq {ch : Channel} (hfg : ch.fg = .idle) : acceptEnd ch =
    { ch with
      control := withBitClear (withBitClear (withBitClear ch.control ch.params.bRxen) ch.params.bTxen) ch.params.bRxcie,
      tail := ch.head, rsp := .void } := by
  have hidle : acceptEnd ch = respondNone (ringClear ch.head (disableChannel ch)) :=
    setFG_of_fg (ch := respondNone (ringClear ch.head (disableChannel ch))) hfg
  rw [hidle]
  rfl

/-- Settles O59: END clears the enables and clears the buffer at HEAD. -/
theorem endDeactivatesAndEmpties : Obligations.EndDeactivatesAndEmpties := by
  refine ⟨encodesNoOperand (by decide), fun s hfg => ?_⟩
  have hexec : exec .endCmd s = .next (s.setCur (acceptEnd s.cur)) := exec_command_idle rfl hfg
  refine ⟨_, by rw [hexec, acceptEnd_eq hfg], testBit_enables_clear s.cur.control s.cur.params, fun hok t ht => ?_⟩
  cases hexec.symm.trans ht
  rw [setCur_cur]
  exact ⟨acceptEnd_active _, count_of_head_eq_tail (acceptEnd_ringOk hok) rfl⟩

/-- Settles O60: FLUSH only responds. -/
theorem flushChangesOnlyTheResponse : Obligations.FlushChangesOnlyTheResponse := by
  refine ⟨encodesNoOperand (by decide), fun s hfg => ?_⟩
  have hexec : exec .flush s = .next (s.setCur (acceptFlush s.cur)) := exec_command_idle rfl hfg
  have hflush : acceptFlush s.cur = respondNone s.cur := setFG_of_fg hfg
  rw [hexec, hflush]
  rfl

end Machine
end Sys2Proof
end

section
/-! PROOFS. The transmit command WRITE (spec rules R180 to R186): its steps, and runs over windows of stimuli as chains of moves
of one channel. -/

namespace Sys2Proof
namespace Machine

/-! ### The steps of WRITE -/

theorem acceptWrite_active {b : Byte} {ch : Channel} (h : ch.active = true) : acceptWrite b ch = { ch with fg := .poll b } :=
  if_pos h

theorem acceptWrite_inactive {b : Byte} {ch : Channel} (h : ch.active = false) : acceptWrite b ch =
    { ch with fault := 1#2, fcmd := 7#4 ++ (0#24 ++ b), rsp := .faulted 1#2, fg := .halted } :=
  if_neg (Bool.eq_false_iff.1 h)

theorem exec_write_idle {b : Byte} {s : State} (hfg : s.cur.fg = .idle) :
    exec (.write b) s = .next (s.setCur (acceptWrite b s.cur)) := exec_command_idle rfl hfg

/-- Settles O48: ACCEPT branches on ACTIVE, POLL on the bit. -/
theorem writeTransmitsOneByte : Obligations.WriteTransmitsOneByte := by
  refine ⟨fun arg => ⟨decode_write arg, fun hwide => ?_⟩, fun b s => ⟨fun hfg hact => ?_, fun hfg hin => ?_, fun hfg hu => ?_,
    fun hfg hu => ?_⟩⟩
  · refine raisesIllegalCommand_of_rejected (why := .nonzeroArg) ?_
    rw [decode_write, if_neg (by omega)]
  · rw [exec_write_idle hfg, acceptWrite_active hact]
  · rw [exec_write_idle hfg, acceptWrite_inactive hin]
  · refine ⟨withBitClear s.cur.status s.cur.params.bUdre, ?_, fun i => testBit_withBitClear _ _ i⟩
    rw [exec_write_poll hfg, pollStep_of_udre b hu]
  · rw [exec_write_poll hfg, pollStep_of_not_udre hfg hu, setCur_self]

/-! ### Runs over a window of stimuli -/

/-- The moves of channel `c` over a list of stimuli lead from the one channel to the other. -/
def MovesTo (c : Chan) : List Stimulus → Channel → Channel → Prop
  | [], ch, ch' => ch' = ch
  | x :: xs, ch, ch' => ∃ mid, channelMove c x ch = some mid ∧ MovesTo c xs mid ch'

theorem movesTo_append {c : Chan} {xs ys : List Stimulus} {ch ch' : Channel} :
    MovesTo c (xs ++ ys) ch ch' ↔ ∃ mid, MovesTo c xs ch mid ∧ MovesTo c ys mid ch' := by
  induction xs generalizing ch with
  | nil => simp [MovesTo]
  | cons x xs ih =>
    simp only [List.cons_append, MovesTo, ih]
    tauto

/-- What every move of a window keeps, the window keeps. -/
theorem MovesTo.keeps {P : Channel → Prop} {c : Chan} {xs : List Stimulus} {ch ch' : Channel} (h : MovesTo c xs ch ch')
    (hmove : ∀ x ∈ xs, ∀ a a', channelMove c x a = some a' → P a → P a') (h0 : P ch) : P ch' := by
  induction xs generalizing ch with
  | nil => cases h; exact h0
  | cons x xs ih =>
    obtain ⟨mid, hmid, hrest⟩ := h
    exact ih hrest (fun y hy => hmove y (List.mem_cons_of_mem x hy)) (hmove x List.mem_cons_self ch mid hmid h0)

theorem wired_not_reserved {x : Stimulus} (h : x.wired = true) : x.reserved = false := by
  cases x
  case ringPort => cases h
  all_goals rfl

/-- A run over stimuli none of which is a reserved word does not stop, and does each channel's moves. -/
theorem run_moves {rest : List Stimulus} (xs : List Stimulus) : ∀ s : State, parametersInRange s = true →
    s.inbox = xs ++ rest → (∀ x ∈ xs, x.reserved = false) →
    ∃ t, Sys2Proof.core.run xs.length s = .next t ∧ t.inbox = rest ∧ ∀ c, MovesTo c xs (s.chan c) (t.chan c) := by
  induction xs with
  | nil => exact fun s _ hin _ => ⟨s, run_zero.2 rfl, hin, fun _ => rfl⟩
  | cons x xs ih =>
    intro s hp hin hlegal
    obtain ⟨u, hu⟩ := step_exists_next hp fun x' rest' hin' c => by
      cases hin.symm.trans hin'
      exact channelMove_ne_none (hlegal x List.mem_cons_self)
    obtain ⟨t, ht, htin, hmoves⟩ := ih u (step_parametersInRange hu) (step_inbox hu hin)
      fun y hy => hlegal y (List.mem_cons_of_mem x hy)
    exact ⟨t, run_succ.2 ⟨u, hu, ht⟩, htin, fun c => ⟨u.chan c, step_chan hu hin c, hmoves c⟩⟩

/-! ### A WRITE that polls in vain -/

/-- Only the receive side of the channel has changed. -/
def ReceiveSideOnly (ch ch' : Channel) : Prop := ∃ d st h, ch' = { ch with rxdata := d, st := st, head := h }

/-- While the bit is clear and no TXRDY comes, a polling WRITE's channel only receives (R184). -/
theorem stalled_move {c : Chan} {x : Stimulus} {ch ch' : Channel} {b : Byte} (hm : channelMove c x ch = some ch')
    (hwired : x.wired = true) (hx : x ≠ .reset) (htx : x ≠ .txrdy c) (hfg : ch.fg = .poll b) (hu : ch.udre = false) :
    ReceiveSideOnly ch ch' := by
  rcases channelMove_cases hm with h | ⟨k, -, hidle, -⟩ | ⟨op, hs, -, hs', -⟩ | ⟨b', -, hb, h⟩ | ⟨v, b', -, -, -, h⟩ |
    ⟨htx', -⟩ | ⟨hreset, -⟩ | ⟨u, hring, -⟩
  · exact ⟨_, _, _, h⟩
  · rw [hfg] at hidle; cases hidle
  · rw [hfg] at hs'; cases hs'
  · exact ⟨_, _, _, h.trans (pollStep_of_not_udre hb hu)⟩
  · rw [receiveByte_eq, ringPush_eq] at h; exact ⟨_, _, _, h⟩
  · exact absurd htx' htx
  · exact absurd hreset hx
  · rw [hring] at hwired; cases hwired

/-- Settles O49: every move of the window changes the receive side alone. -/
theorem writeHangsWithoutTxrdy : Obligations.WriteHangsWithoutTxrdy := by
  intro s c b xs rest hok hin hfg hu hxs
  obtain ⟨-, hwired⟩ := (ok_chan s).1 hok c
  obtain ⟨t, ht, htin, hmoves⟩ := run_moves xs s (params_of_ringOk hok.ring) hin
    fun x hx => wired_not_reserved (hxs x hx).1
  have hkept : ReceiveSideOnly (s.chan c) (t.chan c) := by
    refine (hmoves c).keeps ?_ ⟨_, _, _, rfl⟩
    rintro x hx a a' hm ⟨d, st, h, rfl⟩
    obtain ⟨hw, hreset, htx⟩ := hxs x hx
    obtain ⟨d', st', h', rfl⟩ := stalled_move hm hw hreset htx hfg hu
    exact ⟨d', st', h', rfl⟩
  obtain ⟨d, st, h, hchan⟩ := hkept
  refine ⟨t, ht, htin, ?_⟩
  rw [hchan]
  exact ⟨hfg, hwired.fault_zero (by rw [hfg]; exact nofun), hu, rfl, rfl, rfl⟩

/-! ### A WRITE that is served -/

/-- TXLOG only grows (R38), RESET apart. -/
theorem channelMove_txlog {c : Chan} {x : Stimulus} {ch ch' : Channel} (hm : channelMove c x ch = some ch')
    (hx : x ≠ .reset) : ch.txlog <+: ch'.txlog := by
  rcases channelMove_cases hm with h | ⟨k, -, -, ⟨i, -, h⟩ | ⟨w, -, h⟩⟩ | ⟨op, hs, -, -, h⟩ | ⟨b, -, -, h⟩ |
    ⟨v, b, -, -, -, h⟩ | ⟨-, h⟩ | ⟨hreset, -⟩ | ⟨u, -, ⟨b, -, h⟩ | ⟨-, h⟩ | ⟨-, h⟩⟩
  · rw [h]
  · rw [h, acceptOf_txlog]
  · rw [h, raiseFault_txlog]
  · obtain ⟨r, n, hc, -⟩ := commitOf_cases op hs ch
    rw [h, hc]
    exact List.prefix_rfl
  · rcases pollStep_cases b ch with ⟨-, hp⟩ | ⟨-, hp⟩ <;> rw [h, hp]
    exact List.prefix_append ..
  · rw [h, receiveByte_eq, ringPush_eq]
  · rw [h, txReady_txlog]
  · exact absurd hreset hx
  · rw [h, ringPush_eq]
  · rw [h]
  · rw [h, ringClear_txlog]

/-- The WRITE of `b` that found `log` in TXLOG has completed, or it polls still. -/
def WriteGoesOn (log : List Byte) (b : Byte) (ch : Channel) : Prop :=
  log ++ [b] <+: ch.txlog ∨ (ch.fg = .poll b ∧ ch.txlog = log)

/-- As `WriteGoesOn`, and what still polls finds the bit set. -/
def WriteIsServed (log : List Byte) (b : Byte) (ch : Channel) : Prop :=
  log ++ [b] <+: ch.txlog ∨ (ch.fg = .poll b ∧ ch.txlog = log ∧ ch.udre = true)

section Served

variable {c : Chan} {x : Stimulus} {ch ch' : Channel} {log : List Byte} {b : Byte}

theorem completed_move (hm : channelMove c x ch = some ch') (hx : x ≠ .reset) (h : log ++ [b] <+: ch.txlog) :
    log ++ [b] <+: ch'.txlog := h.trans (channelMove_txlog hm hx)

theorem writeGoesOn_move (hm : channelMove c x ch = some ch') (hx : x ≠ .reset) (h : WriteGoesOn log b ch) :
    WriteGoesOn log b ch' := by
  rcases h with hdone | ⟨hfg, hlog⟩
  · exact .inl (completed_move hm hx hdone)
  · rcases poll_move hm hx hfg with ⟨hfg', hlog', -⟩ | ⟨-, -, -, hlog', -⟩
    · exact .inr ⟨hfg', hlog'.trans hlog⟩
    · exact .inl (by rw [hlog', hlog])

theorem writeIsServed_move (hm : channelMove c x ch = some ch') (hx : x ≠ .reset) (h : WriteIsServed log b ch) :
    WriteIsServed log b ch' := by
  rcases h with hdone | ⟨hfg, hlog, hu⟩
  · exact .inl (completed_move hm hx hdone)
  · rcases poll_move hm hx hfg with ⟨hfg', hlog', -, hkeep, -⟩ | ⟨-, -, -, hlog', -⟩
    · exact .inr ⟨hfg', hlog'.trans hlog, (hkeep hu).1⟩
    · exact .inl (by rw [hlog', hlog])

/-- TXRDY serves what polls. -/
theorem writeIsServed_of_txrdy (hm : channelMove c (.txrdy c) ch = some ch') (h : WriteGoesOn log b ch) :
    WriteIsServed log b ch' := by
  rcases h with hdone | ⟨hfg, hlog⟩
  · exact .inl (completed_move hm nofun hdone)
  · rcases poll_move hm nofun hfg with ⟨hfg', hlog', -, -, hset⟩ | ⟨-, -, -, hlog', -⟩
    · exact .inr ⟨hfg', hlog'.trans hlog, hset rfl⟩
    · exact .inl (by rw [hlog', hlog])

/-- The sequencer's turn completes what is served. -/
theorem completed_of_advance (hm : channelMove c (.advance c) ch = some ch') (h : WriteIsServed log b ch) :
    log ++ [b] <+: ch'.txlog := by
  rcases h with hdone | ⟨hfg, hlog, hu⟩
  · exact completed_move hm nofun hdone
  · rcases poll_move hm nofun hfg with ⟨-, -, -, hkeep, -⟩ | ⟨-, -, -, hlog', -⟩
    · exact absurd rfl (hkeep hu).2
    · rw [hlog', hlog]

end Served

/-- Settles O50: the window is cut at its TXRDY and at the turn after it. -/
theorem writeCompletesWhenTheTransmitterDrains : Obligations.WriteCompletesWhenTheTransmitterDrains := by
  rintro s c b xs rest hok hin hfg ⟨before, between, after, rfl⟩ hxs
  obtain ⟨t, ht, htin, hmoves⟩ := run_moves _ s (params_of_ringOk hok.ring) hin fun x hx => wired_not_reserved (hxs x hx).1
  refine ⟨t, ht, htin, ?_⟩
  have hnoreset : ∀ x, x ∈ before ++ Stimulus.txrdy c :: (between ++ Stimulus.advance c :: after) → x ≠ .reset :=
    fun x hx => (hxs x hx).2
  simp only [List.mem_append, List.mem_cons] at hnoreset
  obtain ⟨ch1, hbefore, ch2, htxrdy, hlater⟩ := movesTo_append.1 (hmoves c)
  obtain ⟨ch3, hbetween, ch4, hadvance, hafter⟩ := movesTo_append.1 hlater
  have h1 : WriteGoesOn (s.chan c).txlog b ch1 :=
    hbefore.keeps (fun x hx _ _ hm => writeGoesOn_move hm (hnoreset x (.inl hx))) (.inr ⟨hfg, rfl⟩)
  have h3 : WriteIsServed (s.chan c).txlog b ch3 :=
    hbetween.keeps (fun x hx _ _ hm => writeIsServed_move hm (hnoreset x (.inr (.inr (.inl hx)))))
      (writeIsServed_of_txrdy htxrdy h1)
  exact hafter.keeps (P := fun ch => (s.chan c).txlog ++ [b] <+: ch.txlog)
    (fun x hx _ _ hm => completed_move hm (hnoreset x (.inr (.inr (.inr (.inr hx)))))) (completed_of_advance hadvance h3)

end Machine
end Sys2Proof
end

section
/-! PROOFS. The end of the run of a one-WRITE program (spec rules R180, R186, R248, R249): the WRITE polls until the first
TXRDY and turn of the sequencer behind it, and rests from then on. -/

namespace Sys2Proof
namespace Machine

/-- An execution whose only command is WRITE `b` on the active channel `c`, from rest, with a sequencer that keeps taking its
turns and a peripheral that drains (R248). -/
structure WriteRun (c : Chan) (b : Byte) (e : Nat → State) (x : Nat → Stimulus) : Prop where
  executes : Executes e x
  rest : ∀ c', ((e 0).chan c').atRest = true
  active : ((e 0).chan c).active = true
  command : x 0 = .command c (writeWord b)
  noReset : ∀ n, x n ≠ .reset
  noCommand : ∀ n, 0 < n → ∀ c' k, x n ≠ .command c' k
  turns : ∀ n, ∃ m, n ≤ m ∧ x m = .advance c
  drains : TxDrains c e x

/-- The WRITE of `b` polls, and TXLOG is still `log`. -/
structure Polling (log : List Byte) (b : Byte) (ch : Channel) : Prop where
  fg : ch.fg = .poll b
  txlog : ch.txlog = log
  fault : ch.fault = 0#2

/-- The WRITE of `b` has completed, and the channel rests. -/
structure Written (log : List Byte) (b : Byte) (ch : Channel) : Prop where
  fg : ch.fg = .idle
  txlog : ch.txlog = log ++ [b]
  fault : ch.fault = 0#2
  rsp : ch.rsp = .returning 1#16

theorem atRest_iff {ch : Channel} : ch.atRest = true ↔ ch.fg = .idle ∧ ch.fault = 0#2 := by
  rw [Channel.atRest, Bool.and_eq_true, decide_eq_true_eq, decide_eq_true_eq]

theorem Written.move {c : Chan} {x : Stimulus} {ch ch' : Channel} {log : List Byte} {b : Byte} (h : Written log b ch)
    (hm : channelMove c x ch = some ch') (hx : ∀ c k, x ≠ .command c k) (hr : x ≠ .reset) : Written log b ch' := by
  obtain ⟨hfg, hfault, hlog, hrsp⟩ := rest_move hm hx hr h.fg
  exact ⟨hfg, hlog.trans h.txlog, hfault.trans h.fault, hrsp.trans h.rsp⟩

/-- A step of a polling WRITE: it polls on, keeping the bit once it is set, or it has completed; TXRDY sets the bit, and a
turn that finds it set completes. -/
theorem Polling.move {c : Chan} {x : Stimulus} {ch ch' : Channel} {log : List Byte} {b : Byte} (h : Polling log b ch)
    (hm : channelMove c x ch = some ch') (hr : x ≠ .reset) :
    (Polling log b ch' ∧ (ch.udre = true → ch'.udre = true ∧ x ≠ .advance c) ∧ (x = .txrdy c → ch'.udre = true)) ∨
      Written log b ch' := by
  rcases poll_move hm hr h.fg with ⟨hfg, hlog, hfault, hkeep, hset⟩ | ⟨-, -, hfg, hlog, hfault, hrsp⟩
  · exact .inl ⟨⟨hfg, hlog.trans h.txlog, hfault.trans h.fault⟩, hkeep, hset⟩
  · exact .inr ⟨hfg, by rw [hlog, h.txlog], hfault.trans h.fault, hrsp⟩

namespace WriteRun

variable {c : Chan} {b : Byte} {e : Nat → State} {x : Nat → Stimulus}

/-- The other channel rests throughout. -/
theorem other_atRest (h : WriteRun c b e x) {c' : Chan} (hc : c' ≠ c) : ∀ n, ((e n).chan c').atRest = true := by
  intro n
  induction n with
  | zero => exact h.rest c'
  | succ n ih =>
    have hm := h.executes.move n c'
    cases n with
    | zero =>
      rw [h.command, channelMove_other (by simp [Stimulus.reaches, hc.symm]), Option.some.injEq] at hm
      rwa [← hm]
    | succ n =>
      obtain ⟨hfg, hfault⟩ := atRest_iff.1 ih
      obtain ⟨hfg', hfault', -⟩ := rest_move hm (h.noCommand _ n.succ_pos) (h.noReset _) hfg
      exact atRest_iff.2 ⟨hfg', hfault'.trans hfault⟩

/-- The WRITE is accepted at step 0. -/
theorem polling_one (h : WriteRun c b e x) : Polling ((e 0).chan c).txlog b ((e 1).chan c) := by
  obtain ⟨hfg, hfault⟩ := atRest_iff.1 (h.rest c)
  have hdec : decode (.k (writeWord b)) = .instr (.write b) := decode_encode_write b
  have hm := h.executes.move 0 c
  rw [h.command, channelMove_command, commandMove_instr hfg hdec, Option.some.injEq] at hm
  have hacc : acceptOf c (.write b) ((e 0).chan c) = { (e 0).chan c with fg := .poll b } := acceptWrite_active h.active
  rw [← hm, hacc]
  exact ⟨rfl, rfl, hfault⟩

/-- From step 1 on the WRITE polls or has completed. -/
theorem polling_or_written (h : WriteRun c b e x) (n : Nat) :
    Polling ((e 0).chan c).txlog b ((e (n + 1)).chan c) ∨ Written ((e 0).chan c).txlog b ((e (n + 1)).chan c) := by
  induction n with
  | zero => exact .inl h.polling_one
  | succ n ih =>
    have hm := h.executes.move (n + 1) c
    rcases ih with hpoll | hdone
    · exact (hpoll.move hm (h.noReset _)).imp_left And.left
    · exact .inr (hdone.move hm (h.noCommand _ n.succ_pos) (h.noReset _))

/-- Once the bit is set it stays set while the WRITE polls. -/
theorem served_or_written (h : WriteRun c b e x) {m : Nat}
    (hm : Polling ((e 0).chan c).txlog b ((e (m + 1)).chan c) ∧ ((e (m + 1)).chan c).udre = true ∨
      Written ((e 0).chan c).txlog b ((e (m + 1)).chan c)) (n : Nat) (hn : m ≤ n) :
    Polling ((e 0).chan c).txlog b ((e (n + 1)).chan c) ∧ ((e (n + 1)).chan c).udre = true ∨
      Written ((e 0).chan c).txlog b ((e (n + 1)).chan c) := by
  induction n, hn using Nat.le_induction with
  | base => exact hm
  | succ n _ ih =>
    have hmove := h.executes.move (n + 1) c
    rcases ih with ⟨hpoll, hu⟩ | hdone
    · exact (hpoll.move hmove (h.noReset _)).imp_left fun ⟨hpoll', hkeep, _⟩ => ⟨hpoll', (hkeep hu).1⟩
    · exact .inr (hdone.move hmove (h.noCommand _ n.succ_pos) (h.noReset _))

/-- The premises make the WRITE complete: a TXRDY comes while it polls, and a turn after it. -/
theorem exists_written (h : WriteRun c b e x) : ∃ n, Written ((e 0).chan c).txlog b ((e (n + 1)).chan c) := by
  obtain ⟨m, hm, htx⟩ := h.drains 1 b h.polling_one.fg
  obtain ⟨m, rfl⟩ := Nat.exists_eq_add_of_le' hm
  rcases h.polling_or_written m with hpoll | hdone
  · have hserved : Polling ((e 0).chan c).txlog b ((e (m + 1 + 1)).chan c) ∧ ((e (m + 1 + 1)).chan c).udre = true ∨
        Written ((e 0).chan c).txlog b ((e (m + 1 + 1)).chan c) :=
      (hpoll.move (h.executes.move (m + 1) c) (h.noReset _)).imp_left fun ⟨hpoll', _, hset⟩ => ⟨hpoll', hset htx⟩
    obtain ⟨j, hj, hadv⟩ := h.turns (m + 1 + 1)
    obtain ⟨j, rfl⟩ := Nat.exists_eq_add_of_le' (le_trans (Nat.le_add_left 1 _) hj)
    rcases h.served_or_written hserved j (by omega) with ⟨hpoll', hu⟩ | hdone
    · rcases hpoll'.move (h.executes.move (j + 1) c) (h.noReset _) with ⟨-, hkeep, -⟩ | hdone
      · exact absurd hadv (hkeep hu).2
      · exact ⟨j + 1, hdone⟩
    · exact ⟨j, hdone⟩
  · exact ⟨m, hdone⟩

theorem noFault (h : WriteRun c b e x) : NoFault e := by
  intro n c'
  by_cases hc : c' = c
  · subst hc
    cases n with
    | zero => exact (atRest_iff.1 (h.rest c')).2
    | succ n => exact (h.polling_or_written n).elim Polling.fault Written.fault
  · exact (atRest_iff.1 (h.other_atRest hc n)).2

/-- The program's one word is accepted at step 0, and no other ever is. -/
theorem acceptedWord_iff (h : WriteRun c b e x) (n : Nat) :
    acceptedWord (e n) (x n) = if n = 0 then some (c, writeWord b) else none := by
  split_ifs with hn
  · rw [hn, h.command]
    exact if_pos (decide_eq_true (atRest_iff.1 (h.rest c)).1)
  · exact acceptedWord_none (h.noCommand n (Nat.pos_of_ne_zero hn))

theorem accepted_eq (h : WriteRun c b e x) (n : Nat) : accepted e x (n + 1) = [(c, writeWord b)] := by
  induction n with
  | zero => rw [accepted_succ, h.acceptedWord_iff, if_pos rfl]; rfl
  | succ n ih => rw [accepted_succ, ih, h.acceptedWord_iff, if_neg n.succ_ne_zero]; rfl

/-- At the step that completes the WRITE the program is done. -/
theorem completed (h : WriteRun c b e x) {n : Nat} (hn : Written ((e 0).chan c).txlog b ((e (n + 1)).chan c)) :
    Completed [(c, writeWord b)] e x (n + 1) where
  start := h.rest
  accepted := h.accepted_eq n
  completed i c' k _ hi := by
    rw [h.acceptedWord_iff] at hi
    split_ifs at hi with hi0
    cases hi
    subst hi0
    exact ⟨n, n.zero_le, n.lt_succ_self, fun k _ _ => h.noReset k, hn.fg⟩
  rest c' := by
    by_cases hc : c' = c
    · rw [hc]; exact atRest_iff.2 ⟨hn.fg, hn.fault⟩
    · exact h.other_atRest hc _

/-- While the WRITE polls the program is not done. -/
theorem not_completed (h : WriteRun c b e x) {m : Nat} (hm : ∀ n, m = n + 1 →
    ¬Written ((e 0).chan c).txlog b ((e (n + 1)).chan c)) : ¬Completed [(c, writeWord b)] e x m := by
  intro hdone
  cases m with
  | zero => exact nomatch hdone.accepted
  | succ n =>
    rcases h.polling_or_written n with hpoll | hwritten
    · have hidle := (atRest_iff.1 (hdone.rest c)).1
      rw [hpoll.fg] at hidle
      cases hidle
    · exact hm n rfl hwritten

end WriteRun

/-- Settles O51: the run ends at the first step that finds the WRITE completed. -/
theorem writeProgramEndsUnderTxDrains : Obligations.WriteProgramEndsUnderTxDrains := by
  classical
  intro e x c b hexec _ hrest hact hx0 hx hturns hdrains
  have h : WriteRun c b e x := ⟨hexec, hrest, hact, hx0, fun n => (hx n).2.1, fun n => (hx n).2.2, hturns, hdrains⟩
  have hn := Nat.find_spec h.exists_written
  refine ⟨h.noFault, _, ⟨h.completed hn, fun m hm => h.not_completed ?_⟩, hn.txlog, hn.rsp⟩
  rintro k rfl
  exact Nat.find_min h.exists_written (Nat.lt_of_succ_lt_succ hm)

end Machine
end Sys2Proof
end
